-- ==== Sys2Proof/Word.lean ====
section
/-! DEFINITION. The word types of the unit: bytes (symbols, R7), 32-bit register words (R10), and 17-bit bus offsets (R60). -/

namespace Sys2Proof

/-- A symbol or a byte lane: 8 bits (R10). -/
abbrev Byte := BitVec 8

/-- A register, bus data word, command word or plane word: 32 bits (R10). -/
abbrev Word := BitVec 32

/-- A byte offset from `UNIT_BASE`: 17 bits (R60). -/
abbrev Offset := BitVec 17

end Sys2Proof
end

