-- ==== Sys2Proof/Config.lean ====
section
/-! DEFINITION. What the build fixes (R8, R9, R19) and the free values of what the spec leaves open. -/

namespace Sys2Proof

/-- The two build-time parameters that software cannot write (R8). A machine takes them as `State.build`; `legalConfig` is what
R8 assumes of them. -/
structure Config where
  /-- `PRIM_POLY`: the reduction polynomial, 9 bits with bit 8 set. -/
  primPoly : BitVec 9
  /-- `GEN_BASE`: the generator base b, 0..254. -/
  genBase : Byte
deriving DecidableEq, Repr

/-- The instance of the spec, R3 and R8: `PRIM_POLY` = 0x11D and `GEN_BASE` = 0. -/
def Config.unit : Config := { primPoly := 0x11D#9, genBase := 0#8 }

/-- `SYM_DEPTH`: the number of entries of the symbol buffer (R9). -/
def Config.symDepth : Nat := 256

/-- `MAT_WORDS`: the 32-bit words of storage per plane (R9). -/
def Config.matWords : Nat := 8192

/-- `MAX_DIM`: the largest width and height of a plane (R9). -/
def Config.maxDim : Nat := 65535

/-- The field size S = 2^K with K = 8 (R7). -/
def Config.fieldSize : Nat := 256

/-- `UNIT_BASE`, OPEN (R9, R73): where the host's address map places offset 0 (log 14). -/
opaque Config.unitBase : Nat

/-- A free value: what a SYM entry that holds no value gives at the n-th draw (R36, U2 and U4; logs 2 and 4). -/
opaque Config.freeByte : Nat → Byte

/-- A free value: what a SYM or plane read answers while BUSY = 1 at the n-th draw (R227, U3; log 3). -/
opaque Config.freeWord : Nat → Word

/-- A free value: how many host events come between an acceptance and its completion (R105, U6; log 5). -/
opaque Config.latency : Nat → Nat

end Sys2Proof
end

