-- ==== Sys2Proof/Syntax.lean ====
section
/-! DEFINITION. The commands of the opcode table (R87), the raw fields of a command word (R85), the error codes (R190), the
bus transactions (R60) and the lines of a host program (R93, R94), all as syntax. -/

namespace Sys2Proof

/-- A plane number, p ∈ {0, 1} (R37). -/
inductive PlaneId where
  | p0
  | p1
deriving DecidableEq, Repr

/-- The commands of R87, one constructor per row of the opcode table. Numeric operands are no part of a command: they are
the ARG snapshot's (R88). -/
inductive Instr where
  | nop
  | gfAdd
  | gfMul
  | gfInv
  | gfExp
  | gfLog
  | rsEnc
  | rsGen
  | mxInit (p : PlaneId)
  | mxGet (p : PlaneId)
  | mxSet (p : PlaneId)
  | mxFlip (p : PlaneId)
  | mxFill (p : PlaneId)
  | mxXor (p q : PlaneId)
deriving DecidableEq, Repr

/-- The raw fields of a command word (R85). -/
structure Fields where
  op : Byte
  p : Bool
  q : Bool
  rsv : BitVec 22
deriving DecidableEq, Repr

/-- The error causes of a command, codes 0x01 to 0x0D in this order (R190). -/
inductive CmdError where
  | opcode
  | reserved
  | operand
  | invZero
  | logZero
  | rsNoEc
  | rsEcTooLarge
  | rsNoData
  | rsRange
  | mxUninit
  | mxShape
  | mxBounds
  | mxMismatch
deriving DecidableEq, Repr

/-- The registers of the register block (R22). -/
inductive Reg where
  | id
  | version
  | ctrl
  | status
  | errcode
  | cmd
  | result
  | param
  | arg0
  | arg1
  | arg2
  | arg3
  | shape0
  | shape1
deriving DecidableEq, Repr

/-- The access width a host's bus presents: 1, 2 or 4 bytes (R60). -/
inductive Size where
  | byte
  | half
  | word
deriving DecidableEq, Repr

/-- What comes to the unit from outside: a bus transaction (R60), one WAIT loop (R95), or a change of the `rst` input (R220,
R221; log 9). -/
inductive HostEvent where
  | read (addr : Offset) (size : Size)
  | write (addr : Offset) (size : Size) (v : Word)
  | wait
  | assertRst
  | releaseRst
deriving DecidableEq, Repr

/-- One line of a host program (R93, R94). A plane, symbol or word number is a plain number here, as an assembler reads it:
`AsmLine.wellFormed` says which can be encoded. The operands of a mnemonic are optional: with none it is the CMD write alone
(R94; log 13 for the plane numbers). -/
inductive AsmLine where
  | wr (r : Reg) (v : Word)
  | rd (r : Reg)
  | symw (j : Nat) (v : Word)
  | symr (j : Nat)
  | plw (p j : Nat) (v : Word)
  | plr (p j : Nat)
  | wait
  | cmd (w : Word)
  | nop
  | gfAdd (ops : Option (Word × Word))
  | gfSub (ops : Option (Word × Word))
  | gfMul (ops : Option (Word × Word))
  | gfInv (op : Option Word)
  | gfExp (op : Option Word)
  | gfLog (op : Option Word)
  | rsEnc (ops : Option (Word × Word × Word))
  | rsGen (ops : Option (Word × Word))
  | mxInit (p : Nat) (ops : Option (Word × Word))
  | mxGet (p : Nat) (ops : Option (Word × Word))
  | mxSet (p : Nat) (ops : Option (Word × Word))
  | mxFlip (p : Nat) (ops : Option (Word × Word))
  | mxFill (p : Nat) (ops : Option (Word × Word × Word × Word))
  | mxXor (p q : Nat)
deriving DecidableEq, Repr

end Sys2Proof
end

