-- ==== Sys2Proof/WellFormed.lean ====
section
/-! DEFINITION. Which raw command words are legal (R87, R89, R90) and which host-program lines can be assembled (R93, R94).
A term of `Instr` is legal as it stands: its plane numbers are of a type with two values. -/

namespace Sys2Proof

/-- OP is one of the 14 assigned opcodes (R87, R89). -/
def Fields.opAssigned (f : Fields) : Bool :=
  f.op == 0x00#8 || (0x10#8 ≤ f.op && f.op ≤ 0x14#8) || f.op == 0x20#8 || f.op == 0x21#8 ||
    (0x30#8 ≤ f.op && f.op ≤ 0x35#8)

/-- RSV = 0 (R85, R90). -/
def Fields.rsvClear (f : Fields) : Bool := f.rsv == 0#22

/-- P is 0 unless the opcode has a plane operand (R87, R90). -/
def Fields.pLegal (f : Fields) : Bool := !f.p || (0x30#8 ≤ f.op && f.op ≤ 0x35#8)

/-- Q is 0 unless the opcode is MX.XOR (R87, R90). -/
def Fields.qLegal (f : Fields) : Bool := !f.q || f.op == 0x35#8

/-- An assigned command with legal fields (R91). -/
def Fields.wellFormed (f : Fields) : Bool := f.opAssigned && f.rsvClear && f.pLegal && f.qLegal

/-- Whether a line can be assembled: plane numbers are 0 or 1 (R94), symbol and plane-word numbers lie in their windows
(R69, R70). -/
def AsmLine.wellFormed : AsmLine → Bool
  | .symw j _ => decide (j < Config.symDepth)
  | .symr j => decide (j < Config.symDepth)
  | .plw p j _ => decide (p < 2) && decide (j < Config.matWords)
  | .plr p j => decide (p < 2) && decide (j < Config.matWords)
  | .mxInit p _ => decide (p < 2)
  | .mxGet p _ => decide (p < 2)
  | .mxSet p _ => decide (p < 2)
  | .mxFlip p _ => decide (p < 2)
  | .mxFill p _ => decide (p < 2)
  | .mxXor p q => decide (p < 2) && decide (q < 2)
  | .wr _ _ | .rd _ | .wait | .cmd _ | .nop | .gfAdd _ | .gfSub _ | .gfMul _ | .gfInv _ | .gfExp _ | .gfLog _
  | .rsEnc _ | .rsGen _ => true

end Sys2Proof
end

