-- ==== Sys2Proof/Decode.lean ====
section
/-! DEFINITION. Decoding, total on every 32-bit word (R91, R92), and the encoder written from the same table (R85, R87). -/

namespace Sys2Proof

/-- The fields of a command word (R85). -/
def Fields.ofWord (w : Word) : Fields :=
  { op := w.extractLsb' 0 8, p := w.getLsbD 8, q := w.getLsbD 9, rsv := w.extractLsb' 10 22 }

/-- The plane a 1-bit plane operand names (R88). -/
def PlaneId.ofBit : Bool → PlaneId
  | false => .p0
  | true => .p1

/-- The plane number as a 32-bit word (R88). -/
def PlaneId.toWord : PlaneId → Word
  | .p0 => 0#32
  | .p1 => 1#32

/-- One row of R87: the opcode, whether its P and its Q column hold a plane operand, and the command. -/
structure OpRow where
  op : Byte
  hasP : Bool
  hasQ : Bool
  build : PlaneId → PlaneId → Instr

/-- The assigned opcodes (R87). -/
def opTable : List OpRow := [
  ⟨0x00#8, false, false, fun _ _ => .nop⟩,
  ⟨0x10#8, false, false, fun _ _ => .gfAdd⟩,
  ⟨0x11#8, false, false, fun _ _ => .gfMul⟩,
  ⟨0x12#8, false, false, fun _ _ => .gfInv⟩,
  ⟨0x13#8, false, false, fun _ _ => .gfExp⟩,
  ⟨0x14#8, false, false, fun _ _ => .gfLog⟩,
  ⟨0x20#8, false, false, fun _ _ => .rsEnc⟩,
  ⟨0x21#8, false, false, fun _ _ => .rsGen⟩,
  ⟨0x30#8, true, false, fun p _ => .mxInit p⟩,
  ⟨0x31#8, true, false, fun p _ => .mxGet p⟩,
  ⟨0x32#8, true, false, fun p _ => .mxSet p⟩,
  ⟨0x33#8, true, false, fun p _ => .mxFlip p⟩,
  ⟨0x34#8, true, false, fun p _ => .mxFill p⟩,
  ⟨0x35#8, true, true, fun p q => .mxXor p q⟩]

/-- Decoding of the fields: E_OPCODE first, then E_RESERVED (R92, R193). -/
def decodeFields (f : Fields) : Except CmdError Instr :=
  match opTable.find? (fun r => r.op == f.op) with
  | none => .error .opcode
  | some r =>
    if f.rsv != 0#22 then .error .reserved
    else if f.p && !r.hasP then .error .reserved
    else if f.q && !r.hasQ then .error .reserved
    else .ok (r.build (PlaneId.ofBit f.p) (PlaneId.ofBit f.q))

/-- `decode(w)` of R92. -/
def decode (w : Word) : Except CmdError Instr := decodeFields (Fields.ofWord w)

/-- The command word `OP | p<<8` (R87). -/
def encodePlane (op : Word) (p : PlaneId) : Word := op ||| (p.toWord <<< 8)

/-- The command word of a command (R87). -/
def encode : Instr → Word
  | .nop => 0x00#32
  | .gfAdd => 0x10#32
  | .gfMul => 0x11#32
  | .gfInv => 0x12#32
  | .gfExp => 0x13#32
  | .gfLog => 0x14#32
  | .rsEnc => 0x20#32
  | .rsGen => 0x21#32
  | .mxInit p => encodePlane 0x30#32 p
  | .mxGet p => encodePlane 0x31#32 p
  | .mxSet p => encodePlane 0x32#32 p
  | .mxFlip p => encodePlane 0x33#32 p
  | .mxFill p => encodePlane 0x34#32 p
  | .mxXor p q => encodePlane 0x35#32 p ||| (q.toWord <<< 9)

/-- The command word whose bits below `nbits` are those of `w` and whose other bits are 0. -/
def tableWord (nbits w : Nat) : Word := BitVec.ofNat 32 (w % 2 ^ nbits)

/-- What the decoder reads from a command word numbered as the opcode table numbers it: one CMD write is one word, and its
bit i is bit i of the bus word (R63, R86). -/
def decodeTableWord (nbits w : Nat) : Option Instr :=
  match decode (tableWord nbits w) with
  | .ok i => some i
  | .error _ => none

end Sys2Proof
end

