-- ==== Sys2Proof/Machine/State.lean ====
section
/-! DEFINITION. The unit's state as plain data (R20), the faults and refusals, and the state right after reset (R220). -/

namespace Sys2Proof.Machine

/-- The unit's storage, SYM and the planes, as bytes at their offsets from `UNIT_BASE` (R61, R69, R70): addresses strictly
rising, no entry equal to what an unlisted address reads as (`Memory.wf`; log 12). -/
abbrev Memory := List Host.Cell

/-- `(W[p], H[p])` (R32, R37); 0 × 0 is an uninitialised plane. -/
structure Shape where
  width : BitVec 16
  height : BitVec 16
deriving DecidableEq, Repr

/-- The four operand words: the ARG registers (R31), or a snapshot of them (R101). -/
structure Args where
  a0 : Word
  a1 : Word
  a2 : Word
  a3 : Word
deriving DecidableEq, Repr

/-- A command in the latch: its word and its ARG snapshot (R41). -/
structure Command where
  word : Word
  args : Args
deriving DecidableEq, Repr

/-- The response of a transaction (R60). -/
inductive Resp where
  | ok
  | error
deriving DecidableEq, Repr

/-- What the unit answered to a transaction: a read carries data, a write only its response (R60). -/
inductive Response where
  | read (data : Word) (resp : Resp)
  | write (resp : Resp)
deriving DecidableEq, Repr

/-- Why the machine stops with a fault. -/
inductive Fault where
  /-- Raised by every meaning in a state whose latch holds no command: the unit's step is enabled only if one is pending
  (R102). `step` never raises it. Safe (log 10). -/
  | noCommand
deriving DecidableEq, Repr

/-- Why the machine refuses a step. -/
inductive Refusal where
  /-- Raised by `exec` alone, for an instruction without a meaning yet; here every instruction has one. Safe. -/
  | notModelled (mnemonic : String)
  /-- Raised by `step` for a bus transaction issued while `rst` is asserted: it has no specified outcome, and a model must not
  issue one (R221, U7). Safe (log 9). -/
  | transactionDuringReset
deriving DecidableEq, Repr

/-- The build the machine is, then the architectural state of R20, then the model's own fields. ID, VERSION and PARAM are
constants of the build (`State.readReg`); STATUS.BUSY is `pending.isSome` (R41); irq is `State.irq` (R43). -/
structure State where
  /-- The build's parameters, `PRIM_POLY` and `GEN_BASE` (R8): configuration, which no step changes (R19; log 1). -/
  build : Config
  /-- CTRL.IE (R27). -/
  ie : Bool
  /-- STATUS.DONE (R25). -/
  done : Bool
  /-- STATUS.ERR (R25). -/
  err : Bool
  /-- STATUS.BUSYERR (R25). -/
  busyErr : Bool
  /-- STATUS.BUSERR (R25). -/
  busErr : Bool
  /-- ERRCODE, `none` for code 0 (R28, R190). -/
  errcode : Option CmdError
  /-- CMD: the word last accepted (R29). -/
  cmd : Word
  /-- RESULT (R30). -/
  result : Word
  /-- ARG0 to ARG3 (R31). -/
  args : Args
  /-- SHAPE0 (R32). -/
  shape0 : Shape
  /-- SHAPE1 (R32). -/
  shape1 : Shape
  /-- SYM and the planes' bits (R35 to R39). -/
  mem : Memory
  /-- The command latch (R41). -/
  pending : Option Command
  /-- The level of the reset input (R44, R221). -/
  rst : Bool
  /-- Model's own: how many free values have been drawn (log 8). -/
  draws : Nat
  /-- Model's own: how many host events may still come before the pending command completes (R105; log 5). -/
  delay : Nat
  /-- Model's own: the host's coming transactions and reset events, in order (R18; log 6). -/
  host : List HostEvent
  /-- Model's own: the unit's answer to the last transaction (R60). -/
  response : Option Response
deriving DecidableEq, Repr

/-- An uninitialised plane (R32). -/
def Shape.none : Shape := { width := 0#16, height := 0#16 }

/-- Four operand registers at 0 (R22). -/
def Args.zero : Args := { a0 := 0#32, a1 := 0#32, a2 := 0#32, a3 := 0#32 }

/-- A machine of the build `c` right after hardware reset (R220): every register at its reset value, no command pending, no SYM
entry holding a value, both planes uninitialised. The model's own fields are named in log 8, the level of `rst` in log 9. -/
def State.resetFor (c : Config) : State :=
  { build := c, ie := false, done := false, err := false, busyErr := false, busErr := false, errcode := .none, cmd := 0#32,
    result := 0#32, args := Args.zero, shape0 := Shape.none, shape1 := Shape.none, mem := [], pending := .none,
    rst := false, draws := 0, delay := 0, host := [], response := .none }

/-- The instance of the spec (R3) right after hardware reset (log 1). -/
def State.reset : State := State.resetFor Config.unit

end Sys2Proof.Machine
end

