-- ==== Sys2Proof/Machine/Flags.lean ====
section
/-! DEFINITION. The STATUS flags as the bus sees them, the interrupt output and the error codes (R25, R26, R43, R190). -/

namespace Sys2Proof.Machine

/-- STATUS.BUSY: 1 exactly when a command is pending (R25, R41). -/
def State.busy (s : State) : Bool := s.pending.isSome

/-- The word with bit `i` equal to `b` and every other bit 0. -/
def bitAt (i : Nat) (b : Bool) : Word := if b then 1#32 <<< i else 0#32

/-- STATUS as a register word: BUSY, DONE, ERR, BUSYERR, BUSERR in bits 0 to 4 (R25). -/
def State.statusWord (s : State) : Word :=
  bitAt 0 s.busy ||| bitAt 1 s.done ||| bitAt 2 s.err ||| bitAt 3 s.busyErr ||| bitAt 4 s.busErr

/-- CTRL as a register word: IE in bit 0; SRST always reads 0 (R27). -/
def State.ctrlWord (s : State) : Word := bitAt 0 s.ie

/-- The interrupt output: `CTRL.IE AND STATUS.DONE` (R43, R195). -/
def State.irq (s : State) : Bool := s.ie && s.done

/-- The error codes (R190). -/
def errorCode : CmdError → Byte
  | .opcode => 0x01#8
  | .reserved => 0x02#8
  | .operand => 0x03#8
  | .invZero => 0x04#8
  | .logZero => 0x05#8
  | .rsNoEc => 0x06#8
  | .rsEcTooLarge => 0x07#8
  | .rsNoData => 0x08#8
  | .rsRange => 0x09#8
  | .mxUninit => 0x0A#8
  | .mxShape => 0x0B#8
  | .mxBounds => 0x0C#8
  | .mxMismatch => 0x0D#8

/-- ERRCODE as a register word: the code in bits [7:0], 0 for no error (R28, R190). -/
def State.errcodeWord (s : State) : Word :=
  match s.errcode with
  | none => 0#32
  | some e => (errorCode e).setWidth 32

/-- A host write of `v` to STATUS: each W1C bit for which `v` has a 1 is cleared, nothing else changes (R26). -/
def State.writeStatus (s : State) (v : Word) : State :=
  { s with
    done := s.done && !v.getLsbD 1
    err := s.err && !v.getLsbD 2
    busyErr := s.busyErr && !v.getLsbD 3
    busErr := s.busErr && !v.getLsbD 4 }

end Sys2Proof.Machine
end

