-- ==== Sys2Proof/Machine/Memory.lean ====
section
/-! DEFINITION. The unit's storage as bytes at their bus offsets: SYM (R35, R69) and the planes' storage words (R38, R70), byte
lanes little-endian (R63). -/

namespace Sys2Proof.Machine

/-- The offset of `SYM[j]`'s word (R69). -/
def symAddr (j : Nat) : Nat := 0x400 + 4 * j

/-- `PLANE_BASE[p]` (R61). -/
def planeBase : PlaneId → Nat
  | .p0 => 0x10000
  | .p1 => 0x18000

/-- Bytes of storage per plane: 8192 words of 4 bytes (R9, R61). -/
def planeBytes : Nat := 4 * Config.matWords

/-- The byte lane of a SYM word that holds the symbol: bits [7:0] (R63, R69). -/
def isSymCell (a : Nat) : Bool := decide (0x400 ≤ a) && decide (a < 0x800) && a % 4 == 0

/-- A byte of a plane's storage (R61). -/
def isPlaneByte (a : Nat) : Bool := decide (0x10000 ≤ a) && decide (a < 0x20000)

/-- What an address that is not listed reads as: a SYM entry holds no value (R36), and every other byte is 0 (R39, R69;
log 11). -/
def Memory.unlisted (a : Nat) : Option Byte := if isSymCell a then none else some 0#8

/-- One byte of storage; `none` is a SYM entry that holds no value (R36). -/
def Memory.byteAt : Memory → Nat → Option Byte
  | [], a => Memory.unlisted a
  | (b, v) :: m, a => if b = a then some v else Memory.byteAt m a

/-- One byte of a plane's storage, which always holds a value. -/
def Memory.planeByte (m : Memory) (a : Nat) : Byte := (m.byteAt a).getD 0#8

/-- `m` with an entry for `a` before it, or `m` itself if that entry says what an unlisted address reads as. -/
def Memory.keep (a : Nat) (v : Byte) (m : Memory) : Memory := if Memory.unlisted a = some v then m else (a, v) :: m

/-- The write of one byte. -/
def Memory.write : Memory → Nat → Byte → Memory
  | [], a, v => Memory.keep a v []
  | (b, w) :: m, a, v =>
    if a < b then Memory.keep a v ((b, w) :: m)
    else if a = b then Memory.keep a v m
    else (b, w) :: Memory.write m a v

/-- The storage without its entries at `lo`, ..., `lo + n - 1`. -/
def Memory.drop (m : Memory) (lo n : Nat) : Memory := m.filter fun c => !(decide (lo ≤ c.1) && decide (c.1 < lo + n))

/-- The entries at `lo`, ..., `lo + n - 1` alone. -/
def Memory.slice (m : Memory) (lo n : Nat) : Memory := m.filter fun c => decide (lo ≤ c.1) && decide (c.1 < lo + n)

/-- The first entry's byte if it is at `a`, else 0. -/
def Memory.headByte (m : Memory) (a : Nat) : Byte :=
  match m with
  | [] => 0#8
  | (b, v) :: _ => if b = a then v else 0#8

/-- The entries after `a`, when the first entry is at `a` or later. -/
def Memory.headDrop (m : Memory) (a : Nat) : Memory :=
  match m with
  | [] => []
  | (b, v) :: rest => if b = a then rest else (b, v) :: rest

/-- The entries `f k old src` for the `n` bytes from `lo + k` on, before `tail`: `dst` and `src` list what stands from `lo + k`
and `slo + k` on. -/
def Memory.build (f : Nat → Byte → Byte → Byte) (lo slo : Nat) (tail : Memory) : Nat → Nat → Memory → Memory → Memory
  | 0, _, _, _ => tail
  | n + 1, k, dst, src =>
    Memory.keep (lo + k) (f k (dst.headByte (lo + k)) (src.headByte (slo + k)))
      (Memory.build f lo slo tail n (k + 1) (dst.headDrop (lo + k)) (src.headDrop (slo + k)))

/-- The plane bytes at `lo`, ..., `lo + n - 1` all replaced at once, byte `k` by `f k old src` for the old byte at `lo + k` and
the byte at `slo + k`. -/
def Memory.merge (f : Nat → Byte → Byte → Byte) (lo slo n : Nat) (m : Memory) : Memory :=
  m.filter (fun c => decide (c.1 < lo)) ++
    Memory.build f lo slo (m.filter fun c => decide (lo + n ≤ c.1)) n 0 (m.slice lo n) (m.slice slo n)

/-- The symbols `l` written to `SYM[j]`, `SYM[j + 1]`, ... (R175, R177). -/
def Memory.writeSyms (m : Memory) (j : Nat) : List Byte → Memory
  | [] => m
  | v :: l => Memory.writeSyms (m.write (symAddr j) v) (j + 1) l

/-- The canonical form: addresses strictly rising, every entry a cell of storage, none equal to what an unlisted address reads
as (log 12). -/
def Memory.wf : Memory → Bool
  | [] => true
  | (a, v) :: m =>
    (isSymCell a || isPlaneByte a) && !(Memory.unlisted a == some v) && m.all (fun c => decide (a < c.1)) && Memory.wf m

/-- The byte whose bit i is `f i`. -/
def byteOfBits (f : Nat → Bool) : Byte :=
  BitVec.ofBool (f 7) ++ BitVec.ofBool (f 6) ++ BitVec.ofBool (f 5) ++ BitVec.ofBool (f 4) ++
    BitVec.ofBool (f 3) ++ BitVec.ofBool (f 2) ++ BitVec.ofBool (f 1) ++ BitVec.ofBool (f 0)

/-- The row stride `RW = ceil(W/32)` (R38). -/
def Shape.rowWords (sh : Shape) : Nat := (sh.width.toNat + 31) / 32

/-- The storage bit of `(x, y)`: bit `x % 32` of word `y·RW + x/32` (R38), counted over the plane's words. -/
def Shape.bitIndex (sh : Shape) (x y : Nat) : Nat := 32 * (y * sh.rowWords + x / 32) + x % 32

/-- The row a storage bit belongs to, the inverse of `bitIndex` (R70). -/
def Shape.rowOf (sh : Shape) (i : Nat) : Nat := i / 32 / sh.rowWords

/-- The column a storage bit belongs to, padding columns included (R70). -/
def Shape.columnOf (sh : Shape) (i : Nat) : Nat := i / 32 % sh.rowWords * 32 + i % 32

/-- Storage bit `i` of plane `p`: bit `i % 8` of the plane's byte `i / 8` (R38, R63). -/
def Memory.planeBit (m : Memory) (p : PlaneId) (i : Nat) : Bool := (m.planeByte (planeBase p + i / 8)).getLsbD (i % 8)

/-- The write of storage bit `i` of plane `p`. -/
def Memory.writePlaneBit (m : Memory) (p : PlaneId) (i : Nat) (b : Bool) : Memory :=
  m.write (planeBase p + i / 8) (byteOfBits fun t => if t = i % 8 then b else (m.planeByte (planeBase p + i / 8)).getLsbD t)

/-- Every bit `(x, y)` of plane `p` replaced at once by `g x y` of its old value and of the same bit of plane `q`; storage bits
outside the shape stay (R116). -/
def Memory.mapPlane (m : Memory) (sh : Shape) (p q : PlaneId) (g : Nat → Nat → Bool → Bool → Bool) : Memory :=
  m.merge (fun k d s => byteOfBits fun t =>
      let i := 8 * k + t
      if sh.columnOf i < sh.width.toNat then g (sh.columnOf i) (sh.rowOf i) (d.getLsbD t) (s.getLsbD t) else d.getLsbD t)
    (planeBase p) (planeBase q) (4 * (sh.rowWords * sh.height.toNat))

/-- Byte lane `b` of storage word `j` of plane `p` as a host reads it: the padding reads 0 (R70). -/
def Memory.laneRead (m : Memory) (sh : Shape) (p : PlaneId) (j b : Nat) : Byte :=
  byteOfBits fun t => decide (sh.columnOf (32 * j + 8 * b + t) < sh.width.toNat) && m.planeBit p (32 * j + 8 * b + t)

/-- Storage word `j` of plane `p`, as a host reads it: 0 outside the shape and in the padding (R70). -/
def Memory.planeWord (m : Memory) (sh : Shape) (p : PlaneId) (j : Nat) : Word :=
  if j < sh.rowWords * sh.height.toNat then
    m.laneRead sh p j 3 ++ m.laneRead sh p j 2 ++ m.laneRead sh p j 1 ++ m.laneRead sh p j 0
  else 0#32

/-- Byte lane `b` of storage word `j` of plane `p` after a host's write of `v`: the padding keeps what it held (R70). -/
def Memory.laneWritten (m : Memory) (sh : Shape) (p : PlaneId) (j : Nat) (v : Word) (b : Nat) : Byte :=
  byteOfBits fun t =>
    if sh.columnOf (32 * j + 8 * b + t) < sh.width.toNat then v.getLsbD (8 * b + t) else m.planeBit p (32 * j + 8 * b + t)

/-- A host's write of storage word `j` of plane `p`: no effect outside the shape and in the padding (R70). -/
def Memory.writePlaneWord (m : Memory) (sh : Shape) (p : PlaneId) (j : Nat) (v : Word) : Memory :=
  if j < sh.rowWords * sh.height.toNat then
    (((m.write (planeBase p + 4 * j) (m.laneWritten sh p j v 0)).write (planeBase p + 4 * j + 1)
        (m.laneWritten sh p j v 1)).write (planeBase p + 4 * j + 2) (m.laneWritten sh p j v 2)).write
      (planeBase p + 4 * j + 3) (m.laneWritten sh p j v 3)
  else m

end Sys2Proof.Machine
end

