-- ==== Sys2Proof/Machine/Ops.lean ====
section
/-! DEFINITION. The shared operations over the state: shapes and plane bits, SYM, acceptance (R100), completion (R102), the error
completion and the way back from it (R197, R198), and the two resets (R220, R222, R223). -/

namespace Sys2Proof.Machine

/-- `(W[p], H[p])` (R32). -/
def State.shape (s : State) : PlaneId → Shape
  | .p0 => s.shape0
  | .p1 => s.shape1

/-- The write of SHAPE[p] (R32). -/
def State.setShape (s : State) (p : PlaneId) (sh : Shape) : State :=
  match p with
  | .p0 => { s with shape0 := sh }
  | .p1 => { s with shape1 := sh }

/-- `init(p)`: the plane's shape is not (0, 0) (R115). -/
def State.planeInit (s : State) (p : PlaneId) : Bool := s.shape p != Shape.none

/-- `inb(p, x, y)` (R115). -/
def State.inBounds (s : State) (p : PlaneId) (x y : Nat) : Bool :=
  decide (x < (s.shape p).width.toNat) && decide (y < (s.shape p).height.toNat)

/-- `M[p](x, y)` (R37, R38). -/
def State.bit (s : State) (p : PlaneId) (x y : Nat) : Bool := s.mem.planeBit p ((s.shape p).bitIndex x y)

/-- `M[p](x, y) <- b` (R38). -/
def State.setBit (s : State) (p : PlaneId) (x y : Nat) (b : Bool) : State :=
  { s with mem := s.mem.writePlaneBit p ((s.shape p).bitIndex x y) b }

/-- `M[p](x, y) <- g x y M[p](x, y) M[q](x, y)` for every bit of plane p, every right-hand side read before any write (R116,
R130). -/
def State.mapPlane (s : State) (p q : PlaneId) (g : Nat → Nat → Bool → Bool → Bool) : State :=
  { s with mem := s.mem.mapPlane (s.shape p) p q g }

/-- The construction of plane p with all bits 0: the new shape, and every storage word 0 (R117). -/
def State.initPlane (s : State) (p : PlaneId) (w h : Nat) : State :=
  { s.setShape p { width := BitVec.ofNat 16 w, height := BitVec.ofNat 16 h } with
    mem := s.mem.drop (planeBase p) planeBytes }

/-- `reg(RESULT) <- v` (R30). -/
def State.setResult (s : State) (v : Word) : State := { s with result := v }

/-- `SYM[j]`, or the `n`-th free value if the entry holds none (R36; log 2). -/
def State.symbol (s : State) (j n : Nat) : Byte := (s.mem.byteAt (symAddr j)).getD (Config.freeByte n)

/-- The message `SYM[base .. base+k-1]`; entry i takes free value number `draws + i` if it holds no value (R175, R36; log 2). -/
def State.message (s : State) (base k : Nat) : List Byte := (List.range k).map fun i => s.symbol (base + i) (s.draws + i)

/-- `SYM[j], SYM[j+1], ... <- l` (R175, R177). -/
def State.writeSyms (s : State) (j : Nat) (l : List Byte) : State := { s with mem := s.mem.writeSyms j l }

/-- The acceptance of the command word `w` (R100): the latch takes `w` and a snapshot of ARG0 to ARG3 (R101), BUSY rises, and
DONE, ERR and ERRCODE are cleared. It is also the way back from an error (R198). -/
def State.accept (s : State) (w : Word) : State :=
  { s with
    cmd := w
    pending := some { word := w, args := s.args }
    done := false
    err := false
    errcode := none }

/-- The end of every completion: `pending <- none`, so BUSY falls, and DONE rises (R102). -/
def State.completeOk (s : State) : State := { s with pending := none, done := true }

/-- The error completion, this unit's only exception entry (R102, R104, R197): ERR and ERRCODE, BUSY and DONE, and nothing
else. -/
def State.completeErr (s : State) (e : CmdError) : State :=
  { s with pending := none, done := true, err := true, errcode := some e }

/-- The unit's step for a decoded command (R102, R103): `body` is the command's checks and writes, given the ARG snapshot; its
writes are applied all at once, or none of them on an error (R104). With no command pending the step is not enabled (log 10). -/
def State.runCommand (s : State) (body : Args → Except CmdError State) : Host.Outcome State Fault Refusal :=
  match s.pending with
  | none => .fault .noCommand
  | some c =>
    match body c.args with
    | .ok t => .next t.completeOk
    | .error e => .next (s.completeErr e)

/-- The hardware reset (R220): every register and the latch at the build's reset values, every SYM entry without a value, both
planes uninitialised. The build stays (R19, R224). The host's coming events, its last response and the count of draws are the
model's own and stay (log 8). -/
def State.hardReset (s : State) : State :=
  { State.resetFor s.build with rst := s.rst, draws := s.draws, host := s.host, response := s.response }

/-- The SYM indices that become unspecified when the pending command `c` is aborted (R223), whatever its checks would have said;
a word that decodes to no command is neither RS.ENC nor RS.GEN (log 4). -/
def Command.abortedSym (c : Command) (j : Nat) : Bool :=
  match decode c.word with
  | .ok .rsEnc =>
    decide (c.args.a2.toNat + c.args.a0.toNat ≤ j) && decide (j < c.args.a2.toNat + c.args.a0.toNat + c.args.a1.toNat)
  | .ok .rsGen => decide (c.args.a2.toNat ≤ j) && decide (j ≤ c.args.a2.toNat + c.args.a1.toNat)
  | _ => false

/-- Each of `SYM[0], ..., SYM[n-1]` that `hit` names takes a fresh free value, held from then on; entry j takes number
`draws + j` (R223, U4). -/
def Memory.drawSyms (m : Memory) (hit : Nat → Bool) (draws : Nat) : Nat → Memory
  | 0 => m
  | n + 1 =>
    if hit n then (Memory.drawSyms m hit draws n).write (symAddr n) (Config.freeByte (draws + n))
    else Memory.drawSyms m hit draws n

/-- Storage after a soft reset: the planes' bytes are gone with their shapes, SYM is preserved (R222) except what an aborted RS
command may have written (R223). -/
def State.softResetMem (s : State) : Memory :=
  let kept := s.mem.drop 0x10000 0x10000
  match s.pending with
  | none => kept
  | some c => kept.drawSyms c.abortedSym s.draws Config.symDepth

/-- The soft reset (R222): as a hardware reset, but for SYM. -/
def State.softReset (s : State) : State :=
  { s.hardReset with mem := s.softResetMem, draws := s.draws + Config.symDepth }

/-- PARAM: `PRIM_POLY` in bits [8:0] and `GEN_BASE` in bits [23:16] (R33). -/
def paramWord (c : Config) : Word := c.primPoly.setWidth 32 ||| (c.genBase.setWidth 32 <<< 16)

/-- SHAPE[p] as a register word: width in bits [15:0], height in bits [31:16] (R32). -/
def Shape.toWord (sh : Shape) : Word := sh.height ++ sh.width

/-- What a read of a register answers (R23 to R33); no register read has a side effect (R68). -/
def State.readReg (s : State) : Reg → Word
  | .id => 0x47465253#32
  | .version => 0x00010000#32
  | .ctrl => s.ctrlWord
  | .status => s.statusWord
  | .errcode => s.errcodeWord
  | .cmd => s.cmd
  | .result => s.result
  | .param => paramWord s.build
  | .arg0 => s.args.a0
  | .arg1 => s.args.a1
  | .arg2 => s.args.a2
  | .arg3 => s.args.a3
  | .shape0 => s.shape0.toWord
  | .shape1 => s.shape1.toWord

/-- A write to CMD: dropped with BUSYERR while a command is pending, else the acceptance (R100, R226). The acceptance draws how
many host events come before the completion (R105; log 5). -/
def State.writeCmd (s : State) (w : Word) : State :=
  if s.busy then { s with busyErr := true }
  else { s.accept w with delay := Config.latency s.draws, draws := s.draws + 1 }

/-- A write to CTRL: a soft reset if SRST = 1, and nothing else; otherwise IE takes bit 0 (R27). -/
def State.writeCtrl (s : State) (v : Word) : State := if v.getLsbD 1 then s.softReset else { s with ie := v.getLsbD 0 }

/-- A host write to a register; a read-only register ignores it (R22 to R33). -/
def State.writeReg (s : State) (r : Reg) (v : Word) : State :=
  match r with
  | .ctrl => s.writeCtrl v
  | .status => s.writeStatus v
  | .cmd => s.writeCmd v
  | .arg0 => { s with args := { s.args with a0 := v } }
  | .arg1 => { s with args := { s.args with a1 := v } }
  | .arg2 => { s with args := { s.args with a2 := v } }
  | .arg3 => { s with args := { s.args with a3 := v } }
  | .id | .version | .errcode | .result | .param | .shape0 | .shape1 => s

/-- The offset of a register (R22). -/
def regOffset : Reg → Nat
  | .id => 0x000
  | .version => 0x004
  | .ctrl => 0x008
  | .status => 0x00C
  | .errcode => 0x010
  | .cmd => 0x014
  | .result => 0x018
  | .param => 0x01C
  | .arg0 => 0x020
  | .arg1 => 0x024
  | .arg2 => 0x028
  | .arg3 => 0x02C
  | .shape0 => 0x030
  | .shape1 => 0x034

/-- The registers in the order of R22. -/
def allRegs : List Reg :=
  [.id, .version, .ctrl, .status, .errcode, .cmd, .result, .param, .arg0, .arg1, .arg2, .arg3, .shape0, .shape1]

/-- The register at a word-aligned offset of the register block, `none` for a reserved one (R22, R34). -/
def regAt (a : Nat) : Option Reg := allRegs.find? fun r => regOffset r == a

end Sys2Proof.Machine
end

