-- ==== Sys2Proof/Machine/Bus.lean ====
section
/-! DEFINITION. Bus transactions (20_memory.md) and the reset input's events (R220, R221). -/

namespace Sys2Proof.Machine

/-- Where an offset lies (R61). -/
inductive Window where
  | reg (a : Nat)
  | sym (j : Nat)
  | unmapped
  | plane (p : PlaneId) (j : Nat)
deriving DecidableEq, Repr

/-- The offset decode of R61 for a word-aligned offset. -/
def windowOf (a : Nat) : Window :=
  if a < 0x400 then .reg a
  else if a < 0x800 then .sym ((a - 0x400) / 4)
  else if a < 0x10000 then .unmapped
  else if a < 0x18000 then .plane .p0 ((a - 0x10000) / 4)
  else .plane .p1 ((a - 0x18000) / 4)

/-- Whether a transaction gets an OK response: word-aligned, 4 bytes wide, not unmapped (R64, R65, R67). -/
def busLegal (addr : Offset) (size : Size) : Bool :=
  size == .word && addr.toNat % 4 == 0 && windowOf addr.toNat != .unmapped

/-- An ERROR response's effect on the state: BUSERR and nothing else (R67). -/
def State.busError (s : State) : State := { s with busErr := true }

/-- `MemRead(addr, size)`: the state after it and the data (R67 to R70, R227). -/
def State.memRead (s : State) (addr : Offset) (size : Size) : State × Word :=
  if busLegal addr size then
    match windowOf addr.toNat with
    | .reg a =>
      match regAt a with
      | some r => (s, s.readReg r)
      | none => (s, 0#32)
    | .sym j =>
      if s.busy then ({ s with draws := s.draws + 1 }, Config.freeWord s.draws)
      else ({ s with draws := s.draws + 1 }, (s.symbol j s.draws).setWidth 32)
    | .unmapped => (s, 0#32)
    | .plane p j =>
      if s.busy then ({ s with draws := s.draws + 1 }, Config.freeWord s.draws)
      else (s, s.mem.planeWord (s.shape p) p j)
  else (s.busError, 0#32)

/-- A dropped write: BUSYERR and nothing else (R226). -/
def State.dropWrite (s : State) : State := { s with busyErr := true }

/-- `MemWrite(addr, size, v)`: the state after it (R67 to R70, R226). -/
def State.memWrite (s : State) (addr : Offset) (size : Size) (v : Word) : State :=
  if busLegal addr size then
    match windowOf addr.toNat with
    | .reg a =>
      match regAt a with
      | some r => s.writeReg r v
      | none => s
    | .sym j =>
      if s.busy then s.dropWrite
      else { s with mem := s.mem.write (symAddr j) (v.setWidth 8) }
    | .unmapped => s
    | .plane p j =>
      if s.busy then s.dropWrite
      else { s with mem := s.mem.writePlaneWord (s.shape p) p j v }
  else s.busError

/-- The response of a transaction (R60, R67). -/
def busResp (addr : Offset) (size : Size) : Resp := if busLegal addr size then .ok else .error

/-- The offset of STATUS as a transaction's address (R22). -/
def statusAddr : Offset := 0x0000C#17

/-- A read transaction, its data and response put out on the port (R60). -/
def State.readTransaction (s : State) (addr : Offset) (size : Size) : State :=
  { (s.memRead addr size).1 with response := some (.read (s.memRead addr size).2 (busResp addr size)) }

/-- A write transaction, its response put out on the port (R60). -/
def State.writeTransaction (s : State) (addr : Offset) (size : Size) (v : Word) : State :=
  { s.memWrite addr size v with response := some (.write (busResp addr size)) }

/-- One host event, with `rest` the events after it. A transaction while `rst` is asserted is refused (R221; log 9). A WAIT reads
STATUS once, and is done if it shows BUSY = 0; else it stands first again (R95). -/
def State.hostEvent (s : State) (e : HostEvent) (rest : List HostEvent) : Host.Outcome State Fault Refusal :=
  match e with
  | .assertRst => .next { s.hardReset with rst := true, host := rest }
  | .releaseRst => .next { s with rst := false, host := rest }
  | .read addr size =>
    if s.rst then .refused .transactionDuringReset
    else .next { s.readTransaction addr size with host := rest }
  | .write addr size v =>
    if s.rst then .refused .transactionDuringReset
    else .next { s.writeTransaction addr size v with host := rest }
  | .wait =>
    if s.rst then .refused .transactionDuringReset
    else .next { s.readTransaction statusAddr .word with host := if s.busy then .wait :: rest else rest }

/-- Whether the next step is the unit's: a command is pending, and its time has come or no host event is left (R18, R105;
log 5). -/
def State.unitTurn (s : State) : Bool := s.pending.isSome && !s.rst && (s.host.isEmpty || s.delay == 0)

end Sys2Proof.Machine
end

