-- ==== Sys2Proof/Machine/Operands.lean ====
section
/-! DEFINITION. The operand forms: whole 32-bit words of the ARG snapshot read as unsigned integers (R88), with the range checks the
command families share (R118, R151). -/

namespace Sys2Proof.Machine

/-- A check that raises `e` unless `ok` holds, before what follows it. -/
def require (ok : Bool) (e : CmdError) (k : Except CmdError State) : Except CmdError State := if ok then k else .error e

/-- A field operand: a word above 0xFF raises E_OPERAND, its high bits are never discarded (R151). -/
def fieldOperand (v : Word) (k : Byte → Except CmdError State) : Except CmdError State :=
  require (decide (v.toNat ≤ 0xFF)) .operand (k (v.setWidth 8))

/-- The bit `(x, y) = (A[0], A[1])` of plane p for MX.GET, MX.SET and MX.FLIP: E_MX_UNINIT, then E_MX_BOUNDS (R118). -/
def pointOperand (s : State) (p : PlaneId) (A : Args) (k : Nat → Nat → Except CmdError State) : Except CmdError State :=
  require (s.planeInit p) .mxUninit <|
    require (s.inBounds p A.a0.toNat A.a1.toNat) .mxBounds <|
      k A.a0.toNat A.a1.toNat

/-- A field element as a RESULT word (R30). -/
def symbolWord (v : Byte) : Word := v.setWidth 32

/-- A bit as a RESULT word (R120). -/
def bitWord (b : Bool) : Word := bitAt 0 b

end Sys2Proof.Machine
end

