-- ==== Sys2Proof/Machine/Command.lean ====
section
/-! DEFINITION. NOP (40_command.md). -/

namespace Sys2Proof.Machine

/-- NOP: no writes but the completion's (R107). -/
def execNop (s : State) : Host.Outcome State Fault Refusal := s.runCommand fun _ => .ok s

end Sys2Proof.Machine
end

