-- ==== Sys2Proof/Machine/Field.lean ====
section
/-! DEFINITION. The field GF(2^8) of a build: the EXP and LOG tables (R141, R142) and the field operations (R145 to R147). -/

namespace Sys2Proof.Machine

/-- One turn of the linear-feedback loop: multiply the 9-bit shift register by α and reduce (R141). -/
def lfsr (c : Config) (x : BitVec 9) : BitVec 9 := if (x <<< 1).getLsbD 8 then (x <<< 1) ^^^ c.primPoly else x <<< 1

/-- The shift register after `i` turns from 0x001 (R141). -/
def lfsrAfter (c : Config) : Nat → BitVec 9
  | 0 => 1#9
  | i + 1 => lfsr c (lfsrAfter c i)

/-- `EXP[i]` (R141). -/
def fieldExp (c : Config) (i : Nat) : Byte := (lfsrAfter c i).setWidth 8

/-- The first of the `n` indices from `i` on whose exponent is `a`, where `x` is the shift register after `i` turns. -/
def logFrom (c : Config) (a : Byte) : Nat → Nat → BitVec 9 → Option Nat
  | 0, _, _ => none
  | n + 1, i, x => if x.setWidth 8 = a then some i else logFrom c a n (i + 1) (lfsr c x)

/-- `LOG[a]`: the index in 0..254 with `EXP[i] = a` (R142). `LOG[0]` does not exist: no exponent is 0. -/
def fieldLog (c : Config) (a : Byte) : Option Nat := if a = 0#8 then none else logFrom c a 255 0 1#9

/-- `a ⊕ b`, addition and subtraction (R145). -/
def fieldAdd (a b : Byte) : Byte := a ^^^ b

/-- `a ⊗ b` (R146): the guard for 0 comes first, so `LOG[0]` is never read (R150). -/
def fieldMul (c : Config) (a b : Byte) : Byte :=
  if a = 0#8 ∨ b = 0#8 then 0#8
  else
    match fieldLog c a, fieldLog c b with
    | some i, some j => fieldExp c ((i + j) % 255)
    | _, _ => 0#8

/-- `inv(a)`, which fails for 0 (R147). -/
def fieldInv (c : Config) (a : Byte) : Option Byte := (fieldLog c a).map fun i => fieldExp c (255 - i)

/-- `α^m` for any m: every exponent index is reduced modulo 255 (R149, R150). -/
def alphaPow (c : Config) (m : Nat) : Byte := fieldExp c (m % 255)

/-- What R8 assumes of a build's parameters: bit 8 of `PRIM_POLY` is set, `GEN_BASE` is at most 254, and the exponent table over
0..254 holds every nonzero element exactly once. -/
def legalConfig (c : Config) : Bool :=
  c.primPoly.getLsbD 8 && decide (c.genBase.toNat ≤ 254) &&
    decide ((List.range 255).map (fieldExp c)).Nodup && !((List.range 255).map (fieldExp c)).contains 0#8

end Sys2Proof.Machine
end

