-- ==== Sys2Proof/Machine/Gf.lean ====
section
/-! DEFINITION. The Galois-field commands (42_gf.md). -/

namespace Sys2Proof.Machine

/-- GF.ADD, also GF.SUB: RESULT is a ⊕ b (R152). -/
def execGfAdd (s : State) : Host.Outcome State Fault Refusal :=
  s.runCommand fun A =>
    fieldOperand A.a0 fun a => fieldOperand A.a1 fun b => .ok (s.setResult (symbolWord (fieldAdd a b)))

/-- GF.MUL: RESULT is a ⊗ b; a zero operand is no error (R153). -/
def execGfMul (s : State) : Host.Outcome State Fault Refusal :=
  s.runCommand fun A =>
    fieldOperand A.a0 fun a => fieldOperand A.a1 fun b => .ok (s.setResult (symbolWord (fieldMul s.build a b)))

/-- GF.INV: RESULT is inv(a); E_INV_ZERO for 0, the one element without an inverse (R154). -/
def execGfInv (s : State) : Host.Outcome State Fault Refusal :=
  s.runCommand fun A =>
    fieldOperand A.a0 fun a =>
      match fieldInv s.build a with
      | none => .error .invZero
      | some v => .ok (s.setResult (symbolWord v))

/-- GF.EXP: RESULT is EXP[i], with no reduction of i (R155). -/
def execGfExp (s : State) : Host.Outcome State Fault Refusal :=
  s.runCommand fun A => fieldOperand A.a0 fun i => .ok (s.setResult (symbolWord (fieldExp s.build i.toNat)))

/-- GF.LOG: RESULT is LOG[a]; E_LOG_ZERO for 0, the one element without a logarithm (R156). -/
def execGfLog (s : State) : Host.Outcome State Fault Refusal :=
  s.runCommand fun A =>
    fieldOperand A.a0 fun a =>
      match fieldLog s.build a with
      | none => .error .logZero
      | some i => .ok (s.setResult (BitVec.ofNat 32 i))

end Sys2Proof.Machine
end

