-- ==== Sys2Proof/Machine/Mx.lean ====
section
/-! DEFINITION. The bit-matrix commands (41_bitmatrix.md). -/

namespace Sys2Proof.Machine

/-- MX.INIT: a plane of `w` × `h` bits, all 0, or E_MX_SHAPE (R117). -/
def execMxInit (p : PlaneId) (s : State) : Host.Outcome State Fault Refusal :=
  s.runCommand fun A =>
    let w := A.a0.toNat
    let h := A.a1.toNat
    require (w != 0 && h != 0) .mxShape <|
      require (decide (w ≤ Config.maxDim) && decide (h ≤ Config.maxDim)) .mxShape <|
        require (decide ((w + 31) / 32 * h ≤ Config.matWords)) .mxShape <|
          .ok (s.initPlane p w h)

/-- MX.GET: RESULT is the bit, 0 or 1 (R120). -/
def execMxGet (p : PlaneId) (s : State) : Host.Outcome State Fault Refusal :=
  s.runCommand fun A => pointOperand s p A fun x y => .ok (s.setResult (bitWord (s.bit p x y)))

/-- MX.SET: the bit becomes 1 (R122). -/
def execMxSet (p : PlaneId) (s : State) : Host.Outcome State Fault Refusal :=
  s.runCommand fun A => pointOperand s p A fun x y => .ok (s.setBit p x y true)

/-- MX.FLIP: the bit is inverted (R124). -/
def execMxFlip (p : PlaneId) (s : State) : Host.Outcome State Fault Refusal :=
  s.runCommand fun A => pointOperand s p A fun x y => .ok (s.setBit p x y (!s.bit p x y))

/-- The rectangle of MX.FILL (R126). -/
def inRegion (left top w h x y : Nat) : Bool :=
  decide (left ≤ x) && decide (x < left + w) && decide (top ≤ y) && decide (y < top + h)

/-- MX.FILL: every bit of the rectangle becomes 1, no other bit changes; the sums of its checks do not wrap (R126). -/
def execMxFill (p : PlaneId) (s : State) : Host.Outcome State Fault Refusal :=
  s.runCommand fun A =>
    let left := A.a0.toNat
    let top := A.a1.toNat
    let w := A.a2.toNat
    let h := A.a3.toNat
    require (s.planeInit p) .mxUninit <|
      require (w != 0 && h != 0) .mxBounds <|
        require (decide (left + w ≤ (s.shape p).width.toNat) && decide (top + h ≤ (s.shape p).height.toNat)) .mxBounds <|
          .ok (s.mapPlane p p fun x y b _ => inRegion left top w h x y || b)

/-- MX.XOR: plane q XORed into plane p of the same shape (R130). -/
def execMxXor (p q : PlaneId) (s : State) : Host.Outcome State Fault Refusal :=
  s.runCommand fun _ =>
    require (s.planeInit p && s.planeInit q) .mxUninit <|
      require (s.shape p == s.shape q) .mxMismatch <|
        .ok (s.mapPlane p q fun _ _ b m => b ^^ m)

end Sys2Proof.Machine
end

