-- ==== Sys2Proof/Machine/Poly.lean ====
section
/-! DEFINITION. The polynomial primitives of the Reed–Solomon commands (R165 to R167, R169), on coefficient lists, high-degree
first (R14). -/

namespace Sys2Proof.Machine

/-- A polynomial: its coefficients, high-degree first (R14); `[0]` is the zero polynomial. -/
abbrev Poly := List Byte

/-- `trim(P)`: leading zero coefficients removed, one coefficient kept (R165). -/
def trim : Poly → Poly
  | [] => [0#8]
  | [a] => [a]
  | a :: b :: l => if a = 0#8 then trim (b :: l) else a :: b :: l

/-- The degree of a trimmed polynomial other than `[0]` (R14). -/
def degree (P : Poly) : Nat := P.length - 1

/-- `lead(P)` (R14). -/
def lead (P : Poly) : Byte := P.headD 0#8

/-- Coefficient-wise ⊕ of two lists aligned at their constant terms. -/
def addAligned (P Q : Poly) : Poly :=
  List.zipWith fieldAdd (List.replicate (Q.length - P.length) 0#8 ++ P) (List.replicate (P.length - Q.length) 0#8 ++ Q)

/-- `padd(P, Q)` (R166). -/
def padd (P Q : Poly) : Poly := trim (addAligned P Q)

/-- `pscale(P, c)` (R166). -/
def pscale (cfg : Config) (P : Poly) (c : Byte) : Poly := if c = 0#8 then [0#8] else trim (P.map fun p => fieldMul cfg p c)

/-- `pmono(P, d, c)`: multiply by c·x^d (R166). -/
def pmono (cfg : Config) (P : Poly) (d : Nat) (c : Byte) : Poly :=
  if c = 0#8 ∨ P = [0#8] then [0#8] else trim ((P.map fun p => fieldMul cfg p c) ++ List.replicate d 0#8)

/-- The sum over i of `P[i]·Q` shifted to P[i]'s degree, so coefficient i + j of it is the ⊕ of all `P[i] ⊗ Q[j]` (R166). -/
def mulRaw (cfg : Config) : Poly → Poly → Poly
  | [], _ => []
  | p :: P, Q => addAligned ((Q.map fun q => fieldMul cfg p q) ++ List.replicate P.length 0#8) (mulRaw cfg P Q)

/-- `pmul(P, Q)` (R166). -/
def pmul (cfg : Config) (P Q : Poly) : Poly := if P = [0#8] ∨ Q = [0#8] then [0#8] else trim (mulRaw cfg P Q)

/-- The loop of `pdivmod` with `s = inv(lead(D))`; each turn shortens `R`, so `fuel = R.length` turns are enough (R166). -/
def divLoop (cfg : Config) (D : Poly) (s : Byte) : Nat → Poly → Poly → Poly × Poly
  | 0, Q, R => (Q, R)
  | fuel + 1, Q, R =>
    if R ≠ [0#8] ∧ degree D ≤ degree R then
      let t := fieldMul cfg (lead R) s
      let e := degree R - degree D
      divLoop cfg D s fuel (padd Q (pmono cfg [1#8] e t)) (padd R (pmono cfg D e t))
    else (Q, R)

/-- `pdivmod(A, D)` for `D ≠ [0]` (R166). Its callers pass a monic `D`, so `inv(lead(D))` is 1 and never fails. -/
def pdivmod (cfg : Config) (A D : Poly) : Poly × Poly :=
  divLoop cfg D ((fieldInv cfg (lead D)).getD 0#8) (trim A).length [0#8] (trim A)

/-- The generator polynomial of degree `n` (R167): each factor is x − α^(b+i) = x + α^(b+i). It is computed from its definition:
a model keeps no cache of generators (R42). -/
def gen (cfg : Config) : Nat → Poly
  | 0 => [1#8]
  | n + 1 => pmul cfg (gen cfg n) [1#8, alphaPow cfg (cfg.genBase.toNat + n)]

/-- `R` padded with zeros on the left to `n` coefficients (R175). -/
def padLeft (n : Nat) (R : Poly) : List Byte := List.replicate (n - R.length) 0#8 ++ R

/-- The parity symbols of a message: the remainder of m·x^n by gen(n), left zero-padded to `n` symbols (R175). -/
def parity (cfg : Config) (m : List Byte) (n : Nat) : List Byte :=
  padLeft n (pdivmod cfg (pmono cfg (trim m) n 1#8) (gen cfg n)).2

/-- One turn of the shift-register form for the message symbol `a` (R169), with `g` = G[1..n]. -/
def shiftTurn (cfg : Config) (g : List Byte) (reg : List Byte) (a : Byte) : List Byte :=
  let f := fieldAdd a (reg.headD 0#8)
  List.zipWith (fun r c => fieldAdd r (fieldMul cfg c f)) (reg.tail ++ [0#8]) g

/-- The shift-register form of the parity (R169). -/
def shiftParity (cfg : Config) (m : List Byte) (n : Nat) : List Byte :=
  m.foldl (shiftTurn cfg (gen cfg n).tail) (List.replicate n 0#8)

/-- The value of a polynomial at `x`, by Horner's rule: what R178 calls C(x). -/
def evalPoly (cfg : Config) (P : Poly) (x : Byte) : Byte := P.foldl (fun acc a => fieldAdd (fieldMul cfg acc x) a) 0#8

end Sys2Proof.Machine
end

