-- ==== Sys2Proof/Machine/Rs.lean ====
section
/-! DEFINITION. The Reed–Solomon commands (43_rs.md). -/

namespace Sys2Proof.Machine

/-- RS.ENC: the parity of SYM[base .. base+k-1] written to the `n` entries after it (R175). The read of the `k` message symbols
counts `k` draws (log 2). -/
def execRsEnc (s : State) : Host.Outcome State Fault Refusal :=
  s.runCommand fun A =>
    let k := A.a0.toNat
    let n := A.a1.toNat
    let base := A.a2.toNat
    require (k != 0) .rsNoData <|
      require (n != 0) .rsNoEc <|
        require (decide (n ≤ Config.fieldSize)) .rsEcTooLarge <|
          require (decide (base + k + n ≤ Config.symDepth)) .rsRange <|
            .ok { s.writeSyms (base + k) (parity s.build (s.message base k) n) with draws := s.draws + k }

/-- RS.GEN: the coefficients of gen(n), high-degree first, written from SYM[base] on (R177). -/
def execRsGen (s : State) : Host.Outcome State Fault Refusal :=
  s.runCommand fun A =>
    let n := A.a1.toNat
    let base := A.a2.toNat
    require (n != 0) .rsNoEc <|
      require (decide (n ≤ Config.fieldSize)) .rsEcTooLarge <|
        require (decide (base + n + 1 ≤ Config.symDepth)) .rsRange <|
          .ok (s.writeSyms base (gen s.build n))

end Sys2Proof.Machine
end

