-- ==== Sys2Proof/Machine/Dispatch.lean ====
section
/-! DEFINITION. The unit's step for a decoded command: one arm per row of R87. -/

namespace Sys2Proof.Machine

/-- `execute` and the completion of a decoded command (R102, R103). -/
def exec (i : Instr) (s : State) : Host.Outcome State Fault Refusal :=
  match i with
  | .nop => Sys2Proof.Machine.execNop s
  | .gfAdd => Sys2Proof.Machine.execGfAdd s
  | .gfMul => Sys2Proof.Machine.execGfMul s
  | .gfInv => Sys2Proof.Machine.execGfInv s
  | .gfExp => Sys2Proof.Machine.execGfExp s
  | .gfLog => Sys2Proof.Machine.execGfLog s
  | .rsEnc => Sys2Proof.Machine.execRsEnc s
  | .rsGen => Sys2Proof.Machine.execRsGen s
  | .mxInit p => Sys2Proof.Machine.execMxInit p s
  | .mxGet p => Sys2Proof.Machine.execMxGet p s
  | .mxSet p => Sys2Proof.Machine.execMxSet p s
  | .mxFlip p => Sys2Proof.Machine.execMxFlip p s
  | .mxFill p => Sys2Proof.Machine.execMxFill p s
  | .mxXor p q => Sys2Proof.Machine.execMxXor p q s

end Sys2Proof.Machine
end

