-- ==== Sys2Proof/Machine/Unit.lean ====
section
/-! DEFINITION. The unit's completion step (R102, R103) and the two agents' turns (R18). -/

namespace Sys2Proof.Machine

/-- `step_unit` for the pending command `c`: decode its word; a word that is no command completes with its error (R102, R103). -/
def State.unitStep (s : State) (c : Command) : Host.Outcome State Fault Refusal :=
  match decode c.word with
  | .ok i => exec i s
  | .error e => .next (s.completeErr e)

/-- The host's turn: its next event, which brings a pending command one event nearer to its completion; with no event left
nothing happens (R18, R105; logs 5 and 15). -/
def State.hostTurn (s : State) : Host.Outcome State Fault Refusal :=
  match s.host with
  | [] => .next s
  | e :: rest => ({ s with delay := s.delay - 1 } : State).hostEvent e rest

/-- One event of the total order of R75: the unit's completion, or a host event. -/
def State.turn (s : State) : Host.Outcome State Fault Refusal :=
  match s.pending with
  | none => s.hostTurn
  | some c => if s.unitTurn then s.unitStep c else s.hostTurn

/-- The command word `w` accepted and due to complete in the very next step (log 7). -/
def State.placeCommand (s : State) (w : Word) : State := { s.accept w with delay := 0, rst := false }

end Sys2Proof.Machine
end

