-- ==== Sys2Proof/Machine/Step.lean ====
section
/-! DEFINITION. One step of the machine. -/

namespace Sys2Proof.Machine

/-- One event of the unit's run (R18, R75). -/
def step (s : State) : Host.Outcome State Fault Refusal := s.turn

/-- `s` with the command word `w` of the opcode table in the command latch, where the unit's step takes its next command, so
that the very next step decodes and runs it (R102; log 7). -/
def State.withFetchWord (s : State) (nbits w : Nat) : State := s.placeCommand (tableWord nbits w)

end Sys2Proof.Machine
end

