-- ==== Sys2Proof/Machine/Assembler.lean ====
section
/-! DEFINITION. The expansion of a host program's lines into host events (R93 to R96). -/

namespace Sys2Proof.Machine

/-- `WR`: a word write to a register (R93). -/
def wrReg (r : Reg) (v : Word) : HostEvent := .write (BitVec.ofNat 17 (regOffset r)) .word v

/-- The CMD write that issues the command `i` (R94). -/
def issue (i : Instr) : HostEvent := wrReg .cmd (encode i)

/-- ARG writes of a one-operand mnemonic: ARG0 (R94). -/
def argWrites1 : Option Word → List HostEvent
  | none => []
  | some a => [wrReg .arg0 a]

/-- ARG writes of a two-operand mnemonic: ARG0, ARG1 (R94). -/
def argWrites2 : Option (Word × Word) → List HostEvent
  | none => []
  | some (a, b) => [wrReg .arg0 a, wrReg .arg1 b]

/-- The plane a plane number names; the assembler rejects any other number (R94). -/
def planeOfNat : Nat → Option PlaneId
  | 0 => some .p0
  | 1 => some .p1
  | _ => none

/-- A line of a command with a plane operand (R94). -/
def planeLine (p : Nat) (args : List HostEvent) (i : PlaneId → Instr) : Option (List HostEvent) :=
  (planeOfNat p).map fun p => args ++ [issue (i p)]

/-- A plane-window transaction's address (R93). -/
def planeAddr (p : PlaneId) (j : Nat) : Offset := BitVec.ofNat 17 (planeBase p + 4 * j)

/-- The expansion of one line, `none` for a line the assembler rejects (R93, R94). -/
def expandLine : AsmLine → Option (List HostEvent)
  | .wr r v => some [wrReg r v]
  | .rd r => some [.read (BitVec.ofNat 17 (regOffset r)) .word]
  | .symw j v => if j < Config.symDepth then some [.write (BitVec.ofNat 17 (symAddr j)) .word v] else none
  | .symr j => if j < Config.symDepth then some [.read (BitVec.ofNat 17 (symAddr j)) .word] else none
  | .plw p j v =>
    if j < Config.matWords then (planeOfNat p).map fun p => [.write (planeAddr p j) .word v] else none
  | .plr p j =>
    if j < Config.matWords then (planeOfNat p).map fun p => [.read (planeAddr p j) .word] else none
  | .wait => some [.wait]
  | .cmd w => some [wrReg .cmd w]
  | .nop => some [issue .nop]
  | .gfAdd ops => some (argWrites2 ops ++ [issue .gfAdd])
  | .gfSub ops => some (argWrites2 ops ++ [issue .gfAdd])
  | .gfMul ops => some (argWrites2 ops ++ [issue .gfMul])
  | .gfInv op => some (argWrites1 op ++ [issue .gfInv])
  | .gfExp op => some (argWrites1 op ++ [issue .gfExp])
  | .gfLog op => some (argWrites1 op ++ [issue .gfLog])
  | .rsEnc none => some [issue .rsEnc]
  | .rsEnc (some (k, n, base)) => some [wrReg .arg0 k, wrReg .arg1 n, wrReg .arg2 base, issue .rsEnc]
  | .rsGen none => some [issue .rsGen]
  | .rsGen (some (n, base)) => some [wrReg .arg1 n, wrReg .arg2 base, issue .rsGen]
  | .mxInit p ops => planeLine p (argWrites2 ops) .mxInit
  | .mxGet p ops => planeLine p (argWrites2 ops) .mxGet
  | .mxSet p ops => planeLine p (argWrites2 ops) .mxSet
  | .mxFlip p ops => planeLine p (argWrites2 ops) .mxFlip
  | .mxFill p none => planeLine p [] .mxFill
  | .mxFill p (some (l, t, w, h)) =>
    planeLine p [wrReg .arg0 l, wrReg .arg1 t, wrReg .arg2 w, wrReg .arg3 h] .mxFill
  | .mxXor p q =>
    match planeOfNat p, planeOfNat q with
    | some p, some q => some [issue (.mxXor p q)]
    | _, _ => none

/-- The host events of a program, `none` if the assembler rejects a line. The events hold offsets alone, so a program is
position-independent (R96). -/
def assemble : List AsmLine → Option (List HostEvent)
  | [] => some []
  | l :: ls =>
    match expandLine l, assemble ls with
    | some a, some b => some (a ++ b)
    | _, _ => none

/-- `s` with the events of an assembled program as what the host does next (log 6). -/
def State.withProgram (s : State) (events : List HostEvent) : State := { s with host := events }

/-- Where the host's address map places an offset of the unit (R73, R96; log 14). -/
def hostAddress (addr : Offset) : Nat := Config.unitBase + addr.toNat

end Sys2Proof.Machine
end

