-- ==== Sys2Proof/Safety.lean ====
section
/-! DEFINITION. What counts as a safe run, and the invariants the spec gives the unit's state. -/

namespace Sys2Proof.Machine

/-- A shape MX.INIT can leave: uninitialised, or at least 1 × 1 and within the storage (R32, R117). -/
def Shape.legal (sh : Shape) : Bool :=
  sh == Shape.none ||
    (sh.width != 0#16 && sh.height != 0#16 && decide (sh.rowWords * sh.height.toNat ≤ Config.matWords))

/-- The plane invariant: every storage bit of plane p outside its shape is 0 (R39). -/
def Memory.planeClean (m : Memory) (sh : Shape) (p : PlaneId) : Prop :=
  ∀ i, i < 8 * planeBytes → m.planeBit p i = true → sh.columnOf i < sh.width.toNat ∧ sh.rowOf i < sh.height.toNat

/-- The invariant of the unit's state. -/
structure State.Inv (s : State) : Prop where
  /-- The build is one R8 allows: PRIM_POLY is primitive, GEN_BASE is at most 254. -/
  buildLegal : legalConfig s.build = true
  /-- Storage is in its canonical form (log 12). -/
  memWf : s.mem.wf = true
  /-- Each plane is uninitialised or has a legal shape (R32). -/
  shapesLegal : ∀ p, (s.shape p).legal = true
  /-- Nothing is set outside a plane's shape (R39). -/
  planesClean : ∀ p, s.mem.planeClean (s.shape p) p
  /-- While a command is pending, CMD holds its word (R29) and DONE, ERR and ERRCODE are 0 (R100). -/
  latch : ∀ c, s.pending = some c → s.cmd = c.word ∧ s.done = false ∧ s.err = false ∧ s.errcode = none
  /-- ERR comes with a nonzero ERRCODE (R28, R102). -/
  errHasCode : s.err = true → s.errcode ≠ none
  /-- RESULT is a zero-extended field element, logarithm or bit (R30). -/
  resultByte : s.result.toNat < 256
  /-- No command is pending while `rst` is asserted (R220). -/
  rstIdle : s.rst = true → s.pending = none

/-- A step that is safe: the machine goes on. -/
def State.goesOn (s : State) : Prop := ∃ t, step s = .next t

/-- A run of `n` steps from `s` that never stops. -/
def State.safeFor : Nat → State → Prop
  | 0, _ => True
  | n + 1, s => ∃ t, step s = .next t ∧ State.safeFor n t

/-- Whether the host's next event is a bus transaction (a WAIT is a read of STATUS, R95). -/
def HostEvent.isTransaction : HostEvent → Bool
  | .read _ _ | .write _ _ _ | .wait => true
  | .assertRst | .releaseRst => false

end Sys2Proof.Machine
end

