-- ==== Sys2Proof/Certificates/Slice0/Obligations.lean ====
section
/-! DEFINITION. The statements for the provers. In each statement about a command, `c` is the command in the latch and `c.args` its
ARG snapshot; in each statement about a host event, `s.unitTurn = false` says that the next step is the host's (log 5), and the
model's own count of coming host events goes down by one. -/

open Sys2Proof Sys2Proof.Machine

/-! ### Encoding (30_encoding.md) -/

/-- R91, R92: every word is an assigned command with legal fields, E_OPCODE or E_RESERVED, with E_OPCODE first. -/
def Obligations.DecodingIsTotalInThreeClasses : Prop :=
  ∀ w : Word,
    let op := w.toNat % 256
    let assigned := op = 0x00 ∨ (0x10 ≤ op ∧ op ≤ 0x14) ∨ op = 0x20 ∨ op = 0x21 ∨ (0x30 ≤ op ∧ op ≤ 0x35)
    let illegal := w.toNat / 1024 ≠ 0 ∨ (w.getLsbD 8 = true ∧ ¬ (0x30 ≤ op ∧ op ≤ 0x35)) ∨ (w.getLsbD 9 = true ∧ op ≠ 0x35)
    (¬ assigned → decode w = .error .opcode) ∧
      (assigned → illegal → decode w = .error .reserved) ∧
      (assigned → ¬ illegal → ∃ i, decode w = .ok i ∧ encode i = w)

/-- R85, R87: the words that decode to a command are exactly its encoding; no bit of a word is dropped. -/
def Obligations.DecodeInvertsEncode : Prop := ∀ (w : Word) (i : Instr), decode w = .ok i ↔ encode i = w

/-- R87, R90, R92: words written out from the opcode map. -/
def Obligations.SpecWordsDecode : Prop :=
  decode 0x00000000#32 = .ok .nop ∧ decode 0x00000010#32 = .ok .gfAdd ∧ decode 0x00000014#32 = .ok .gfLog ∧
    decode 0x00000020#32 = .ok .rsEnc ∧ decode 0x00000021#32 = .ok .rsGen ∧ decode 0x00000130#32 = .ok (.mxInit .p1) ∧
    decode 0x00000034#32 = .ok (.mxFill .p0) ∧ decode 0x00000135#32 = .ok (.mxXor .p1 .p0) ∧
    decode 0x00000235#32 = .ok (.mxXor .p0 .p1) ∧ decode 0x00000100#32 = .error .reserved ∧
    decode 0x00010036#32 = .error .opcode ∧ decode 0x80000035#32 = .error .reserved

/-- R85, R87, R90: the decoder accepts exactly the words whose raw fields are well-formed. -/
def Obligations.LegalWordsAreTheWellFormedOnes : Prop :=
  ∀ w : Word, (∃ i, decode w = .ok i) ↔ (Fields.ofWord w).wellFormed = true

/-- R94: the mnemonics expand to ARG writes in ARG order, then one CMD write; GF.SUB is GF.ADD. -/
def Obligations.MnemonicsExpandToRegisterWrites : Prop :=
  ∀ a b c d : Word,
    let wr (off : Offset) (v : Word) : HostEvent := .write off .word v
    expandLine .nop = some [wr 0x014 0x00] ∧
      expandLine (.gfAdd (some (a, b))) = some [wr 0x020 a, wr 0x024 b, wr 0x014 0x10] ∧
      expandLine (.gfSub (some (a, b))) = some [wr 0x020 a, wr 0x024 b, wr 0x014 0x10] ∧
      expandLine (.gfMul (some (a, b))) = some [wr 0x020 a, wr 0x024 b, wr 0x014 0x11] ∧
      expandLine (.gfInv (some a)) = some [wr 0x020 a, wr 0x014 0x12] ∧
      expandLine (.gfExp (some a)) = some [wr 0x020 a, wr 0x014 0x13] ∧
      expandLine (.gfLog (some a)) = some [wr 0x020 a, wr 0x014 0x14] ∧
      expandLine (.rsEnc (some (a, b, c))) = some [wr 0x020 a, wr 0x024 b, wr 0x028 c, wr 0x014 0x20] ∧
      expandLine (.rsGen (some (a, b))) = some [wr 0x024 a, wr 0x028 b, wr 0x014 0x21] ∧
      expandLine (.gfInv none) = some [wr 0x014 0x12] ∧
      (∀ p, p = 0 ∨ p = 1 →
        expandLine (.mxInit p (some (a, b))) = some [wr 0x020 a, wr 0x024 b, wr 0x014 (0x30 + 256 * BitVec.ofNat 32 p)] ∧
        expandLine (.mxGet p (some (a, b))) = some [wr 0x020 a, wr 0x024 b, wr 0x014 (0x31 + 256 * BitVec.ofNat 32 p)] ∧
        expandLine (.mxSet p (some (a, b))) = some [wr 0x020 a, wr 0x024 b, wr 0x014 (0x32 + 256 * BitVec.ofNat 32 p)] ∧
        expandLine (.mxFlip p (some (a, b))) = some [wr 0x020 a, wr 0x024 b, wr 0x014 (0x33 + 256 * BitVec.ofNat 32 p)] ∧
        expandLine (.mxFill p (some (a, b, c, d))) =
          some [wr 0x020 a, wr 0x024 b, wr 0x028 c, wr 0x02C d, wr 0x014 (0x34 + 256 * BitVec.ofNat 32 p)] ∧
        ∀ q, q = 0 ∨ q = 1 →
          expandLine (.mxXor p q) = some [wr 0x014 (0x35 + 256 * BitVec.ofNat 32 p + 512 * BitVec.ofNat 32 q)]) ∧
      (∀ p, 2 ≤ p → expandLine (.mxInit p (some (a, b))) = none ∧ expandLine (.mxXor p 0) = none ∧
        expandLine (.mxXor 0 p) = none)

/-! ### Issue and completion (40_command.md) -/

/-- R102, R103: at the unit's turn the step runs the command its word decodes to; a word that is no command completes with its
error and no other effect. -/
def Obligations.StepRunsTheDecodedCommand : Prop :=
  ∀ (s : State) (c : Command), s.pending = some c → s.rst = false → (s.host = [] ∨ s.delay = 0) →
    (∀ i, decode c.word = .ok i → step s = exec i s) ∧
      (∀ e, decode c.word = .error e →
        step s = .next { s with pending := none, done := true, err := true, errcode := some e })

/-- R102 (log 7): a word of the opcode table, placed where the unit takes its next command, is what the next step runs. -/
def Obligations.PlacedWordIsRunNext : Prop :=
  ∀ (s : State) (nbits w : Nat) (i : Instr), decodeTableWord nbits w = some i →
    step (s.withFetchWord nbits w) = exec i (s.withFetchWord nbits w)

/-- R89, R90, R104: at the unit's turn, a word with an unassigned OP completes with E_OPCODE, and one with an assigned OP and RSV
not 0, P set without a plane operand or Q set outside MX.XOR with E_RESERVED, and nothing else happens. When the turn comes is
the model's scheduling (log 5). -/
def Obligations.IllegalWordsCompleteWithTheirError : Prop :=
  ∀ (s : State) (c : Command), s.pending = some c → s.rst = false → (s.host = [] ∨ s.delay = 0) →
    let op := c.word.toNat % 256
    let assigned := op = 0x00 ∨ (0x10 ≤ op ∧ op ≤ 0x14) ∨ op = 0x20 ∨ op = 0x21 ∨ (0x30 ≤ op ∧ op ≤ 0x35)
    let illegal := c.word.toNat / 1024 ≠ 0 ∨ (c.word.getLsbD 8 = true ∧ ¬ (0x30 ≤ op ∧ op ≤ 0x35)) ∨
      (c.word.getLsbD 9 = true ∧ op ≠ 0x35)
    (¬ assigned → step s = .next { s with pending := none, done := true, err := true, errcode := some .opcode }) ∧
      (assigned → illegal →
        step s = .next { s with pending := none, done := true, err := true, errcode := some .reserved })

/-- R100, R101: a CMD write is accepted, whatever its word, unless a command is pending: then it is dropped. How many host events
come before the completion is left open. -/
def Obligations.CmdWriteIsAcceptedOrDropped : Prop :=
  ∀ (s : State) (w : Word) (rest : List HostEvent), s.rst = false → s.unitTurn = false →
    s.host = .write 0x014 .word w :: rest →
    (s.pending = none → ∃ n d, step s = .next { s with
      cmd := w, pending := some { word := w, args := s.args }, done := false, err := false, errcode := none,
      host := rest, response := some (.write .ok), draws := n, delay := d }) ∧
      (s.pending ≠ none → step s = .next { s with
        busyErr := true, host := rest, response := some (.write .ok), delay := s.delay - 1 })

/-- R101, R79: what a command does depends on its snapshot alone; later ARG values are carried through unchanged. -/
def Obligations.CommandReadsOnlyItsSnapshot : Prop :=
  ∀ (i : Instr) (s t : State) (A : Args), exec i s = .next t → exec i { s with args := A } = .next { t with args := A }

/-- R104: a command that completes with an error writes STATUS.ERR, STATUS.DONE, STATUS.BUSY and ERRCODE, and nothing else. -/
def Obligations.FailedCommandWritesNothingElse : Prop :=
  ∀ (i : Instr) (s t : State), s.err = false → exec i s = .next t → t.err = true →
    ∃ e, t = { s with pending := none, done := true, err := true, errcode := some e }

/-- R102 (log 10): the unit's step is enabled exactly if a command is pending, and then it completes it. -/
def Obligations.CommandCompletesIfPending : Prop :=
  ∀ (i : Instr) (s : State),
    (s.pending = none → exec i s = .fault .noCommand) ∧
      (s.pending ≠ none → ∃ t, exec i s = .next t ∧ t.pending = none ∧ t.done = true)

/-- R81: a command reaches no storage but its own: by family, which bytes, shapes and registers stay. -/
def Obligations.CommandsReachOnlyTheirStorage : Prop :=
  ∀ (i : Instr) (s t : State), s.mem.wf = true → (∀ p, (s.shape p).legal = true) → exec i s = .next t →
    (t.build = s.build ∧ t.ie = s.ie ∧ t.busyErr = s.busyErr ∧ t.busErr = s.busErr ∧ t.cmd = s.cmd ∧ t.args = s.args ∧ t.rst = s.rst ∧
      t.host = s.host ∧ t.delay = s.delay ∧ t.response = s.response) ∧
    (i = .nop → t.result = s.result ∧ t.mem = s.mem ∧ t.shape0 = s.shape0 ∧ t.shape1 = s.shape1) ∧
    (i = .gfAdd ∨ i = .gfMul ∨ i = .gfInv ∨ i = .gfExp ∨ i = .gfLog ∨ (∃ p, i = .mxGet p) →
      t.mem = s.mem ∧ t.shape0 = s.shape0 ∧ t.shape1 = s.shape1) ∧
    (i = .rsEnc ∨ i = .rsGen →
      t.result = s.result ∧ t.shape0 = s.shape0 ∧ t.shape1 = s.shape1 ∧
        ∀ a, isSymCell a = false → t.mem.byteAt a = s.mem.byteAt a) ∧
    (∀ p, i = .mxInit p →
      t.result = s.result ∧ (∀ q, q ≠ p → t.shape q = s.shape q) ∧
        ∀ a, ¬ (planeBase p ≤ a ∧ a < planeBase p + 0x8000) → t.mem.byteAt a = s.mem.byteAt a) ∧
    (∀ p q, i = .mxSet p ∨ i = .mxFlip p ∨ i = .mxFill p ∨ i = .mxXor p q →
      t.result = s.result ∧ t.shape0 = s.shape0 ∧ t.shape1 = s.shape1 ∧
        ∀ a, ¬ (planeBase p ≤ a ∧ a < planeBase p + 0x8000) → t.mem.byteAt a = s.mem.byteAt a)

/-- R107: NOP completes, with no writes but the completion's. -/
def Obligations.NopOnlyCompletes : Prop :=
  ∀ (s : State) (c : Command), s.pending = some c → exec .nop s = .next { s with pending := none, done := true }

/-! ### Galois-field commands (42_gf.md) -/

/-- R152, R151: GF.ADD (word 0x10) gives a XOR b; an operand above 0xFF raises E_OPERAND. -/
def Obligations.GfAddIsXor : Prop :=
  decode 0x00000010#32 = .ok .gfAdd ∧ ∀ (s : State) (c : Command), s.pending = some c →
    (c.args.a0.toNat ≤ 0xFF → c.args.a1.toNat ≤ 0xFF →
      exec .gfAdd s = .next { s with result := c.args.a0 ^^^ c.args.a1, pending := none, done := true }) ∧
    (0xFF < c.args.a0.toNat ∨ 0xFF < c.args.a1.toNat →
      exec .gfAdd s = .next { s with pending := none, done := true, err := true, errcode := some .operand })

/-- R153, R146: GF.MUL (word 0x11) gives 0 if an operand is 0, else EXP of the sum of the logarithms modulo 255, for every build R8
allows; an operand above 0xFF raises E_OPERAND. -/
def Obligations.GfMulAddsLogarithms : Prop :=
  decode 0x00000011#32 = .ok .gfMul ∧ ∀ (s : State) (c : Command), s.pending = some c →
    (legalConfig s.build = true → c.args.a0.toNat ≤ 0xFF → c.args.a1.toNat ≤ 0xFF →
      ∃ r : Byte, exec .gfMul s = .next { s with result := r.setWidth 32, pending := none, done := true } ∧
        (c.args.a0 = 0 ∨ c.args.a1 = 0 → r = 0) ∧
        ∀ i j, i ≤ 254 → j ≤ 254 → c.args.a0 = (fieldExp s.build i).setWidth 32 →
          c.args.a1 = (fieldExp s.build j).setWidth 32 → r = fieldExp s.build ((i + j) % 255)) ∧
    (0xFF < c.args.a0.toNat ∨ 0xFF < c.args.a1.toNat →
      exec .gfMul s = .next { s with pending := none, done := true, err := true, errcode := some .operand })

/-- R154, R147: GF.INV (word 0x12) gives the element whose product with a is 1, EXP[255 - LOG[a]], for every build R8 allows; 0
raises E_INV_ZERO, an operand above 0xFF E_OPERAND. -/
def Obligations.GfInvGivesTheInverse : Prop :=
  decode 0x00000012#32 = .ok .gfInv ∧ ∀ (s : State) (c : Command), s.pending = some c →
    (legalConfig s.build = true → c.args.a0 ≠ 0 → c.args.a0.toNat ≤ 0xFF →
      ∃ r : Byte, exec .gfInv s = .next { s with result := r.setWidth 32, pending := none, done := true } ∧
        fieldMul s.build (c.args.a0.setWidth 8) r = 1 ∧
        ∀ i, i ≤ 254 → c.args.a0 = (fieldExp s.build i).setWidth 32 → r = fieldExp s.build (255 - i)) ∧
    (c.args.a0 = 0 → exec .gfInv s = .next { s with pending := none, done := true, err := true, errcode := some .invZero }) ∧
    (0xFF < c.args.a0.toNat →
      exec .gfInv s = .next { s with pending := none, done := true, err := true, errcode := some .operand })

/-- R155: GF.EXP (word 0x13) gives EXP[i] for i in 0..255; an index above 0xFF is not reduced, it raises E_OPERAND. -/
def Obligations.GfExpLooksUpTheTable : Prop :=
  decode 0x00000013#32 = .ok .gfExp ∧ ∀ (s : State) (c : Command), s.pending = some c →
    (c.args.a0.toNat ≤ 0xFF →
      exec .gfExp s = .next { s with
        result := (fieldExp s.build c.args.a0.toNat).setWidth 32, pending := none, done := true }) ∧
    (0xFF < c.args.a0.toNat →
      exec .gfExp s = .next { s with pending := none, done := true, err := true, errcode := some .operand })

/-- R156, R142: GF.LOG (word 0x14) gives the one i in 0..254 with EXP[i] = a, for every build R8 allows; 0 raises E_LOG_ZERO, an
operand above 0xFF E_OPERAND. -/
def Obligations.GfLogInvertsTheExponent : Prop :=
  decode 0x00000014#32 = .ok .gfLog ∧ ∀ (s : State) (c : Command), s.pending = some c →
    (legalConfig s.build = true → c.args.a0 ≠ 0 → c.args.a0.toNat ≤ 0xFF →
      ∃ i, i ≤ 254 ∧ (fieldExp s.build i).setWidth 32 = c.args.a0 ∧
        (∀ j, j ≤ 254 → (fieldExp s.build j).setWidth 32 = c.args.a0 → j = i) ∧
        exec .gfLog s = .next { s with result := BitVec.ofNat 32 i, pending := none, done := true }) ∧
    (c.args.a0 = 0 → exec .gfLog s = .next { s with pending := none, done := true, err := true, errcode := some .logZero }) ∧
    (0xFF < c.args.a0.toNat →
      exec .gfLog s = .next { s with pending := none, done := true, err := true, errcode := some .operand })

/-- R141: EXP[0] = 1, and each entry is the one before it times α, reduced by PRIM_POLY when the register's bit 8 is set; for the
instance, by 0x11D. -/
def Obligations.ExpTableIsTheShiftRegister : Prop :=
  Config.unit.primPoly = 0x11D ∧ ∀ cfg : Config, cfg.primPoly.getLsbD 8 = true →
    fieldExp cfg 0 = 1 ∧
      ∀ i, fieldExp cfg (i + 1) =
        (if (fieldExp cfg i).getLsbD 7 then (fieldExp cfg i <<< 1) ^^^ cfg.primPoly.setWidth 8 else fieldExp cfg i <<< 1)

/-- R149: the field laws, for the instance and every other build R8 allows. -/
def Obligations.FieldLawsHold : Prop :=
  legalConfig Config.unit = true ∧ ∀ cfg : Config, legalConfig cfg = true →
    (∀ a b : Byte, fieldAdd a b = fieldAdd b a ∧ fieldMul cfg a b = fieldMul cfg b a) ∧
    (∀ a b c : Byte, fieldAdd (fieldAdd a b) c = fieldAdd a (fieldAdd b c) ∧
      fieldMul cfg (fieldMul cfg a b) c = fieldMul cfg a (fieldMul cfg b c) ∧
      fieldMul cfg a (fieldAdd b c) = fieldAdd (fieldMul cfg a b) (fieldMul cfg a c)) ∧
    (∀ a : Byte, fieldMul cfg a 1 = a ∧ fieldMul cfg a 0 = 0) ∧
    (∀ a : Byte, a ≠ 0 → ∃ v, fieldInv cfg a = some v ∧ fieldMul cfg a v = 1) ∧
    (∀ i j, i ≤ 254 → j ≤ 254 → fieldExp cfg ((i + j) % 255) = fieldMul cfg (fieldExp cfg i) (fieldExp cfg j)) ∧
    (∀ m : Nat, (fieldMul cfg 0x02)^[m] 1 = fieldExp cfg (m % 255))

/-- R146: the product is the carry-less product of a and b reduced modulo PRIM_POLY, x^8 + x^4 + x^3 + x^2 + 1 for the instance, for
every build R8 allows: the sum over b's bits i of a·x^i, each multiplication by x reduced as it is made. -/
def Obligations.ProductIsTheReducedCarrylessProduct : Prop :=
  Config.unit.primPoly = 0b100011101 ∧ ∀ cfg : Config, legalConfig cfg = true → ∀ a b : Byte,
    let timesX (v : Byte) : Byte := if v.getLsbD 7 then (v <<< 1) ^^^ cfg.primPoly.setWidth 8 else v <<< 1
    fieldMul cfg a b =
      (List.range 8).foldl (fun acc i => if b.getLsbD i then acc ^^^ timesX^[i] a else acc) 0

/-! ### Reed–Solomon commands (43_rs.md) -/

/-- R175, for every build R8 allows: RS.ENC writes to SYM[base+k+j] the coefficient of x^(n-1-j) of the remainder of m·x^n by gen(n), left zero-padded, and
no other byte. A message entry that holds no value gives a free value, counted from `s.draws` on (log 2). -/
def Obligations.RsEncWritesTheRemainder : Prop :=
  ∀ (s : State) (c : Command), s.pending = some c → s.mem.wf = true → legalConfig s.build = true →
    let k := c.args.a0.toNat
    let n := c.args.a1.toNat
    let base := c.args.a2.toNat
    let m := (List.range k).map fun i => (s.mem.byteAt (symAddr (base + i))).getD (Config.freeByte (s.draws + i))
    let R := (pdivmod s.build (pmono s.build (trim m) n 1) (gen s.build n)).2
    k ≠ 0 → n ≠ 0 → n ≤ 256 → base + k + n ≤ 256 →
    1 ≤ R.length ∧ R.length ≤ n ∧
      ∃ mem', exec .rsEnc s = .next { s with mem := mem', draws := s.draws + k, pending := none, done := true } ∧
        (∀ j, j < n - R.length → mem'.byteAt (symAddr (base + k + j)) = some 0) ∧
        (∀ j, n - R.length ≤ j → j < n → mem'.byteAt (symAddr (base + k + j)) = R[j - (n - R.length)]?) ∧
        ∀ a, (∀ j, j < n → a ≠ symAddr (base + k + j)) → mem'.byteAt a = s.mem.byteAt a

/-- R175, R193: the checks of RS.ENC in their order, the sum without wrap. -/
def Obligations.RsEncChecksInOrder : Prop :=
  ∀ (s : State) (c : Command), s.pending = some c →
    let k := c.args.a0.toNat
    let n := c.args.a1.toNat
    let base := c.args.a2.toNat
    let fails (e : CmdError) : Prop :=
      exec .rsEnc s = .next { s with pending := none, done := true, err := true, errcode := some e }
    (k = 0 → fails .rsNoData) ∧ (k ≠ 0 → n = 0 → fails .rsNoEc) ∧ (k ≠ 0 → 256 < n → fails .rsEcTooLarge) ∧
      (k ≠ 0 → n ≠ 0 → n ≤ 256 → 256 < base + k + n → fails .rsRange)

/-- R178: after a successful RS.ENC on symbols that hold values, the k + n symbols are a codeword: its polynomial is 0 at the n
roots of the generator, for every build R8 allows. -/
def Obligations.RsEncMakesCodewords : Prop :=
  ∀ (s t : State) (c : Command), s.pending = some c → s.mem.wf = true → legalConfig s.build = true →
    let k := c.args.a0.toNat
    let n := c.args.a1.toNat
    let base := c.args.a2.toNat
    k ≠ 0 → n ≠ 0 → base + k + n ≤ 256 → (∀ i, i < k → s.mem.byteAt (symAddr (base + i)) ≠ none) →
    exec .rsEnc s = .next t →
    let cw := (List.range (k + n)).map fun i => (t.mem.byteAt (symAddr (base + i))).getD 0
    ∀ i, i < n → evalPoly s.build cw (fieldExp s.build ((s.build.genBase.toNat + i) % 255)) = 0

/-- R177, R193: RS.GEN (word 0x21) writes G[0], ..., G[n] of gen(n) from SYM[base] on, and no other byte; its checks in their order. -/
def Obligations.RsGenWritesTheGenerator : Prop :=
  decode 0x00000021#32 = .ok .rsGen ∧ ∀ (s : State) (c : Command), s.pending = some c → s.mem.wf = true →
    let n := c.args.a1.toNat
    let base := c.args.a2.toNat
    let fails (e : CmdError) : Prop :=
      exec .rsGen s = .next { s with pending := none, done := true, err := true, errcode := some e }
    (n ≠ 0 → n ≤ 256 → base + n + 1 ≤ 256 →
      ∃ mem', exec .rsGen s = .next { s with mem := mem', pending := none, done := true } ∧
        (∀ j, j ≤ n → ∃ g, (gen s.build n)[j]? = some g ∧ mem'.byteAt (symAddr (base + j)) = some g) ∧
        ∀ a, (∀ j, j ≤ n → a ≠ symAddr (base + j)) → mem'.byteAt a = s.mem.byteAt a) ∧
      (n = 0 → fails .rsNoEc) ∧ (256 < n → fails .rsEcTooLarge) ∧ (n ≠ 0 → n ≤ 256 → 256 < base + n + 1 → fails .rsRange)

/-- R167, for every build R8 allows, with b its generator base: gen(n) is the product of the factors x + α^(b+i), monic of degree n
with n + 1 coefficients, and its roots are α^(b+i) for i in 0..n-1. -/
def Obligations.GeneratorIsMonicWithItsRoots : Prop :=
  ∀ cfg : Config, legalConfig cfg = true →
    let b := cfg.genBase.toNat
    gen cfg 0 = [1] ∧
      ∀ n, gen cfg (n + 1) = pmul cfg (gen cfg n) [1, fieldExp cfg ((b + n) % 255)] ∧
        (gen cfg n).length = n + 1 ∧ (gen cfg n).head? = some 1 ∧
        ∀ i, i < n → evalPoly cfg (gen cfg n) (fieldExp cfg ((b + i) % 255)) = 0

/-- R168, for every build R8 allows: long division: p = p/d · d + p%d, and the remainder is [0] or of smaller degree, for every
trimmed nonzero divisor. -/
def Obligations.DivisionGivesQuotientAndRemainder : Prop :=
  ∀ cfg : Config, legalConfig cfg = true → ∀ A D : Poly, trim D = D → D ≠ [0] →
    let QR := pdivmod cfg A D
    padd (pmul cfg QR.1 D) QR.2 = trim A ∧ (QR.2 = [0] ∨ degree QR.2 < degree D)

/-- R169, for every build R8 allows: the n-stage shift register ends with the coefficients of the remainder that RS.ENC writes. -/
def Obligations.ShiftRegisterGivesTheParity : Prop :=
  ∀ cfg : Config, legalConfig cfg = true → ∀ (m : List Byte) (n : Nat), m ≠ [] → 1 ≤ n → shiftParity cfg m n = parity cfg m n

/-! ### Bit-matrix commands (41_bitmatrix.md) -/

/-- R117: MX.INIT (word 0x30 | p<<8) gives plane p its shape and clears all its storage; a dimension 0, above 65535, or a shape too large for the
storage raises E_MX_SHAPE. -/
def Obligations.MxInitConstructsAClearPlane : Prop :=
  ∀ p : PlaneId, decode (match p with | .p0 => 0x00000030#32 | .p1 => 0x00000130#32) = .ok (.mxInit p) ∧
    ∀ (s : State) (c : Command), s.pending = some c →
    let w := c.args.a0.toNat
    let h := c.args.a1.toNat
    let fits := w ≠ 0 ∧ h ≠ 0 ∧ w ≤ 65535 ∧ h ≤ 65535 ∧ (w + 31) / 32 * h ≤ 8192
    (fits → ∃ mem', exec (.mxInit p) s = .next { s.setShape p { width := c.args.a0.setWidth 16, height := c.args.a1.setWidth 16 } with
        mem := mem', pending := none, done := true } ∧
      (∀ a, planeBase p ≤ a → a < planeBase p + 0x8000 → mem'.byteAt a = some 0) ∧
      ∀ a, ¬ (planeBase p ≤ a ∧ a < planeBase p + 0x8000) → mem'.byteAt a = s.mem.byteAt a) ∧
    (¬ fits → exec (.mxInit p) s = .next { s with pending := none, done := true, err := true, errcode := some .mxShape })

/-- R120: MX.GET gives the bit at (x, y), 0 or 1. -/
def Obligations.MxGetReadsTheBit : Prop :=
  ∀ (p : PlaneId) (s : State) (c : Command), s.pending = some c →
    c.args.a0.toNat < (s.shape p).width.toNat → c.args.a1.toNat < (s.shape p).height.toNat →
    exec (.mxGet p) s = .next { s with
      result := if s.bit p c.args.a0.toNat c.args.a1.toNat then 1 else 0, pending := none, done := true }

/-- R122: MX.SET makes the bit at (x, y) 1; no other bit of any plane changes, and no byte but the one that holds it. -/
def Obligations.MxSetWritesOneBit : Prop :=
  ∀ (p : PlaneId) (s : State) (c : Command), s.pending = some c → s.mem.wf = true → (∀ r, (s.shape r).legal = true) →
    let x := c.args.a0.toNat
    let y := c.args.a1.toNat
    x < (s.shape p).width.toNat → y < (s.shape p).height.toNat →
    ∃ t, exec (.mxSet p) s = .next t ∧ t = { s with mem := t.mem, pending := none, done := true } ∧
      t.bit p x y = true ∧
      (∀ r x' y', x' < (s.shape r).width.toNat → y' < (s.shape r).height.toNat → ¬ (r = p ∧ x' = x ∧ y' = y) →
        t.bit r x' y' = s.bit r x' y') ∧
      ∀ a, a ≠ planeBase p + (s.shape p).bitIndex x y / 8 → t.mem.byteAt a = s.mem.byteAt a

/-- R124: MX.FLIP inverts the bit at (x, y); no other bit of any plane changes, and no byte but the one that holds it. -/
def Obligations.MxFlipInvertsOneBit : Prop :=
  ∀ (p : PlaneId) (s : State) (c : Command), s.pending = some c → s.mem.wf = true → (∀ r, (s.shape r).legal = true) →
    let x := c.args.a0.toNat
    let y := c.args.a1.toNat
    x < (s.shape p).width.toNat → y < (s.shape p).height.toNat →
    ∃ t, exec (.mxFlip p) s = .next t ∧ t = { s with mem := t.mem, pending := none, done := true } ∧
      t.bit p x y = (!s.bit p x y) ∧
      (∀ r x' y', x' < (s.shape r).width.toNat → y' < (s.shape r).height.toNat → ¬ (r = p ∧ x' = x ∧ y' = y) →
        t.bit r x' y' = s.bit r x' y') ∧
      ∀ a, a ≠ planeBase p + (s.shape p).bitIndex x y / 8 → t.mem.byteAt a = s.mem.byteAt a

/-- R126: MX.FILL makes every bit of the rectangle 1 and changes no other bit of any plane, and no byte outside plane p's shape. -/
def Obligations.MxFillSetsTheRectangle : Prop :=
  ∀ (p : PlaneId) (s : State) (c : Command), s.pending = some c → s.mem.wf = true → (∀ r, (s.shape r).legal = true) →
    let left := c.args.a0.toNat
    let top := c.args.a1.toNat
    let w := c.args.a2.toNat
    let h := c.args.a3.toNat
    let sh := s.shape p
    w ≠ 0 → h ≠ 0 → left + w ≤ sh.width.toNat → top + h ≤ sh.height.toNat →
    ∃ t, exec (.mxFill p) s = .next t ∧ t = { s with mem := t.mem, pending := none, done := true } ∧
      (∀ r x y, x < (s.shape r).width.toNat → y < (s.shape r).height.toNat →
        t.bit r x y = (s.bit r x y ||
          decide (r = p ∧ left ≤ x ∧ x < left + w ∧ top ≤ y ∧ y < top + h))) ∧
      ∀ a, ¬ (planeBase p ≤ a ∧ a < planeBase p + 4 * ((sh.width.toNat + 31) / 32 * sh.height.toNat)) →
        t.mem.byteAt a = s.mem.byteAt a

/-- R130: MX.XOR replaces every bit of plane p by its XOR with plane q's bit; plane q is unchanged if it is another plane, and
so is every byte outside plane p's shape. With p = q every bit becomes 0. -/
def Obligations.MxXorAddsTheMask : Prop :=
  ∀ (p q : PlaneId) (s : State) (c : Command), s.pending = some c → s.mem.wf = true → (∀ r, (s.shape r).legal = true) →
    s.shape p ≠ Shape.none → s.shape p = s.shape q →
    let sh := s.shape p
    ∃ t, exec (.mxXor p q) s = .next t ∧ t = { s with mem := t.mem, pending := none, done := true } ∧
      (∀ x y, x < sh.width.toNat → y < sh.height.toNat → t.bit p x y = (s.bit p x y ^^ s.bit q x y)) ∧
      (∀ r x y, r ≠ p → x < (s.shape r).width.toNat → y < (s.shape r).height.toNat → t.bit r x y = s.bit r x y) ∧
      ∀ a, ¬ (planeBase p ≤ a ∧ a < planeBase p + 4 * ((sh.width.toNat + 31) / 32 * sh.height.toNat)) →
        t.mem.byteAt a = s.mem.byteAt a

/-- R118, R126, R130: the checks of the bit-matrix commands in their order, without wrap. -/
def Obligations.MxChecksInOrder : Prop :=
  ∀ (p q : PlaneId) (s : State) (c : Command), s.pending = some c →
    let fails (i : Instr) (e : CmdError) : Prop :=
      exec i s = .next { s with pending := none, done := true, err := true, errcode := some e }
    let sh := s.shape p
    (∀ i, i = .mxGet p ∨ i = .mxSet p ∨ i = .mxFlip p →
      (sh = Shape.none → fails i .mxUninit) ∧
      (sh ≠ Shape.none → sh.width.toNat ≤ c.args.a0.toNat ∨ sh.height.toNat ≤ c.args.a1.toNat → fails i .mxBounds)) ∧
    (sh = Shape.none → fails (.mxFill p) .mxUninit) ∧
    (sh ≠ Shape.none →
      c.args.a2 = 0 ∨ c.args.a3 = 0 ∨ sh.width.toNat < c.args.a0.toNat + c.args.a2.toNat ∨
        sh.height.toNat < c.args.a1.toNat + c.args.a3.toNat → fails (.mxFill p) .mxBounds) ∧
    (sh = Shape.none ∨ s.shape q = Shape.none → fails (.mxXor p q) .mxUninit) ∧
    (sh ≠ Shape.none → s.shape q ≠ Shape.none → sh ≠ s.shape q → fails (.mxXor p q) .mxMismatch)

/-- R132: MX.XOR p, q twice, with q ≠ p and no change of plane q in between, gives back every bit of plane p. -/
def Obligations.MxXorTwiceIsTheIdentity : Prop :=
  ∀ (p q : PlaneId) (s t u : State) (c d : Command), p ≠ q → s.mem.wf = true → (∀ r, (s.shape r).legal = true) →
    s.shape p ≠ Shape.none → s.shape p = s.shape q → s.pending = some c → exec (.mxXor p q) s = .next t →
    exec (.mxXor p q) { t with pending := some d } = .next u →
    ∀ x y, x < (s.shape p).width.toNat → y < (s.shape p).height.toNat → u.bit p x y = s.bit p x y

/-! ### The bus (20_memory.md) and the registers (10_state.md) -/

/-- R67: a misaligned, narrow or unmapped transaction gets an ERROR response and sets BUSERR, and nothing else changes. -/
def Obligations.BusErrorsSetOnlyBuserr : Prop :=
  ∀ (s : State) (addr : Offset) (size : Size) (v : Word) (rest : List HostEvent), s.rst = false → s.unitTurn = false →
    size ≠ .word ∨ addr.toNat % 4 ≠ 0 ∨ (0x800 ≤ addr.toNat ∧ addr.toNat < 0x10000) →
    (s.host = .read addr size :: rest → step s = .next { s with
      busErr := true, host := rest, delay := s.delay - 1, response := some (.read 0 .error) }) ∧
    (s.host = .write addr size v :: rest → step s = .next { s with
      busErr := true, host := rest, delay := s.delay - 1, response := some (.write .error) })

/-- R23, R24, R33, R34: ID, VERSION, PARAM and the reserved offsets read as their constants and ignore writes, with an OK
response. PARAM reads the build's parameters; that the build of State.reset is the instance, and its PARAM 0x0000011D, is the
model's choice of a build (log 1). -/
def Obligations.ConstantRegistersAreHardWired : Prop :=
  paramWord State.reset.build = 0x0000011D ∧
  ∀ (s : State) (a : Nat) (k v : Word) (rest : List HostEvent), s.rst = false → s.unitTurn = false →
    (a, k) = (0x000, 0x47465253) ∨ (a, k) = (0x004, 0x00010000) ∨ (a, k) = (0x01C, 0#8 ++ s.build.genBase ++ 0#7 ++ s.build.primPoly) ∨
      (0x038 ≤ a ∧ a ≤ 0x3FC ∧ a % 4 = 0 ∧ k = 0) →
    (s.host = .read (BitVec.ofNat 17 a) .word :: rest → step s = .next { s with
      host := rest, delay := s.delay - 1, response := some (.read k .ok) }) ∧
    (s.host = .write (BitVec.ofNat 17 a) .word v :: rest → step s = .next { s with
      host := rest, delay := s.delay - 1, response := some (.write .ok) })

/-- R22, R68: a read of a register answers what the register holds and has no side effect, also while BUSY. STATUS is
{BUSERR, BUSYERR, ERR, DONE, BUSY} in bits 4 to 0 (R25); ERRCODE is 0 or the code of the error held (R28, R190). -/
def Obligations.RegisterReadsHaveNoSideEffects : Prop :=
  ∀ (s : State) (a : Nat) (k : Word) (rest : List HostEvent), s.rst = false → s.unitTurn = false →
    (a, k) ∈ [(0x008, (BitVec.ofBool s.ie).setWidth 32),
      (0x00C, (BitVec.ofBool s.busErr ++ BitVec.ofBool s.busyErr ++ BitVec.ofBool s.err ++ BitVec.ofBool s.done ++
        BitVec.ofBool s.pending.isSome).setWidth 32),
      (0x010, (match s.errcode with
        | none => 0x00
        | some .opcode => 0x01
        | some .reserved => 0x02
        | some .operand => 0x03
        | some .invZero => 0x04
        | some .logZero => 0x05
        | some .rsNoEc => 0x06
        | some .rsEcTooLarge => 0x07
        | some .rsNoData => 0x08
        | some .rsRange => 0x09
        | some .mxUninit => 0x0A
        | some .mxShape => 0x0B
        | some .mxBounds => 0x0C
        | some .mxMismatch => 0x0D)),
      (0x014, s.cmd), (0x018, s.result), (0x020, s.args.a0), (0x024, s.args.a1), (0x028, s.args.a2), (0x02C, s.args.a3),
      (0x030, s.shape0.height ++ s.shape0.width), (0x034, s.shape1.height ++ s.shape1.width)] →
    s.host = .read (BitVec.ofNat 17 a) .word :: rest →
    step s = .next { s with host := rest, delay := s.delay - 1, response := some (.read k .ok) }

/-- R22: a write to ERRCODE, RESULT, SHAPE0 or SHAPE1 is ignored with an OK response. -/
def Obligations.ReadOnlyRegistersIgnoreWrites : Prop :=
  ∀ (s : State) (a : Nat) (v : Word) (rest : List HostEvent), s.rst = false → s.unitTurn = false →
    a ∈ [0x010, 0x018, 0x030, 0x034] → s.host = .write (BitVec.ofNat 17 a) .word v :: rest →
    step s = .next { s with host := rest, delay := s.delay - 1, response := some (.write .ok) }

/-- R26: a STATUS write clears each W1C bit for which it has a 1 and changes nothing else, also while BUSY. -/
def Obligations.StatusWriteClearsW1cBits : Prop :=
  ∀ (s : State) (v : Word) (rest : List HostEvent), s.rst = false → s.unitTurn = false →
    s.host = .write 0x00C .word v :: rest →
    step s = .next { s with
      done := s.done && !v.getLsbD 1, err := s.err && !v.getLsbD 2, busyErr := s.busyErr && !v.getLsbD 3,
      busErr := s.busErr && !v.getLsbD 4, host := rest, delay := s.delay - 1, response := some (.write .ok) }

/-- R31, R228: an ARG write takes effect at once, also while BUSY, and leaves an accepted command's snapshot as it is. -/
def Obligations.ArgWritesLeaveTheSnapshot : Prop :=
  ∀ (s : State) (i : Fin 4) (v : Word) (rest : List HostEvent), s.rst = false → s.unitTurn = false →
    s.host = .write (BitVec.ofNat 17 (0x020 + 4 * i.val)) .word v :: rest →
    ∃ A : Args, step s = .next { s with args := A, host := rest, delay := s.delay - 1, response := some (.write .ok) } ∧
      A = (match i with
        | 0 => { s.args with a0 := v }
        | 1 => { s.args with a1 := v }
        | 2 => { s.args with a2 := v }
        | 3 => { s.args with a3 := v })

/-- R27: a CTRL write with SRST = 0 sets IE to bit 0 and nothing else, also while BUSY. -/
def Obligations.CtrlWriteSetsIe : Prop :=
  ∀ (s : State) (v : Word) (rest : List HostEvent), s.rst = false → s.unitTurn = false → v.getLsbD 1 = false →
    s.host = .write 0x008 .word v :: rest →
    step s = .next { s with ie := v.getLsbD 0, host := rest, delay := s.delay - 1, response := some (.write .ok) }

/-- R43: irq is CTRL.IE AND STATUS.DONE; it is 0 after reset, and clearing DONE or IE lowers it. -/
def Obligations.IrqIsIeAndDone : Prop :=
  State.reset.irq = false ∧
    ∀ (s : State) (v : Word), s.irq = ((s.readReg .ctrl).getLsbD 0 && (s.readReg .status).getLsbD 1) ∧
      (v.getLsbD 1 = true → (s.writeReg .status v).irq = false) ∧ (s.accept v).irq = false ∧
      (v.getLsbD 0 = false → (s.writeReg .ctrl v).irq = false)

/-- R69: with BUSY = 0, a SYM write stores bits [7:0] in its entry and changes no other byte; a read of an entry that holds a
value answers it zero-extended, and of one that holds none some symbol, zero-extended. -/
def Obligations.SymWindowReadsAndWritesSymbols : Prop :=
  ∀ (s : State) (j : Nat) (v : Word) (rest : List HostEvent), s.rst = false → s.pending = none → s.mem.wf = true → j < 256 →
    (s.host = .write (BitVec.ofNat 17 (0x400 + 4 * j)) .word v :: rest →
      ∃ mem', step s = .next { s with
          mem := mem', host := rest, delay := s.delay - 1, response := some (.write .ok) } ∧
        mem'.byteAt (symAddr j) = some (v.setWidth 8) ∧ ∀ a, a ≠ symAddr j → mem'.byteAt a = s.mem.byteAt a) ∧
    (s.host = .read (BitVec.ofNat 17 (0x400 + 4 * j)) .word :: rest →
      ∃ (b : Byte) (n : Nat), step s = .next { s with
          draws := n, host := rest, delay := s.delay - 1, response := some (.read (b.setWidth 32) .ok) } ∧
        ∀ b', s.mem.byteAt (symAddr j) = some b' → b = b')

/-- R70: with BUSY = 0, a read of a plane word answers the bits of that word that lie in the shape, and 0 elsewhere. -/
def Obligations.PlaneWindowReadsTheShape : Prop :=
  ∀ (s : State) (p : PlaneId) (j : Nat) (rest : List HostEvent), s.rst = false → s.pending = none → j < 8192 →
    s.host = .read (BitVec.ofNat 17 (planeBase p + 4 * j)) .word :: rest →
    let W := (s.shape p).width.toNat
    let H := (s.shape p).height.toNat
    let RW := (W + 31) / 32
    ∃ data : Word, step s = .next { s with host := rest, delay := s.delay - 1, response := some (.read data .ok) } ∧
      (RW * H ≤ j → data = 0) ∧
      (j < RW * H → ∀ b, b < 32 → data.getLsbD b = (decide (j % RW * 32 + b < W) && s.bit p (j % RW * 32 + b) (j / RW)))

/-- R70: with BUSY = 0, a write of a plane word sets the bits of that word that lie in the shape, and no other bit of any plane;
no byte outside that word changes. -/
def Obligations.PlaneWindowWritesTheShape : Prop :=
  ∀ (s : State) (p : PlaneId) (j : Nat) (v : Word) (rest : List HostEvent), s.rst = false → s.pending = none → s.mem.wf = true →
    (∀ r, (s.shape r).legal = true) → j < 8192 →
    s.host = .write (BitVec.ofNat 17 (planeBase p + 4 * j)) .word v :: rest →
    ∃ t, step s = .next t ∧
      t = { s with mem := t.mem, host := rest, delay := s.delay - 1, response := some (.write .ok) } ∧
      (∀ r x y, x < (s.shape r).width.toNat → y < (s.shape r).height.toNat →
        t.bit r x y = (if r = p ∧ y * (((s.shape p).width.toNat + 31) / 32) + x / 32 = j then v.getLsbD (x % 32)
          else s.bit r x y)) ∧
      ∀ a, ¬ (planeBase p + 4 * j ≤ a ∧ a < planeBase p + 4 * j + 4) → t.mem.byteAt a = s.mem.byteAt a

/-- R38, R63: bit (x, y) of a plane is bit x % 32 of its storage word y·RW + x/32, and that is bit x % 8 of the word's byte
x % 32 / 8. -/
def Obligations.PlaneBitsLieWhereTheLayoutSays : Prop :=
  ∀ (s : State) (p : PlaneId) (x y : Nat), x < (s.shape p).width.toNat → y < (s.shape p).height.toNat →
    let j := y * (((s.shape p).width.toNat + 31) / 32) + x / 32
    (s.mem.planeWord (s.shape p) p j).getLsbD (x % 32) = s.bit p x y ∧
      s.bit p x y = ((s.mem.byteAt (planeBase p + 4 * j + x % 32 / 8)).getD 0).getLsbD (x % 8)

/-! ### Hazards and reset (70_reset_and_hazards.md) -/

/-- R226: while BUSY, a write to CMD, a SYM word or a plane word changes nothing but sets BUSYERR, with an OK response; a write to
ARG0 to ARG3, CTRL or STATUS is not dropped: it has its register's effect, and never sets BUSYERR. -/
def Obligations.WritesWhileBusyAreDropped : Prop :=
  ∀ (s : State) (addr : Offset) (v : Word) (rest : List HostEvent), s.rst = false → s.unitTurn = false → s.pending ≠ none →
    s.host = .write addr .word v :: rest →
    (addr.toNat = 0x014 ∨ (0x400 ≤ addr.toNat ∧ addr.toNat < 0x800 ∧ addr.toNat % 4 = 0) ∨
        (0x10000 ≤ addr.toNat ∧ addr.toNat % 4 = 0) →
      step s = .next { s with busyErr := true, host := rest, delay := s.delay - 1, response := some (.write .ok) }) ∧
    ∀ r, (addr.toNat, r) ∈ [(0x008, Reg.ctrl), (0x00C, .status), (0x020, .arg0), (0x024, .arg1), (0x028, .arg2), (0x02C, .arg3)] →
      ((s.writeReg r v).busyErr = true → s.busyErr = true) ∧
        step s = .next { ({ s with delay := s.delay - 1 } : State).writeReg r v with
          host := rest, response := some (.write .ok) }

/-- R227: while BUSY, a read of a SYM word or a plane word answers some value with an OK response and sets no flag; a read in the
register block answers what it would answer at any time. -/
def Obligations.ReadsWhileBusyAreOpen : Prop :=
  ∀ (s : State) (addr : Offset) (rest : List HostEvent), s.rst = false → s.unitTurn = false → s.pending ≠ none →
    s.host = .read addr .word :: rest → addr.toNat % 4 = 0 →
    ((0x400 ≤ addr.toNat ∧ addr.toNat < 0x800) ∨ 0x10000 ≤ addr.toNat →
      ∃ (data : Word) (n : Nat), step s = .next { s with
        draws := n, host := rest, delay := s.delay - 1, response := some (.read data .ok) }) ∧
    (addr.toNat < 0x400 → step s = .next { s with
      host := rest, delay := s.delay - 1,
      response := some (.read (match regAt addr.toNat with | some r => s.readReg r | none => 0) .ok) })

/-- R220: the state of the instance (log 1) right after hardware reset, as a host would read it: the registers' reset values, no SYM entry with a value,
both planes uninitialised, irq = 0. -/
def Obligations.ResetLeavesTheResetValues : Prop :=
  (∀ r k, (r, k) ∈ [(Reg.id, 0x47465253#32), (.version, 0x00010000#32), (.ctrl, 0#32), (.status, 0#32), (.errcode, 0#32),
      (.cmd, 0#32), (.result, 0#32), (.param, 0x0000011D#32), (.arg0, 0#32), (.arg1, 0#32), (.arg2, 0#32), (.arg3, 0#32),
      (.shape0, 0#32), (.shape1, 0#32)] → State.reset.readReg r = k) ∧
    State.reset.pending = none ∧ State.reset.irq = false ∧
    (∀ j, j < 256 → State.reset.mem.byteAt (symAddr j) = none) ∧
    ∀ p, State.reset.shape p = Shape.none ∧ ∀ j, State.reset.mem.planeWord (State.reset.shape p) p j = 0

/-- R220: hardware reset puts every register, the latch, SYM and the planes at the build's reset values, from every state; a pending
command is discarded with no effect. The model's own host list, response and count of draws stay (log 8). -/
def Obligations.HardwareResetRestoresTheResetState : Prop :=
  ∀ (s : State) (rest : List HostEvent), s.unitTurn = false → s.host = .assertRst :: rest →
    step s = .next { State.resetFor s.build with rst := true, host := rest, response := s.response, draws := s.draws }

/-- R222, R223: a CTRL write with SRST = 1 resets every register, aborts a pending command, uninitialises the planes and preserves
SYM, but for the write range of an aborted RS.ENC or RS.GEN, whose entries hold some value from then on. That an aborted word
with opcode 0x20 or 0x21 and a reserved bit set is neither command, so that SYM is preserved, is the model's choice (log 4). -/
def Obligations.SoftResetPreservesSym : Prop :=
  ∀ (s : State) (v : Word) (rest : List HostEvent), s.rst = false → s.unitTurn = false → s.mem.wf = true → v.getLsbD 1 = true →
    s.host = .write 0x008 .word v :: rest →
    let hit (j : Nat) : Prop := ∃ c, s.pending = some c ∧
      ((decode c.word = .ok .rsEnc ∧ c.args.a2.toNat + c.args.a0.toNat ≤ j ∧
          j < c.args.a2.toNat + c.args.a0.toNat + c.args.a1.toNat) ∨
        (decode c.word = .ok .rsGen ∧ c.args.a2.toNat ≤ j ∧ j ≤ c.args.a2.toNat + c.args.a1.toNat))
    ∃ mem' n, step s = .next { State.resetFor s.build with
        mem := mem', draws := n, host := rest, response := some (.write .ok) } ∧
      ∀ j, j < 256 → (hit j → ∃ b, mem'.byteAt (symAddr j) = some b) ∧
        (¬ hit j → mem'.byteAt (symAddr j) = s.mem.byteAt (symAddr j))

/-- R221: a transaction while `rst` is asserted is refused, and nothing else is. -/
def Obligations.StepStopsOnlyOnTransactionsDuringReset : Prop :=
  ∀ s : State,
    (∀ f, step s ≠ .fault f) ∧
      (∀ e rest, s.rst = true → s.host = e :: rest → HostEvent.isTransaction e = true →
        step s = .refused .transactionDuringReset) ∧
      ((s.rst = false ∨ ∀ e rest, s.host = e :: rest → HostEvent.isTransaction e = false) → ∃ t, step s = .next t)

/-! ### Whole-machine rules -/

/-- R8, R39 and logs 5, 8, 12: every step keeps the invariant: a build R8 allows, storage in canonical form, legal shapes, nothing set outside a shape,
the latch's word in CMD with DONE, ERR and ERRCODE 0, ERR only with an error code, RESULT a byte, no command pending while `rst`
is asserted. -/
def Obligations.StepKeepsTheInvariant : Prop := ∀ s t : State, s.Inv → step s = .next t → t.Inv

/-- R39, R220: the invariant holds right after reset. -/
def Obligations.ResetMeetsTheInvariant : Prop := State.reset.Inv

/-- R25, R195: DONE rises only at a completion, the step at which BUSY falls. -/
def Obligations.DoneRisesOnlyAtCompletion : Prop :=
  ∀ s t : State, step s = .next t → s.done = false → t.done = true → s.pending ≠ none ∧ s.unitTurn = true ∧ t.pending = none

/-- R229, R30, R32, R19: a step changes the build never; and a step that is no completion leaves RESULT, SHAPE0 and SHAPE1 as they
are, or is a hardware reset (`rst` asserted) or a soft reset (a CTRL write with SRST = 1), which clears them with the latch and
DONE. -/
def Obligations.ResultsChangeOnlyAtCompletionOrReset : Prop :=
  ∀ s t : State, step s = .next t → t.build = s.build ∧ (s.unitTurn = false →
    (t.result = s.result ∧ t.shape0 = s.shape0 ∧ t.shape1 = s.shape1) ∨
      ((∃ rest, s.host = .assertRst :: rest ∨ (s.rst = false ∧ ∃ v : Word, v.getLsbD 1 = true ∧ s.host = .write 0x008 .word v :: rest)) ∧
        t.result = 0 ∧ t.shape0 = Shape.none ∧ t.shape1 = Shape.none ∧ t.pending = none ∧ t.done = false))

/-- R95, R105: a WAIT that finds a command pending ends: after the host events still to come and two more steps the command has
completed and the last STATUS read shows BUSY = 0 and DONE = 1. -/
def Obligations.WaitEnds : Prop :=
  ∀ (s : State) (c : Command) (rest : List HostEvent), s.pending = some c → s.rst = false → s.host = .wait :: rest →
    ∃ t status, Sys2Proof.core.run (s.delay + 2) s = .next t ∧ t.pending = none ∧ t.host = rest ∧
      t.response = some (.read status .ok) ∧ status.getLsbD 0 = false ∧ status.getLsbD 1 = true
end

