-- ==== Sys2Proof/Laws/Memory.lean ====
section
/-! SUPPORT. The memory operations: what a byte reads as after each, and that each keeps the canonical form. -/

namespace Sys2Proof.Machine

/-- An address of storage: a SYM cell or a plane byte. -/
abbrev isCell (a : Nat) : Prop := (isSymCell a || isPlaneByte a) = true

theorem wf_cons {a : Nat} {v : Byte} {m : Memory} :
    Memory.wf ((a, v) :: m) = true ↔
      isCell a ∧ Memory.unlisted a ≠ some v ∧ (∀ c ∈ m, a < c.1) ∧ Memory.wf m = true := by
  simp [Memory.wf, and_assoc]

@[simp] theorem byteAt_nil (x : Nat) : Memory.byteAt [] x = Memory.unlisted x := rfl

theorem byteAt_cons (b : Nat) (v : Byte) (m : Memory) (x : Nat) :
    Memory.byteAt ((b, v) :: m) x = if b = x then some v else Memory.byteAt m x := rfl

theorem byteAt_of_not_listed {m : Memory} {x : Nat} (h : ∀ c ∈ m, c.1 ≠ x) : Memory.byteAt m x = Memory.unlisted x := by
  induction m with
  | nil => rfl
  | cons c m ih =>
    obtain ⟨b, v⟩ := c
    rw [byteAt_cons, if_neg (h (b, v) (by simp)), ih fun c hc => h c (by simp [hc])]

theorem byteAt_keep {m : Memory} {a : Nat} (h : ∀ c ∈ m, a < c.1) (v : Byte) (x : Nat) :
    Memory.byteAt (Memory.keep a v m) x = if x = a then some v else Memory.byteAt m x := by
  have hn : Memory.byteAt m a = Memory.unlisted a := byteAt_of_not_listed fun c hc => (h c hc).ne'
  unfold Memory.keep
  by_cases hu : Memory.unlisted a = some v
  · rw [if_pos hu]
    split
    · next hx => rw [hx, hn, hu]
    · rfl
  · rw [if_neg hu, byteAt_cons]
    simp only [eq_comm]

theorem mem_keep {m : Memory} {a : Nat} {v : Byte} {c : Host.Cell} (h : c ∈ Memory.keep a v m) : c = (a, v) ∨ c ∈ m := by
  unfold Memory.keep at h
  split at h
  · exact .inr h
  · simpa using h

theorem wf_keep {m : Memory} {a : Nat} (v : Byte) (hc : isCell a) (h : ∀ c ∈ m, a < c.1) (hm : Memory.wf m = true) :
    Memory.wf (Memory.keep a v m) = true := by
  unfold Memory.keep
  split
  · exact hm
  · next hu => exact wf_cons.2 ⟨hc, hu, h, hm⟩

theorem mem_write {m : Memory} {a : Nat} {v : Byte} {c : Host.Cell} (h : c ∈ m.write a v) : c = (a, v) ∨ c ∈ m := by
  induction m with
  | nil => exact mem_keep h
  | cons d m ih =>
    obtain ⟨b, w⟩ := d
    simp only [Memory.write] at h
    split at h
    · exact mem_keep h
    · split at h
      · exact (mem_keep h).imp id fun hc => by simp [hc]
      · rcases List.mem_cons.1 h with rfl | h
        · simp
        · exact (ih h).imp id fun hc => by simp [hc]

/-- The read after a write of one byte. -/
theorem byteAt_write {m : Memory} (hm : m.wf = true) (a : Nat) (v : Byte) (x : Nat) :
    (m.write a v).byteAt x = if x = a then some v else m.byteAt x := by
  induction m with
  | nil => exact byteAt_keep (by simp) v x
  | cons d m ih =>
    obtain ⟨b, w⟩ := d
    obtain ⟨-, -, hlt, hm⟩ := wf_cons.1 hm
    simp only [Memory.write]
    split
    · next hab =>
      refine byteAt_keep (fun c hc => ?_) v x
      rcases List.mem_cons.1 hc with rfl | hc
      · exact hab
      · exact hab.trans (hlt c hc)
    · split
      · next hab =>
        subst hab
        rw [byteAt_keep hlt, byteAt_cons]
        split <;> rename_i hx
        · rfl
        · rw [if_neg (Ne.symm hx)]
      · next hab =>
        rw [byteAt_cons, byteAt_cons, ih hm]
        split <;> rename_i hx
        · rw [if_neg (by rintro rfl; exact hab hx.symm)]
        · rfl

/-- A write of a cell keeps the canonical form. -/
theorem wf_write {m : Memory} (hm : m.wf = true) {a : Nat} (ha : isCell a) (v : Byte) : (m.write a v).wf = true := by
  induction m with
  | nil => exact wf_keep v ha (by simp) rfl
  | cons d m ih =>
    obtain ⟨b, w⟩ := d
    obtain ⟨hb, hu, hlt, hm'⟩ := wf_cons.1 hm
    simp only [Memory.write]
    split
    · next hab =>
      refine wf_keep v ha (fun c hc => ?_) hm
      rcases List.mem_cons.1 hc with rfl | hc
      · exact hab
      · exact hab.trans (hlt c hc)
    · split
      · next hab => subst hab; exact wf_keep v ha hlt hm'
      · next h1 h2 =>
        refine wf_cons.2 ⟨hb, hu, fun c hc => ?_, ih hm'⟩
        rcases mem_write hc with rfl | hc
        · exact lt_of_le_of_ne (not_lt.1 h1) (Ne.symm h2)
        · exact hlt c hc

theorem wf_filter {m : Memory} (hm : m.wf = true) (q : Host.Cell → Bool) : Memory.wf (m.filter q) = true := by
  induction m with
  | nil => rfl
  | cons d m ih =>
    obtain ⟨b, w⟩ := d
    obtain ⟨hb, hu, hlt, hm'⟩ := wf_cons.1 hm
    rw [List.filter_cons]
    split
    · exact wf_cons.2 ⟨hb, hu, fun c hc => hlt c (List.mem_of_mem_filter hc), ih hm'⟩
    · exact ih hm'

/-- A filter on addresses: the addresses it keeps read as before, the others as unlisted. -/
theorem byteAt_filter (m : Memory) (q : Nat → Bool) (x : Nat) :
    Memory.byteAt (m.filter fun c => q c.1) x = if q x then m.byteAt x else Memory.unlisted x := by
  induction m with
  | nil => simp
  | cons d m ih =>
    obtain ⟨b, w⟩ := d
    rw [List.filter_cons, byteAt_cons]
    by_cases hb : q b = true
    · rw [if_pos hb, byteAt_cons, ih]
      by_cases hx : b = x
      · subst hx; simp [hb]
      · simp [hx]
    · rw [if_neg hb, ih]
      by_cases hx : b = x
      · subst hx; simp [hb]
      · simp [hx]

/-- A cleared range reads as unlisted, the rest as before. -/
theorem byteAt_drop (m : Memory) (lo n x : Nat) :
    (m.drop lo n).byteAt x = if lo ≤ x ∧ x < lo + n then Memory.unlisted x else m.byteAt x := by
  unfold Memory.drop
  rw [byteAt_filter m (fun a => !(decide (lo ≤ a) && decide (a < lo + n)))]
  by_cases h : lo ≤ x ∧ x < lo + n
  · simp [h]
  · rw [if_neg h, if_pos]
    simp only [Bool.not_eq_true', Bool.and_eq_false_iff, decide_eq_false_iff_not]
    omega

theorem wf_drop {m : Memory} (hm : m.wf = true) (lo n : Nat) : (m.drop lo n).wf = true := wf_filter hm _

theorem byteAt_append {l m : Memory} (x : Nat) :
    Memory.byteAt (l ++ m) x = if x ∈ l.map Prod.fst then Memory.byteAt l x else Memory.byteAt m x := by
  induction l with
  | nil => simp
  | cons d l ih =>
    obtain ⟨b, w⟩ := d
    rw [List.cons_append, byteAt_cons, byteAt_cons, ih]
    by_cases h : b = x
    · simp [h]
    · simp [h, Ne.symm h]

theorem wf_append {l m : Memory} (hl : Memory.wf l = true) (hm : Memory.wf m = true) (h : ∀ c ∈ l, ∀ d ∈ m, c.1 < d.1) :
    Memory.wf (l ++ m) = true := by
  induction l with
  | nil => exact hm
  | cons c l ih =>
    obtain ⟨b, w⟩ := c
    obtain ⟨hb, hu, hlt, hl'⟩ := wf_cons.1 hl
    refine wf_cons.2 ⟨hb, hu, fun d hd => ?_, ih hl' fun c hc d hd => h c (by simp [hc]) d hd⟩
    rcases List.mem_append.1 hd with hd | hd
    · exact hlt d hd
    · exact h (b, w) (by simp) d hd

/-- The entries of a sorted list from `a` on: the head is the entry at `a`, if there is one. -/
theorem headByte_eq {m : Memory} (hm : m.wf = true) {a : Nat} (h : ∀ c ∈ m, a ≤ c.1) (ha : Memory.unlisted a = some 0#8) :
    m.headByte a = m.planeByte a := by
  cases m with
  | nil => simp [Memory.headByte, Memory.planeByte, ha]
  | cons d m =>
    obtain ⟨b, w⟩ := d
    obtain ⟨-, -, hlt, -⟩ := wf_cons.1 hm
    simp only [Memory.headByte, Memory.planeByte, byteAt_cons]
    split
    · rfl
    · next hne =>
      rw [byteAt_of_not_listed fun c hc => ?_, ha]; rfl
      have := hlt c hc
      have := h (b, w) (by simp)
      simp only at this
      omega

theorem wf_headDrop {m : Memory} (hm : m.wf = true) (a : Nat) : (m.headDrop a).wf = true := by
  cases m with
  | nil => rfl
  | cons d m =>
    obtain ⟨b, w⟩ := d
    simp only [Memory.headDrop]
    split
    · exact (wf_cons.1 hm).2.2.2
    · exact hm

theorem headDrop_lt {m : Memory} (hm : m.wf = true) {a : Nat} (h : ∀ c ∈ m, a ≤ c.1) : ∀ c ∈ m.headDrop a, a + 1 ≤ c.1 := by
  cases m with
  | nil => simp [Memory.headDrop]
  | cons d m =>
    obtain ⟨b, w⟩ := d
    obtain ⟨-, -, hlt, -⟩ := wf_cons.1 hm
    have hb := h (b, w) (by simp)
    simp only at hb
    simp only [Memory.headDrop]
    intro c hc
    split at hc
    · next he => subst he; exact hlt c hc
    · next hne =>
      rcases List.mem_cons.1 hc with rfl | hc
      · show a + 1 ≤ b; omega
      · have := hlt c hc; omega

theorem planeByte_headDrop {m : Memory} {a x : Nat} (hx : x ≠ a) : (m.headDrop a).planeByte x = m.planeByte x := by
  cases m with
  | nil => rfl
  | cons d m =>
    obtain ⟨b, w⟩ := d
    simp only [Memory.headDrop]
    split
    · next he =>
      subst he
      simp only [Memory.planeByte, byteAt_cons, if_neg (Ne.symm hx)]
    · rfl

/-- What `build` lists: the new bytes of the range, then `tail`. -/
theorem build_spec {f : Nat → Byte → Byte → Byte} {lo slo : Nat} {tail : Memory} {n : Nat} :
    ∀ {k : Nat} {dst src : Memory}, dst.wf = true → src.wf = true → tail.wf = true →
      (∀ c ∈ dst, lo + k ≤ c.1) → (∀ c ∈ src, slo + k ≤ c.1) → (∀ c ∈ tail, lo + k + n ≤ c.1) →
      (∀ a, lo ≤ a → a < lo + k + n → isCell a ∧ Memory.unlisted a = some 0#8) →
      (∀ a, slo ≤ a → a < slo + k + n → Memory.unlisted a = some 0#8) →
      (Memory.build f lo slo tail n k dst src).wf = true ∧
        (∀ c ∈ Memory.build f lo slo tail n k dst src, lo + k ≤ c.1) ∧
        ∀ x, (Memory.build f lo slo tail n k dst src).byteAt x =
          if lo + k ≤ x ∧ x < lo + k + n then
            some (f (x - lo) (dst.planeByte x) (src.planeByte (slo + (x - lo))))
          else tail.byteAt x := by
  induction n with
  | zero =>
    intro k dst src _ _ ht _ _ htl _ _
    refine ⟨ht, fun c hc => by have := htl c hc; omega, fun x => ?_⟩
    rw [if_neg (by omega)]
    rfl
  | succ n ih =>
    intro k dst src hd hs ht hdl hsl htl hcell hscell
    obtain ⟨h1, h2, h3⟩ := ih (k := k + 1) (wf_headDrop hd (lo + k)) (wf_headDrop hs (slo + k)) ht
      (fun c hc => by have := headDrop_lt hd hdl c hc; omega)
      (fun c hc => by have := headDrop_lt hs hsl c hc; omega)
      (fun c hc => by have := htl c hc; omega)
      (fun a h h' => hcell a h (by omega)) (fun a h h' => hscell a h (by omega))
    have hlt : ∀ c ∈ Memory.build f lo slo tail n (k + 1) (dst.headDrop (lo + k)) (src.headDrop (slo + k)), lo + k < c.1 :=
      fun c hc => by have := h2 c hc; omega
    have hk := hcell (lo + k) (by omega) (by omega)
    refine ⟨wf_keep _ hk.1 hlt h1, fun c hc => ?_, fun x => ?_⟩
    · rcases mem_keep hc with rfl | hc
      · exact le_refl _
      · exact (hlt c hc).le
    · simp only [Memory.build]
      rw [byteAt_keep hlt, h3, headByte_eq hd hdl hk.2, headByte_eq hs hsl (hscell (slo + k) (by omega) (by omega))]
      by_cases hx : x = lo + k
      · subst hx
        rw [if_pos rfl, if_pos (by omega), Nat.add_sub_cancel_left]
      · rw [if_neg hx]
        by_cases hr : lo + (k + 1) ≤ x ∧ x < lo + (k + 1) + n
        · rw [if_pos hr, if_pos (by omega), planeByte_headDrop hx, planeByte_headDrop (by omega)]
        · rw [if_neg hr, if_neg (by omega)]

theorem planeByte_slice {m : Memory} {lo n x : Nat} (h : lo ≤ x ∧ x < lo + n) : (m.slice lo n).planeByte x = m.planeByte x := by
  unfold Memory.planeByte Memory.slice
  rw [byteAt_filter m (fun a => decide (lo ≤ a) && decide (a < lo + n)), if_pos (by simpa using h)]

theorem mem_slice {m : Memory} {lo n : Nat} {c : Host.Cell} (h : c ∈ m.slice lo n) : lo ≤ c.1 ∧ c.1 < lo + n := by
  simpa [Memory.slice] using (List.mem_filter.1 h).2

/-- The hypotheses under which a range of bytes is plane storage. -/
theorem plane_range_cell {a : Nat} (h : 0x10000 ≤ a ∧ a < 0x20000) : isCell a ∧ Memory.unlisted a = some 0#8 := by
  have h1 : isPlaneByte a = true := by simp [isPlaneByte, h]
  have h2 : isSymCell a = false := by simp [isSymCell]; omega
  exact ⟨by simp [h1], by simp [Memory.unlisted, h2]⟩

/-- The range of `merge` gets its new bytes, every other byte stays, and the form is kept. -/
theorem merge_spec {m : Memory} (hm : m.wf = true) (f : Nat → Byte → Byte → Byte) {lo slo n : Nat}
    (hlo : 0x10000 ≤ lo ∧ lo + n ≤ 0x20000) (hslo : 0x10000 ≤ slo ∧ slo + n ≤ 0x20000) :
    (m.merge f lo slo n).wf = true ∧
      ∀ x, (m.merge f lo slo n).byteAt x =
        if lo ≤ x ∧ x < lo + n then some (f (x - lo) (m.planeByte x) (m.planeByte (slo + (x - lo)))) else m.byteAt x := by
  have hb := build_spec (f := f) (lo := lo) (slo := slo) (tail := m.filter fun c => decide (lo + n ≤ c.1)) (n := n) (k := 0)
    (dst := m.slice lo n) (src := m.slice slo n) (wf_filter hm _) (wf_filter hm _) (wf_filter hm _)
    (fun c hc => (mem_slice hc).1) (fun c hc => (mem_slice hc).1)
    (fun c hc => by simpa using (List.mem_filter.1 hc).2)
    (fun a h h' => plane_range_cell (by omega)) (fun a h h' => (plane_range_cell (by omega)).2)
  obtain ⟨h1, h2, h3⟩ := hb
  refine ⟨wf_append (wf_filter hm _) h1 fun c hc d hd => ?_, fun x => ?_⟩
  · have hc' : c.1 < lo := by simpa using (List.mem_filter.1 hc).2
    have := h2 d hd
    omega
  · unfold Memory.merge
    rw [byteAt_append, h3]
    by_cases hx : lo ≤ x ∧ x < lo + n
    · rw [if_neg, if_pos (by omega), if_pos hx, planeByte_slice hx, planeByte_slice (by omega)]
      rintro hmem
      obtain ⟨c, hc, rfl⟩ := List.mem_map.1 hmem
      have : c.1 < lo := by simpa using (List.mem_filter.1 hc).2
      omega
    · rw [if_neg hx, if_neg (show ¬ (lo + 0 ≤ x ∧ x < lo + 0 + n) by omega),
        byteAt_filter m (fun a => decide (lo + n ≤ a)), byteAt_filter m (fun a => decide (a < lo))]
      by_cases hlt : x < lo
      · by_cases hin : x ∈ (m.filter fun c => decide (c.1 < lo)).map Prod.fst
        · simp [hin, hlt]
        · rw [if_neg hin, if_neg (by simp; omega)]
          refine (byteAt_of_not_listed fun c hc he => hin ?_).symm
          exact List.mem_map.2 ⟨c, List.mem_filter.2 ⟨hc, by simpa [he] using hlt⟩, he⟩
      · rw [if_neg, if_pos (by simp; omega)]
        rintro hmem
        obtain ⟨c, hc, rfl⟩ := List.mem_map.1 hmem
        have : c.1 < lo := by simpa using (List.mem_filter.1 hc).2
        omega

theorem symAddr_cell {j : Nat} (hj : j < 256) : isCell (symAddr j) := by
  have : isSymCell (symAddr j) = true := by
    simp only [isSymCell, Bool.and_eq_true, decide_eq_true_eq, beq_iff_eq]
    unfold symAddr
    omega
  simp [this]

/-- The symbols written one after another from `SYM[j]` on: each at its entry, every other byte as before, and the form kept. -/
theorem writeSyms_spec {l : List Byte} : ∀ {m : Memory} {j : Nat}, m.wf = true → j + l.length ≤ 256 →
    (m.writeSyms j l).wf = true ∧
      (∀ i, (h : i < l.length) → (m.writeSyms j l).byteAt (symAddr (j + i)) = some l[i]) ∧
      ∀ x, (∀ i, i < l.length → x ≠ symAddr (j + i)) → (m.writeSyms j l).byteAt x = m.byteAt x := by
  induction l with
  | nil => intro m j hm _; exact ⟨hm, by simp, fun x _ => rfl⟩
  | cons v l ih =>
    intro m j hm hj
    simp only [List.length_cons] at hj
    have hw := wf_write hm (symAddr_cell (j := j) (by omega)) v
    obtain ⟨h1, h2, h3⟩ := ih (m := m.write (symAddr j) v) (j := j + 1) hw (by omega)
    refine ⟨h1, fun i hi => ?_, fun x hx => ?_⟩
    · cases i with
      | zero =>
        show (Memory.writeSyms _ _ l).byteAt (symAddr j) = some v
        rw [h3 (symAddr j) (fun i _ => by simp [symAddr]; omega), byteAt_write hm, if_pos rfl]
      | succ i =>
        have := h2 i (by simpa using hi)
        rwa [show j + 1 + i = j + (i + 1) by omega] at this
    · show (Memory.writeSyms _ _ l).byteAt x = m.byteAt x
      rw [h3 x fun i hi => by have := hx (i + 1) (by simpa using hi); rwa [show j + 1 + i = j + (i + 1) by omega],
        byteAt_write hm, if_neg (by simpa using hx 0 (by simp))]

theorem byteOfBits_bits (b0 b1 b2 b3 b4 b5 b6 b7 : Bool) :
    let v : Byte := BitVec.ofBool b7 ++ BitVec.ofBool b6 ++ BitVec.ofBool b5 ++ BitVec.ofBool b4 ++ BitVec.ofBool b3 ++
      BitVec.ofBool b2 ++ BitVec.ofBool b1 ++ BitVec.ofBool b0
    v.getLsbD 0 = b0 ∧ v.getLsbD 1 = b1 ∧ v.getLsbD 2 = b2 ∧ v.getLsbD 3 = b3 ∧ v.getLsbD 4 = b4 ∧ v.getLsbD 5 = b5 ∧
      v.getLsbD 6 = b6 ∧ v.getLsbD 7 = b7 := by
  cases b0 <;> cases b1 <;> cases b2 <;> cases b3 <;> cases b4 <;> cases b5 <;> cases b6 <;> cases b7 <;> decide

@[simp] theorem getLsbD_byteOfBits (f : Nat → Bool) (i : Nat) : (byteOfBits f).getLsbD i = (decide (i < 8) && f i) := by
  obtain ⟨h0, h1, h2, h3, h4, h5, h6, h7⟩ := byteOfBits_bits (f 0) (f 1) (f 2) (f 3) (f 4) (f 5) (f 6) (f 7)
  by_cases h : i < 8
  · have : i = 0 ∨ i = 1 ∨ i = 2 ∨ i = 3 ∨ i = 4 ∨ i = 5 ∨ i = 6 ∨ i = 7 := by omega
    rcases this with rfl | rfl | rfl | rfl | rfl | rfl | rfl | rfl <;> rw [decide_eq_true h, Bool.true_and] <;> assumption
  · rw [BitVec.getLsbD_of_ge _ _ (by omega)]
    simp [h]

end Sys2Proof.Machine
end

