-- ==== Sys2Proof/Laws/Plane.lean ====
section
/-! SUPPORT. The planes' bits: the storage layout (R38), and what each plane operation does to every bit and byte. -/

namespace Sys2Proof.Machine

theorem planeBytes_eq : planeBytes = 32768 := rfl

theorem planeBase_cases (p : PlaneId) : planeBase p = 0x10000 ∨ planeBase p = 0x18000 := by cases p <;> simp [planeBase]

theorem planeBase_inj {p q : PlaneId} {a b : Nat} (ha : a < 32768) (hb : b < 32768)
    (h : planeBase p + a = planeBase q + b) : p = q ∧ a = b := by
  cases p <;> cases q <;> simp only [planeBase, true_and, reduceCtorEq, false_and] at h ⊢ <;> omega

theorem plane_cell {p : PlaneId} {a : Nat} (ha : a < 32768) :
    isCell (planeBase p + a) ∧ Memory.unlisted (planeBase p + a) = some 0#8 :=
  plane_range_cell (by rcases planeBase_cases p with h | h <;> omega)

/-- Every column of a shape lies in its row's words (R38). -/
theorem width_le_rowWords (sh : Shape) : sh.width.toNat ≤ 32 * sh.rowWords := by unfold Shape.rowWords; omega

theorem columnOf_bitIndex {sh : Shape} {x : Nat} (hx : x < sh.width.toNat) (y : Nat) : sh.columnOf (sh.bitIndex x y) = x := by
  have hw := width_le_rowWords sh
  have hq : x / 32 < sh.rowWords := by omega
  simp only [Shape.columnOf, Shape.bitIndex]
  rw [show (32 * (y * sh.rowWords + x / 32) + x % 32) / 32 = y * sh.rowWords + x / 32 by omega, Nat.mul_add_mod',
    Nat.mod_eq_of_lt hq]
  omega

theorem rowOf_bitIndex {sh : Shape} {x : Nat} (hx : x < sh.width.toNat) (y : Nat) : sh.rowOf (sh.bitIndex x y) = y := by
  have hw := width_le_rowWords sh
  have hq : x / 32 < sh.rowWords := by omega
  simp only [Shape.rowOf, Shape.bitIndex]
  rw [show (32 * (y * sh.rowWords + x / 32) + x % 32) / 32 = y * sh.rowWords + x / 32 by omega,
    Nat.mul_comm, Nat.mul_add_div (by omega), Nat.div_eq_of_lt hq, Nat.add_zero]

/-- A bit of a shape lies in its storage words (R38). -/
theorem bitIndex_lt {sh : Shape} {x y : Nat} (hx : x < sh.width.toNat) (hy : y < sh.height.toNat) :
    sh.bitIndex x y < 32 * (sh.rowWords * sh.height.toNat) := by
  have hw := width_le_rowWords sh
  have hm : (y + 1) * sh.rowWords ≤ sh.height.toNat * sh.rowWords := Nat.mul_le_mul_right _ hy
  rw [Nat.add_mul, Nat.one_mul, Nat.mul_comm sh.height.toNat] at hm
  simp only [Shape.bitIndex]
  omega

/-- Two bits of a shape have two places (R38). -/
theorem bitIndex_inj {sh : Shape} {x x' y y' : Nat} (hx : x < sh.width.toNat) (hx' : x' < sh.width.toNat)
    (h : sh.bitIndex x y = sh.bitIndex x' y') : x = x' ∧ y = y' := by
  have h1 := columnOf_bitIndex hx y
  have h2 := rowOf_bitIndex hx y
  rw [h] at h1 h2
  exact ⟨h1.symm.trans (columnOf_bitIndex hx' y'), h2.symm.trans (rowOf_bitIndex hx' y')⟩

/-- A place whose column and row lie in the shape is the place of that bit (R38). -/
theorem bitIndex_columnOf_rowOf (sh : Shape) (i : Nat) : sh.bitIndex (sh.columnOf i) (sh.rowOf i) = i := by
  simp only [Shape.bitIndex, Shape.columnOf, Shape.rowOf]
  have h1 : (i / 32 % sh.rowWords * 32 + i % 32) / 32 = i / 32 % sh.rowWords := by omega
  have h2 : (i / 32 % sh.rowWords * 32 + i % 32) % 32 = i % 32 := by omega
  rw [h1, h2, Nat.mul_comm (i / 32 / sh.rowWords), Nat.div_add_mod]
  omega

/-- Equal bytes of a plane are equal bits. -/
theorem planeBit_congr {m m' : Memory} {p : PlaneId} {i : Nat}
    (h : m'.byteAt (planeBase p + i / 8) = m.byteAt (planeBase p + i / 8)) : m'.planeBit p i = m.planeBit p i := by
  unfold Memory.planeBit Memory.planeByte; rw [h]

/-- The write of one plane bit: that bit, and no other bit of any plane. -/
theorem planeBit_writePlaneBit {m : Memory} (hm : m.wf = true) {p q : PlaneId} {i j : Nat} (hi : i < 262144) (hj : j < 262144)
    (b : Bool) : (m.writePlaneBit p i b).planeBit q j = if p = q ∧ i = j then b else m.planeBit q j := by
  unfold Memory.writePlaneBit
  by_cases ha : planeBase q + j / 8 = planeBase p + i / 8
  · obtain ⟨rfl, hd⟩ := planeBase_inj (by omega) (by omega) ha
    simp only [Memory.planeBit, Memory.planeByte, byteAt_write hm, ha, if_true, Option.getD_some, getLsbD_byteOfBits,
      true_and]
    by_cases hmod : j % 8 = i % 8
    · have : i = j := by omega
      simp [this]; omega
    · have : i ≠ j := by omega
      simp [this, hmod]; omega
  · rw [if_neg (by rintro ⟨rfl, rfl⟩; exact ha rfl)]
    exact planeBit_congr (by rw [byteAt_write hm, if_neg ha])

theorem byteAt_writePlaneBit {m : Memory} (hm : m.wf = true) {p : PlaneId} {i a : Nat} (b : Bool)
    (ha : a ≠ planeBase p + i / 8) : (m.writePlaneBit p i b).byteAt a = m.byteAt a := by
  unfold Memory.writePlaneBit; rw [byteAt_write hm, if_neg ha]

theorem wf_writePlaneBit {m : Memory} (hm : m.wf = true) {p : PlaneId} {i : Nat} (hi : i < 262144) (b : Bool) :
    (m.writePlaneBit p i b).wf = true := wf_write hm (plane_cell (by omega)).1 _

/-- `mapPlane` on a shape that fits the storage: the bytes it changes are the shape's, and the form is kept. -/
theorem mapPlane_bytes {m : Memory} (hm : m.wf = true) {sh : Shape} (hsh : sh.rowWords * sh.height.toNat ≤ 8192) (p q : PlaneId)
    (g : Nat → Nat → Bool → Bool → Bool) :
    (m.mapPlane sh p q g).wf = true ∧
      ∀ a, ¬ (planeBase p ≤ a ∧ a < planeBase p + 4 * (sh.rowWords * sh.height.toNat)) →
        (m.mapPlane sh p q g).byteAt a = m.byteAt a := by
  have hp := planeBase_cases p
  have hq := planeBase_cases q
  obtain ⟨h1, h2⟩ := merge_spec hm (fun k d s => byteOfBits fun t =>
      let i := 8 * k + t
      if sh.columnOf i < sh.width.toNat then g (sh.columnOf i) (sh.rowOf i) (d.getLsbD t) (s.getLsbD t) else d.getLsbD t)
    (lo := planeBase p) (slo := planeBase q) (n := 4 * (sh.rowWords * sh.height.toNat)) (by omega) (by omega)
  exact ⟨h1, fun a ha => by unfold Memory.mapPlane; rw [h2, if_neg ha]⟩

/-- `mapPlane` on a shape that fits the storage, bit by bit (R116): the bits of the shape get their new values, every other
storage bit of every plane stays. -/
theorem planeBit_mapPlane {m : Memory} (hm : m.wf = true) {sh : Shape} (hsh : sh.rowWords * sh.height.toNat ≤ 8192)
    (p q : PlaneId) (g : Nat → Nat → Bool → Bool → Bool) {r : PlaneId} {i : Nat} (hi : i < 262144) :
    (m.mapPlane sh p q g).planeBit r i =
      if r = p ∧ i < 32 * (sh.rowWords * sh.height.toNat) ∧ sh.columnOf i < sh.width.toNat then
        g (sh.columnOf i) (sh.rowOf i) (m.planeBit p i) (m.planeBit q i)
      else m.planeBit r i := by
  have hp := planeBase_cases p
  have hq := planeBase_cases q
  by_cases hr : r = p ∧ i < 32 * (sh.rowWords * sh.height.toNat)
  · obtain ⟨rfl, hlt⟩ := hr
    obtain ⟨-, h2⟩ := merge_spec hm (fun k d s => byteOfBits fun t =>
        let i := 8 * k + t
        if sh.columnOf i < sh.width.toNat then g (sh.columnOf i) (sh.rowOf i) (d.getLsbD t) (s.getLsbD t) else d.getLsbD t)
      (lo := planeBase r) (slo := planeBase q) (n := 4 * (sh.rowWords * sh.height.toNat)) (by omega) (by omega)
    have hin : planeBase r ≤ planeBase r + i / 8 ∧
        planeBase r + i / 8 < planeBase r + 4 * (sh.rowWords * sh.height.toNat) := by omega
    have hb : (m.mapPlane sh r q g).planeByte (planeBase r + i / 8) =
        byteOfBits fun t =>
          let i' := 8 * (i / 8) + t
          if sh.columnOf i' < sh.width.toNat then
            g (sh.columnOf i') (sh.rowOf i') ((m.planeByte (planeBase r + i / 8)).getLsbD t)
              ((m.planeByte (planeBase q + i / 8)).getLsbD t)
          else (m.planeByte (planeBase r + i / 8)).getLsbD t := by
      unfold Memory.planeByte
      rw [Memory.mapPlane, h2, if_pos hin, Nat.add_sub_cancel_left]
      rfl
    rw [Memory.planeBit, hb, getLsbD_byteOfBits, decide_eq_true (Nat.mod_lt _ (by decide)), Bool.true_and]
    simp only [Nat.div_add_mod, true_and, hlt]
    rfl
  · have hout : ¬ (planeBase p ≤ planeBase r + i / 8 ∧
        planeBase r + i / 8 < planeBase p + 4 * (sh.rowWords * sh.height.toNat)) := by
      rintro ⟨h1, h2⟩
      obtain ⟨k, hk⟩ := Nat.exists_eq_add_of_le h1
      obtain ⟨rfl, hk'⟩ := planeBase_inj (p := r) (q := p) (a := i / 8) (b := k) (by omega) (by omega) hk
      exact hr ⟨rfl, by omega⟩
    rw [if_neg (fun h => hr ⟨h.1, h.2.1⟩)]
    exact planeBit_congr ((mapPlane_bytes hm hsh p q g).2 _ hout)

/-- The clearing of a plane's storage: its bytes read 0, every other byte stays. -/
theorem byteAt_clearPlane (m : Memory) (p : PlaneId) (a : Nat) :
    (m.drop (planeBase p) planeBytes).byteAt a =
      if planeBase p ≤ a ∧ a < planeBase p + 32768 then some 0#8 else m.byteAt a := by
  rw [byteAt_drop, planeBytes_eq]
  split
  · next h =>
    obtain ⟨k, rfl⟩ := Nat.exists_eq_add_of_le h.1
    exact (plane_cell (by omega)).2
  · rfl

theorem planeBit_clearPlane (m : Memory) {p r : PlaneId} {i : Nat} (hi : i < 262144) :
    (m.drop (planeBase p) planeBytes).planeBit r i = if r = p then false else m.planeBit r i := by
  have hp := planeBase_cases p
  by_cases hr : r = p
  · subst hr
    rw [if_pos rfl, Memory.planeBit, Memory.planeByte, byteAt_clearPlane, if_pos (by omega)]
    simp
  · rw [if_neg hr]
    refine planeBit_congr ?_
    rw [byteAt_clearPlane, if_neg]
    rintro ⟨h1, h2⟩
    obtain ⟨k, hk⟩ := Nat.exists_eq_add_of_le h1
    exact hr (planeBase_inj (a := i / 8) (b := k) (by omega) (by omega) hk).1

/-- Four bytes written one after another. -/
theorem write4_spec {m : Memory} (hm : m.wf = true) {a : Nat} (ha : ∀ t, t < 4 → isCell (a + t)) (v0 v1 v2 v3 : Byte) :
    ((((m.write a v0).write (a + 1) v1).write (a + 2) v2).write (a + 3) v3).wf = true ∧
      ∀ x, ((((m.write a v0).write (a + 1) v1).write (a + 2) v2).write (a + 3) v3).byteAt x =
        if x = a + 3 then some v3 else if x = a + 2 then some v2 else if x = a + 1 then some v1
        else if x = a then some v0 else m.byteAt x := by
  have h0 : (m.write a v0).wf = true := wf_write hm (ha 0 (by decide)) v0
  have h1 := wf_write h0 (ha 1 (by decide)) v1
  have h2 := wf_write h1 (ha 2 (by decide)) v2
  exact ⟨wf_write h2 (ha 3 (by decide)) v3, fun x => by
    rw [byteAt_write h2, byteAt_write h1, byteAt_write h0, byteAt_write hm]⟩

/-- A host's write of a plane word (R70): the bits of the word that lie in the shape, and no other bit of any plane. -/
theorem writePlaneWord_spec {m : Memory} (hm : m.wf = true) {sh : Shape} (hsh : sh.rowWords * sh.height.toNat ≤ 8192)
    (p : PlaneId) (j : Nat) (v : Word) :
    (m.writePlaneWord sh p j v).wf = true ∧
      (∀ a, ¬ (planeBase p + 4 * j ≤ a ∧ a < planeBase p + 4 * j + 4) → (m.writePlaneWord sh p j v).byteAt a = m.byteAt a) ∧
      ∀ r i, i < 262144 → (m.writePlaneWord sh p j v).planeBit r i =
        if r = p ∧ j < sh.rowWords * sh.height.toNat ∧ i / 32 = j ∧ sh.columnOf i < sh.width.toNat then v.getLsbD (i % 32)
        else m.planeBit r i := by
  unfold Memory.writePlaneWord
  by_cases hj : j < sh.rowWords * sh.height.toNat
  · rw [if_pos hj]
    have hc : ∀ t, t < 4 → isCell (planeBase p + 4 * j + t) := fun t ht => by
      rw [Nat.add_assoc]; exact (plane_cell (by omega)).1
    obtain ⟨h1, h2⟩ := write4_spec hm hc (m.laneWritten sh p j v 0) (m.laneWritten sh p j v 1) (m.laneWritten sh p j v 2)
      (m.laneWritten sh p j v 3)
    refine ⟨h1, fun a ha => ?_, fun r i hi => ?_⟩
    · rw [h2, if_neg (by omega), if_neg (by omega), if_neg (by omega), if_neg (by omega)]
    · rw [Memory.planeBit, Memory.planeByte, h2]
      by_cases hr : r = p ∧ i / 32 = j
      · obtain ⟨rfl, rfl⟩ := hr
        simp only [true_and, hj]
        have lane_bit : ∀ b, i / 8 = 4 * (i / 32) + b → (m.laneWritten sh r (i / 32) v b).getLsbD (i % 8) =
            if sh.columnOf i < sh.width.toNat then v.getLsbD (i % 32) else m.planeBit r i := fun b h => by
          rw [Memory.laneWritten, getLsbD_byteOfBits, decide_eq_true (Nat.mod_lt _ (by decide)), Bool.true_and, show 32 * (i / 32) + 8 * b + i % 8 = i by omega,
            show 8 * b + i % 8 = i % 32 by omega]
        have hl : i / 8 = 4 * (i / 32) + 0 ∨ i / 8 = 4 * (i / 32) + 1 ∨ i / 8 = 4 * (i / 32) + 2 ∨
            i / 8 = 4 * (i / 32) + 3 := by omega
        rcases hl with h | h | h | h
        · rw [if_neg (by omega), if_neg (by omega), if_neg (by omega), if_pos (by omega)]
          exact lane_bit 0 h
        · rw [if_neg (by omega), if_neg (by omega), if_pos (by omega)]
          exact lane_bit 1 h
        · rw [if_neg (by omega), if_pos (by omega)]
          exact lane_bit 2 h
        · rw [if_pos (by omega)]
          exact lane_bit 3 h
      · have key : ∀ t, t < 4 → planeBase r + i / 8 ≠ planeBase p + 4 * j + t := fun t ht h => by
          obtain ⟨rfl, h'⟩ := planeBase_inj (p := r) (q := p) (a := i / 8) (b := 4 * j + t) (by omega) (by omega) (by omega)
          exact hr ⟨rfl, by omega⟩
        rw [if_neg (key 3 (by decide)), if_neg (key 2 (by decide)), if_neg (key 1 (by decide)),
          if_neg (show _ ≠ planeBase p + 4 * j from key 0 (by decide)),
          if_neg fun h => hr ⟨h.1, h.2.2.1⟩]
        rfl
  · rw [if_neg hj]
    exact ⟨hm, fun _ _ => rfl, fun r i _ => by rw [if_neg fun h => hj h.2.1]⟩

theorem laneBits (l0 l1 l2 l3 : Byte) {b : Nat} (hb : b < 32) :
    (l3 ++ l2 ++ l1 ++ l0 : BitVec 32).getLsbD b =
      (if b / 8 = 0 then l0 else if b / 8 = 1 then l1 else if b / 8 = 2 then l2 else l3).getLsbD (b % 8) := by
  have e : (l3 ++ l2 ++ l1 ++ l0 : BitVec 32).getLsbD b = (l3 ++ l2 ++ l1 ++ l0).getLsbD b := rfl
  rw [e, BitVec.getLsbD_append, BitVec.getLsbD_append, BitVec.getLsbD_append]
  have : b / 8 = 0 ∨ b / 8 = 1 ∨ b / 8 = 2 ∨ b / 8 = 3 := by omega
  rcases this with h | h | h | h
  · rw [if_pos (by omega), if_pos h, show b % 8 = b by omega]
  · rw [if_neg (by omega), if_pos (by omega), if_neg (by omega), if_pos h, show b % 8 = b - 8 by omega]
  · rw [if_neg (by omega), if_neg (by omega), if_pos (by omega), if_neg (by omega), if_neg (by omega), if_pos h,
      show b % 8 = b - 8 - 8 by omega]
  · rw [if_neg (by omega), if_neg (by omega), if_neg (by omega), if_neg (by omega), if_neg (by omega), if_neg (by omega),
      show b % 8 = b - 8 - 8 - 8 by omega]

/-- A host's read of a plane word (R70), bit by bit. -/
theorem getLsbD_planeWord (m : Memory) (sh : Shape) (p : PlaneId) (j : Nat) {b : Nat} (hb : b < 32) :
    (m.planeWord sh p j).getLsbD b =
      (decide (j < sh.rowWords * sh.height.toNat) && decide (sh.columnOf (32 * j + b) < sh.width.toNat) &&
        m.planeBit p (32 * j + b)) := by
  unfold Memory.planeWord
  by_cases hj : j < sh.rowWords * sh.height.toNat
  · rw [if_pos hj, decide_eq_true hj, Bool.true_and, laneBits _ _ _ _ hb]
    have lane_bit : ∀ l, b / 8 = l → (m.laneRead sh p j l).getLsbD (b % 8) =
        (decide (sh.columnOf (32 * j + b) < sh.width.toNat) && m.planeBit p (32 * j + b)) := fun l h => by
      rw [Memory.laneRead, getLsbD_byteOfBits, decide_eq_true (Nat.mod_lt _ (by decide)), Bool.true_and,
        show 32 * j + 8 * l + b % 8 = 32 * j + b by omega]
    have : b / 8 = 0 ∨ b / 8 = 1 ∨ b / 8 = 2 ∨ b / 8 = 3 := by omega
    rcases this with h | h | h | h
    · rw [if_pos h]; exact lane_bit 0 h
    · rw [if_neg (by omega), if_pos h]; exact lane_bit 1 h
    · rw [if_neg (by omega), if_neg (by omega), if_pos h]; exact lane_bit 2 h
    · rw [if_neg (by omega), if_neg (by omega), if_neg (by omega)]; exact lane_bit 3 h
  · rw [if_neg hj]
    simp [hj]

end Sys2Proof.Machine
end

