-- ==== Sys2Proof/Laws/Bus.lean ====
section
/-! SUPPORT. The offset decode (R61), window by window. -/

namespace Sys2Proof.Machine

theorem windowOf_reg {a : Nat} (h : a < 0x400) : windowOf a = .reg a := by
  unfold windowOf; rw [if_pos h]

theorem windowOf_sym {j : Nat} (h : j < 256) : windowOf (symAddr j) = .sym j := by
  unfold windowOf symAddr
  rw [if_neg (by omega), if_pos (by omega)]
  congr; omega

theorem windowOf_unmapped {a : Nat} (h : 0x800 ≤ a) (h' : a < 0x10000) : windowOf a = .unmapped := by
  unfold windowOf; rw [if_neg (by omega), if_neg (by omega), if_pos h']

theorem windowOf_plane (p : PlaneId) {j : Nat} (h : j < 8192) : windowOf (planeBase p + 4 * j) = .plane p j := by
  cases p
  · show windowOf (0x10000 + 4 * j) = _
    unfold windowOf
    rw [if_neg (by omega), if_neg (by omega), if_neg (by omega), if_pos (by omega)]
    congr; omega
  · show windowOf (0x18000 + 4 * j) = _
    unfold windowOf
    rw [if_neg (by omega), if_neg (by omega), if_neg (by omega), if_neg (by omega)]
    congr; omega

/-- Only the unmapped range decodes to no window. -/
theorem windowOf_eq_unmapped {a : Nat} : windowOf a = .unmapped ↔ 0x800 ≤ a ∧ a < 0x10000 := by
  constructor
  · intro h
    by_cases h1 : a < 0x400
    · rw [windowOf_reg h1] at h; cases h
    · unfold windowOf at h
      rw [if_neg h1] at h
      split at h
      · cases h
      · split at h
        · omega
        · split at h <;> cases h
  · exact fun h => windowOf_unmapped h.1 h.2

theorem toNat_planeAddr (p : PlaneId) {j : Nat} (h : j < 8192) : (planeAddr p j).toNat = planeBase p + 4 * j := by
  have := planeBase_cases p
  unfold planeAddr
  rw [BitVec.toNat_ofNat]
  omega

theorem toNat_symAddr {j : Nat} (h : j < 256) : (BitVec.ofNat 17 (symAddr j)).toNat = symAddr j := by
  unfold symAddr
  rw [BitVec.toNat_ofNat]
  omega

/-- Every register lies at its offset (R22). -/
theorem regAt_regOffset (r : Reg) : regAt (regOffset r) = some r := by cases r <;> rfl

/-- An ERROR response is given exactly to narrow, misaligned and unmapped transactions (R64, R65, R67). -/
theorem busLegal_eq_true {addr : Offset} {size : Size} :
    busLegal addr size = true ↔ size = .word ∧ addr.toNat % 4 = 0 ∧ ¬ (0x800 ≤ addr.toNat ∧ addr.toNat < 0x10000) := by
  simp only [busLegal, Bool.and_eq_true, beq_iff_eq, bne_iff_ne, ne_eq, windowOf_eq_unmapped, and_assoc]

end Sys2Proof.Machine
end

