-- ==== Sys2Proof/Laws/Field.lean ====
section
/-! SUPPORT. What the table lookups of the field can answer, for any build; and for the builds R8 allows, that LOG undoes EXP, that
the exponents repeat after 255 turns, and that a product with EXP[i] is i turns of the shift register. -/

namespace Sys2Proof.Machine

@[simp] theorem lfsrAfter_zero (c : Config) : lfsrAfter c 0 = 1#9 := rfl

@[simp] theorem lfsrAfter_succ (c : Config) (i : Nat) : lfsrAfter c (i + 1) = lfsr c (lfsrAfter c i) := rfl

/-- The search answers an index of its range whose exponent is `a`, and no earlier index has that exponent. -/
theorem logFrom_some {c : Config} {a : Byte} : ∀ {n i k : Nat}, logFrom c a n i (lfsrAfter c i) = some k →
    i ≤ k ∧ k < i + n ∧ fieldExp c k = a ∧ ∀ j, i ≤ j → j < k → fieldExp c j ≠ a := by
  intro n
  induction n with
  | zero => intro i k h; simp [logFrom] at h
  | succ n ih =>
    intro i k h
    unfold logFrom at h
    split at h
    · next he => cases h; exact ⟨by omega, by omega, he, fun j _ _ => by omega⟩
    · next hne =>
      obtain ⟨h1, h2, h3, h4⟩ := ih (i := i + 1) (by simpa using h)
      refine ⟨by omega, by omega, h3, fun j hj hk => ?_⟩
      by_cases hji : j = i
      · subst hji; exact hne
      · exact h4 j (by omega) hk

/-- The search fails only if no index of its range has the exponent `a`. -/
theorem logFrom_none {c : Config} {a : Byte} : ∀ {n i : Nat}, logFrom c a n i (lfsrAfter c i) = none →
    ∀ j, i ≤ j → j < i + n → fieldExp c j ≠ a := by
  intro n
  induction n with
  | zero => intro i _ j _ _; omega
  | succ n ih =>
    intro i h j hj hk
    unfold logFrom at h
    split at h
    · cases h
    · next hne =>
      by_cases hji : j = i
      · subst hji; exact hne
      · exact ih (i := i + 1) (by simpa using h) j (by omega) (by omega)

@[simp] theorem fieldLog_zero (c : Config) : fieldLog c 0#8 = none := rfl

/-- All that LOG can answer (R142). -/
theorem fieldLog_some {c : Config} {a : Byte} {i : Nat} (h : fieldLog c a = some i) :
    a ≠ 0#8 ∧ i ≤ 254 ∧ fieldExp c i = a ∧ ∀ j, j < i → fieldExp c j ≠ a := by
  unfold fieldLog at h
  split at h
  · cases h
  · next ha =>
    obtain ⟨-, h2, h3, h4⟩ := logFrom_some (i := 0) h
    exact ⟨ha, by omega, h3, fun j hj => h4 j (by omega) hj⟩

/-- A nonzero element without a logarithm is no exponent at all (R142). -/
theorem fieldLog_none {c : Config} {a : Byte} (h : fieldLog c a = none) (ha : a ≠ 0#8) : ∀ j, j < 255 → fieldExp c j ≠ a := by
  unfold fieldLog at h
  rw [if_neg ha] at h
  exact fun j hj => logFrom_none (i := 0) h j (by omega) (by omega)

@[simp] theorem fieldInv_zero (c : Config) : fieldInv c 0#8 = none := rfl

/-- All that the inverse can answer (R147). -/
theorem fieldInv_some {c : Config} {a v : Byte} (h : fieldInv c a = some v) :
    ∃ i, fieldLog c a = some i ∧ v = fieldExp c (255 - i) := by
  obtain ⟨i, hi, hv⟩ := Option.map_eq_some_iff.mp h
  exact ⟨i, hi, hv.symm⟩

@[simp] theorem fieldMul_zero_left (c : Config) (b : Byte) : fieldMul c 0#8 b = 0#8 := by simp [fieldMul]

@[simp] theorem fieldMul_zero_right (c : Config) (a : Byte) : fieldMul c a 0#8 = 0#8 := by simp [fieldMul]

/-- The product of two elements with logarithms (R146). -/
theorem fieldMul_of_logs {c : Config} {a b : Byte} {i j : Nat} (ha : fieldLog c a = some i) (hb : fieldLog c b = some j) :
    fieldMul c a b = fieldExp c ((i + j) % 255) := by
  unfold fieldMul
  rw [if_neg (by simp [(fieldLog_some ha).1, (fieldLog_some hb).1]), ha, hb]

/-! ### The builds R8 allows -/

/-- One turn of the shift register, bit by bit (R141). -/
theorem getLsbD_lfsr (c : Config) (x : BitVec 9) {i : Nat} (hi : i < 9) :
    (lfsr c x).getLsbD i = ((decide (0 < i) && x.getLsbD (i - 1)) ^^ (x.getLsbD 7 && c.primPoly.getLsbD i)) := by
  unfold lfsr
  by_cases h : x.getLsbD 7 = true
  · rw [if_pos (by simp [h]), BitVec.getLsbD_xor, BitVec.getLsbD_shiftLeft, h]
    by_cases h0 : 0 < i <;> simp_all
    intros; omega
  · rw [if_neg (by simpa using h), BitVec.getLsbD_shiftLeft]
    by_cases h0 : 0 < i <;> simp_all
    intros; omega

theorem lfsr_xor (c : Config) (x y : BitVec 9) : lfsr c (x ^^^ y) = lfsr c x ^^^ lfsr c y := by
  apply BitVec.eq_of_getLsbD_eq
  intro i hi
  simp only [BitVec.getLsbD_xor, getLsbD_lfsr c _ hi]
  cases x.getLsbD 7 <;> cases y.getLsbD 7 <;> cases c.primPoly.getLsbD i <;> cases decide (0 < i) <;>
    cases x.getLsbD (i - 1) <;> cases y.getLsbD (i - 1) <;> rfl

theorem getLsbD_lfsr_8 {c : Config} (hc : c.primPoly.getLsbD 8 = true) (x : BitVec 9) : (lfsr c x).getLsbD 8 = false := by
  rw [getLsbD_lfsr c x (by decide), hc]
  simp

theorem getLsbD_lfsrAfter_8 {c : Config} (hc : c.primPoly.getLsbD 8 = true) (i : Nat) : (lfsrAfter c i).getLsbD 8 = false := by
  cases i with
  | zero => rw [lfsrAfter_zero]; decide
  | succ i => exact getLsbD_lfsr_8 hc _

/-- A register whose bit 8 is clear is its low byte. -/
theorem setWidth_setWidth_of_clear {x : BitVec 9} (h : x.getLsbD 8 = false) : (x.setWidth 8).setWidth 9 = x := by
  apply BitVec.eq_of_getLsbD_eq
  intro i hi
  by_cases h8 : i = 8
  · subst h8; simpa using h.symm
  · simp [show i < 9 from hi, show i < 8 by omega]

theorem lfsrAfter_of_fieldExp {c : Config} (hc : c.primPoly.getLsbD 8 = true) (i : Nat) :
    (fieldExp c i).setWidth 9 = lfsrAfter c i := setWidth_setWidth_of_clear (getLsbD_lfsrAfter_8 hc i)

/-- What R8 assumes, as propositions. -/
theorem legalConfig_iff {c : Config} : legalConfig c = true ↔
    c.primPoly.getLsbD 8 = true ∧ c.genBase.toNat ≤ 254 ∧
      (∀ i j, i < 255 → j < 255 → fieldExp c i = fieldExp c j → i = j) ∧ ∀ i, i < 255 → fieldExp c i ≠ 0#8 := by
  simp only [legalConfig, Bool.and_eq_true, decide_eq_true_eq, Bool.not_eq_true', and_assoc, List.nodup_map_iff_inj_on List.nodup_range,
    List.mem_range]
  refine and_congr_right fun _ => and_congr_right fun _ => and_congr ?_ ?_
  · exact ⟨fun h i j hi hj => h i hi j hj, fun h i hi j hj => h i j hi hj⟩
  · rw [← Bool.not_eq_true, List.contains_iff_mem]
    simp only [List.mem_map, List.mem_range, not_exists, not_and]

/-- Every nonzero element is an exponent below 255 (R142). -/
theorem exists_fieldExp {c : Config} (h : legalConfig c = true) {a : Byte} (ha : a ≠ 0#8) : ∃ i, i < 255 ∧ fieldExp c i = a := by
  obtain ⟨-, -, hinj, hne⟩ := legalConfig_iff.1 h
  have hsub : (Finset.range 255).image (fun i => (fieldExp c i).toNat) ⊆ (Finset.range 256).erase 0 := by
    intro x hx
    simp only [Finset.mem_image, Finset.mem_range] at hx
    obtain ⟨i, hi, rfl⟩ := hx
    simp only [Finset.mem_erase, Finset.mem_range]
    exact ⟨fun h0 => hne i hi (BitVec.eq_of_toNat_eq (by simpa using h0)), (fieldExp c i).isLt⟩
  have hcard : ((Finset.range 255).image (fun i => (fieldExp c i).toNat)).card = 255 := by
    rw [Finset.card_image_of_injOn, Finset.card_range]
    intro i hi j hj hij
    exact hinj i j (by simpa using hi) (by simpa using hj) (BitVec.eq_of_toNat_eq hij)
  have heq := Finset.eq_of_subset_of_card_le hsub (by rw [hcard, Finset.card_erase_of_mem (by simp), Finset.card_range])
  have hmem : a.toNat ∈ (Finset.range 256).erase 0 := by
    simp only [Finset.mem_erase, Finset.mem_range]
    exact ⟨fun h0 => ha (BitVec.eq_of_toNat_eq (by simpa using h0)), a.isLt⟩
  rw [← heq] at hmem
  simp only [Finset.mem_image, Finset.mem_range] at hmem
  obtain ⟨i, hi, he⟩ := hmem
  exact ⟨i, hi, BitVec.eq_of_toNat_eq he⟩

/-- LOG undoes EXP below 255 (R142). -/
theorem fieldLog_fieldExp {c : Config} (h : legalConfig c = true) {i : Nat} (hi : i < 255) : fieldLog c (fieldExp c i) = some i := by
  obtain ⟨-, -, hinj, hne⟩ := legalConfig_iff.1 h
  cases hl : fieldLog c (fieldExp c i) with
  | none => exact absurd rfl (fieldLog_none hl (hne i hi) i hi)
  | some k =>
    obtain ⟨-, hk, he, -⟩ := fieldLog_some hl
    rw [hinj k i (by omega) hi he]

/-- The constant term of PRIM_POLY is 1: else no exponent but 1 would be odd. -/
theorem primPoly_odd {c : Config} (h : legalConfig c = true) : c.primPoly.getLsbD 0 = true := by
  obtain ⟨i, hi, he⟩ := exists_fieldExp h (a := 3#8) (by decide)
  cases i with
  | zero => exact absurd he (by rw [fieldExp, lfsrAfter_zero]; decide)
  | succ i =>
    have h0 : (lfsrAfter c (i + 1)).getLsbD 0 = true := by
      have : (fieldExp c (i + 1)).getLsbD 0 = true := by rw [he]; decide
      simpa [fieldExp] using this
    rw [lfsrAfter_succ, getLsbD_lfsr c _ (by decide)] at h0
    simp at h0
    simpa using h0.2

/-- The turn loses nothing of a register whose bit 8 is clear. -/
theorem lfsr_injective {c : Config} (h : legalConfig c = true) {x y : BitVec 9} (hx : x.getLsbD 8 = false) (hy : y.getLsbD 8 = false)
    (hxy : lfsr c x = lfsr c y) : x = y := by
  have hz : lfsr c (x ^^^ y) = 0#9 := by rw [lfsr_xor, hxy, BitVec.xor_self]
  have hbit : ∀ i, i < 9 → (lfsr c (x ^^^ y)).getLsbD i = false := fun i _ => by rw [hz]; simp
  have h7 : (x ^^^ y).getLsbD 7 = false := by
    have := hbit 0 (by decide)
    rw [getLsbD_lfsr c _ (by decide), primPoly_odd h] at this
    simpa using this
  have hxor : x ^^^ y = 0#9 := by
    apply BitVec.eq_of_getLsbD_eq
    intro i hi
    by_cases h8 : i = 8
    · subst h8; rw [BitVec.getLsbD_xor, hx, hy]; rfl
    · have := hbit (i + 1) (by omega)
      rw [getLsbD_lfsr c _ (by omega), h7] at this
      simpa using this
  exact BitVec.xor_eq_zero_iff.1 hxor

/-- The exponents repeat after 255 turns (R141, R149). -/
theorem lfsrAfter_255 {c : Config} (h : legalConfig c = true) : lfsrAfter c 255 = 1#9 := by
  obtain ⟨hp, -, hinj, hne⟩ := legalConfig_iff.1 h
  have hz : lfsrAfter c 255 ≠ 0#9 := by
    intro h0
    have : lfsrAfter c 254 = 0#9 := lfsr_injective h (getLsbD_lfsrAfter_8 hp _) (by decide)
      (by rw [← lfsrAfter_succ, h0]; simp [lfsr])
    exact hne 254 (by decide) (by rw [fieldExp, this]; rfl)
  obtain ⟨k, hk, he⟩ := exists_fieldExp h (a := fieldExp c 255) (by
    intro h0
    apply hz
    rw [← lfsrAfter_of_fieldExp hp, h0]; rfl)
  have hl : lfsrAfter c k = lfsrAfter c 255 := by rw [← lfsrAfter_of_fieldExp hp, he, lfsrAfter_of_fieldExp hp]
  cases k with
  | zero => exact hl.symm
  | succ k =>
    have : lfsrAfter c k = lfsrAfter c 254 := lfsr_injective h (getLsbD_lfsrAfter_8 hp _) (getLsbD_lfsrAfter_8 hp _) hl
    have := hinj k 254 (by omega) (by decide) (by rw [fieldExp, this]; rfl)
    omega

theorem lfsrAfter_add (c : Config) (i j : Nat) : lfsrAfter c (i + j) = (lfsr c)^[i] (lfsrAfter c j) := by
  induction i with
  | zero => simp
  | succ i ih => rw [Function.iterate_succ_apply', ← ih, show i + 1 + j = i + j + 1 by omega, lfsrAfter_succ]

theorem lfsrAfter_mod {c : Config} (h : legalConfig c = true) (i : Nat) : lfsrAfter c (i % 255) = lfsrAfter c i := by
  have period : ∀ k, lfsrAfter c (k + 255) = lfsrAfter c k := fun k => by
    rw [lfsrAfter_add, lfsrAfter_255 h, ← lfsrAfter_zero c, ← lfsrAfter_add, Nat.add_zero]
  have : ∀ q, lfsrAfter c (i % 255 + 255 * q) = lfsrAfter c (i % 255) := fun q => by
    induction q with
    | zero => rfl
    | succ q ih => rw [show i % 255 + 255 * (q + 1) = i % 255 + 255 * q + 255 by omega, period, ih]
  rw [← this (i / 255), Nat.mod_add_div]

/-- Every exponent index may be reduced modulo 255 (R149). -/
theorem fieldExp_mod {c : Config} (h : legalConfig c = true) (i : Nat) : fieldExp c (i % 255) = fieldExp c i := by
  rw [fieldExp, lfsrAfter_mod h, fieldExp]

theorem lfsr_iterate_xor (c : Config) (n : Nat) (x y : BitVec 9) : (lfsr c)^[n] (x ^^^ y) = (lfsr c)^[n] x ^^^ (lfsr c)^[n] y := by
  induction n with
  | zero => rfl
  | succ n ih => rw [Function.iterate_succ_apply', ih, lfsr_xor, Function.iterate_succ_apply', Function.iterate_succ_apply']

theorem lfsr_iterate_zero (c : Config) (n : Nat) : (lfsr c)^[n] 0#9 = 0#9 := by
  induction n with
  | zero => rfl
  | succ n ih => rw [Function.iterate_succ_apply', ih]; simp [lfsr]

/-- The product with EXP[i] is `i` turns of the shift register from the other factor: what makes the product linear (R149). -/
theorem fieldMul_fieldExp {c : Config} (h : legalConfig c = true) (a : Byte) (i : Nat) :
    fieldMul c a (fieldExp c i) = ((lfsr c)^[i] (a.setWidth 9)).setWidth 8 := by
  obtain ⟨hp, -, -, -⟩ := legalConfig_iff.1 h
  by_cases ha : a = 0#8
  · subst ha
    rw [fieldMul_zero_left, show (0#8).setWidth 9 = 0#9 from rfl, lfsr_iterate_zero]
    rfl
  · obtain ⟨j, hj, rfl⟩ := exists_fieldExp h ha
    rw [← fieldExp_mod h i, fieldMul_of_logs (fieldLog_fieldExp h hj) (fieldLog_fieldExp h (Nat.mod_lt _ (by decide))),
      fieldExp_mod h, lfsrAfter_of_fieldExp hp, ← lfsrAfter_add, fieldExp, ← lfsrAfter_mod h, ← lfsrAfter_mod h (i + j)]
    congr 2
    omega

end Sys2Proof.Machine
end

