-- ==== Sys2Proof/Laws/State.lean ====
section
/-! SUPPORT. What each named update of the state leaves in each field: one lemma per field per update, true by rfl. -/

namespace Sys2Proof.Machine

@[simp] theorem setResult_ie (s : State) (v : Word) : (s.setResult v).ie = s.ie := rfl
@[simp] theorem setResult_done (s : State) (v : Word) : (s.setResult v).done = s.done := rfl
@[simp] theorem setResult_err (s : State) (v : Word) : (s.setResult v).err = s.err := rfl
@[simp] theorem setResult_busyErr (s : State) (v : Word) : (s.setResult v).busyErr = s.busyErr := rfl
@[simp] theorem setResult_busErr (s : State) (v : Word) : (s.setResult v).busErr = s.busErr := rfl
@[simp] theorem setResult_errcode (s : State) (v : Word) : (s.setResult v).errcode = s.errcode := rfl
@[simp] theorem setResult_cmd (s : State) (v : Word) : (s.setResult v).cmd = s.cmd := rfl
@[simp] theorem setResult_result (s : State) (v : Word) : (s.setResult v).result = v := rfl
@[simp] theorem setResult_args (s : State) (v : Word) : (s.setResult v).args = s.args := rfl
@[simp] theorem setResult_shape0 (s : State) (v : Word) : (s.setResult v).shape0 = s.shape0 := rfl
@[simp] theorem setResult_shape1 (s : State) (v : Word) : (s.setResult v).shape1 = s.shape1 := rfl
@[simp] theorem setResult_mem (s : State) (v : Word) : (s.setResult v).mem = s.mem := rfl
@[simp] theorem setResult_pending (s : State) (v : Word) : (s.setResult v).pending = s.pending := rfl
@[simp] theorem setResult_rst (s : State) (v : Word) : (s.setResult v).rst = s.rst := rfl
@[simp] theorem setResult_draws (s : State) (v : Word) : (s.setResult v).draws = s.draws := rfl
@[simp] theorem setResult_delay (s : State) (v : Word) : (s.setResult v).delay = s.delay := rfl
@[simp] theorem setResult_host (s : State) (v : Word) : (s.setResult v).host = s.host := rfl
@[simp] theorem setResult_response (s : State) (v : Word) : (s.setResult v).response = s.response := rfl
@[simp] theorem setResult_build (s : State) (v : Word) : (s.setResult v).build = s.build := rfl

@[simp] theorem setBit_ie (s : State) (p : PlaneId) (x y : Nat) (b : Bool) : (s.setBit p x y b).ie = s.ie := rfl
@[simp] theorem setBit_done (s : State) (p : PlaneId) (x y : Nat) (b : Bool) : (s.setBit p x y b).done = s.done := rfl
@[simp] theorem setBit_err (s : State) (p : PlaneId) (x y : Nat) (b : Bool) : (s.setBit p x y b).err = s.err := rfl
@[simp] theorem setBit_busyErr (s : State) (p : PlaneId) (x y : Nat) (b : Bool) : (s.setBit p x y b).busyErr = s.busyErr := rfl
@[simp] theorem setBit_busErr (s : State) (p : PlaneId) (x y : Nat) (b : Bool) : (s.setBit p x y b).busErr = s.busErr := rfl
@[simp] theorem setBit_errcode (s : State) (p : PlaneId) (x y : Nat) (b : Bool) : (s.setBit p x y b).errcode = s.errcode := rfl
@[simp] theorem setBit_cmd (s : State) (p : PlaneId) (x y : Nat) (b : Bool) : (s.setBit p x y b).cmd = s.cmd := rfl
@[simp] theorem setBit_result (s : State) (p : PlaneId) (x y : Nat) (b : Bool) : (s.setBit p x y b).result = s.result := rfl
@[simp] theorem setBit_args (s : State) (p : PlaneId) (x y : Nat) (b : Bool) : (s.setBit p x y b).args = s.args := rfl
@[simp] theorem setBit_shape0 (s : State) (p : PlaneId) (x y : Nat) (b : Bool) : (s.setBit p x y b).shape0 = s.shape0 := rfl
@[simp] theorem setBit_shape1 (s : State) (p : PlaneId) (x y : Nat) (b : Bool) : (s.setBit p x y b).shape1 = s.shape1 := rfl
@[simp] theorem setBit_mem (s : State) (p : PlaneId) (x y : Nat) (b : Bool) : (s.setBit p x y b).mem = s.mem.writePlaneBit p ((s.shape p).bitIndex x y) b := rfl
@[simp] theorem setBit_pending (s : State) (p : PlaneId) (x y : Nat) (b : Bool) : (s.setBit p x y b).pending = s.pending := rfl
@[simp] theorem setBit_rst (s : State) (p : PlaneId) (x y : Nat) (b : Bool) : (s.setBit p x y b).rst = s.rst := rfl
@[simp] theorem setBit_draws (s : State) (p : PlaneId) (x y : Nat) (b : Bool) : (s.setBit p x y b).draws = s.draws := rfl
@[simp] theorem setBit_delay (s : State) (p : PlaneId) (x y : Nat) (b : Bool) : (s.setBit p x y b).delay = s.delay := rfl
@[simp] theorem setBit_host (s : State) (p : PlaneId) (x y : Nat) (b : Bool) : (s.setBit p x y b).host = s.host := rfl
@[simp] theorem setBit_response (s : State) (p : PlaneId) (x y : Nat) (b : Bool) : (s.setBit p x y b).response = s.response := rfl
@[simp] theorem setBit_build (s : State) (p : PlaneId) (x y : Nat) (b : Bool) : (s.setBit p x y b).build = s.build := rfl

@[simp] theorem mapPlane_ie (s : State) (p q : PlaneId) (g : Nat → Nat → Bool → Bool → Bool) : (s.mapPlane p q g).ie = s.ie := rfl
@[simp] theorem mapPlane_done (s : State) (p q : PlaneId) (g : Nat → Nat → Bool → Bool → Bool) : (s.mapPlane p q g).done = s.done := rfl
@[simp] theorem mapPlane_err (s : State) (p q : PlaneId) (g : Nat → Nat → Bool → Bool → Bool) : (s.mapPlane p q g).err = s.err := rfl
@[simp] theorem mapPlane_busyErr (s : State) (p q : PlaneId) (g : Nat → Nat → Bool → Bool → Bool) : (s.mapPlane p q g).busyErr = s.busyErr := rfl
@[simp] theorem mapPlane_busErr (s : State) (p q : PlaneId) (g : Nat → Nat → Bool → Bool → Bool) : (s.mapPlane p q g).busErr = s.busErr := rfl
@[simp] theorem mapPlane_errcode (s : State) (p q : PlaneId) (g : Nat → Nat → Bool → Bool → Bool) : (s.mapPlane p q g).errcode = s.errcode := rfl
@[simp] theorem mapPlane_cmd (s : State) (p q : PlaneId) (g : Nat → Nat → Bool → Bool → Bool) : (s.mapPlane p q g).cmd = s.cmd := rfl
@[simp] theorem mapPlane_result (s : State) (p q : PlaneId) (g : Nat → Nat → Bool → Bool → Bool) : (s.mapPlane p q g).result = s.result := rfl
@[simp] theorem mapPlane_args (s : State) (p q : PlaneId) (g : Nat → Nat → Bool → Bool → Bool) : (s.mapPlane p q g).args = s.args := rfl
@[simp] theorem mapPlane_shape0 (s : State) (p q : PlaneId) (g : Nat → Nat → Bool → Bool → Bool) : (s.mapPlane p q g).shape0 = s.shape0 := rfl
@[simp] theorem mapPlane_shape1 (s : State) (p q : PlaneId) (g : Nat → Nat → Bool → Bool → Bool) : (s.mapPlane p q g).shape1 = s.shape1 := rfl
@[simp] theorem mapPlane_mem (s : State) (p q : PlaneId) (g : Nat → Nat → Bool → Bool → Bool) : (s.mapPlane p q g).mem = s.mem.mapPlane (s.shape p) p q g := rfl
@[simp] theorem mapPlane_pending (s : State) (p q : PlaneId) (g : Nat → Nat → Bool → Bool → Bool) : (s.mapPlane p q g).pending = s.pending := rfl
@[simp] theorem mapPlane_rst (s : State) (p q : PlaneId) (g : Nat → Nat → Bool → Bool → Bool) : (s.mapPlane p q g).rst = s.rst := rfl
@[simp] theorem mapPlane_draws (s : State) (p q : PlaneId) (g : Nat → Nat → Bool → Bool → Bool) : (s.mapPlane p q g).draws = s.draws := rfl
@[simp] theorem mapPlane_delay (s : State) (p q : PlaneId) (g : Nat → Nat → Bool → Bool → Bool) : (s.mapPlane p q g).delay = s.delay := rfl
@[simp] theorem mapPlane_host (s : State) (p q : PlaneId) (g : Nat → Nat → Bool → Bool → Bool) : (s.mapPlane p q g).host = s.host := rfl
@[simp] theorem mapPlane_response (s : State) (p q : PlaneId) (g : Nat → Nat → Bool → Bool → Bool) : (s.mapPlane p q g).response = s.response := rfl
@[simp] theorem mapPlane_build (s : State) (p q : PlaneId) (g : Nat → Nat → Bool → Bool → Bool) : (s.mapPlane p q g).build = s.build := rfl

@[simp] theorem writeSyms_ie (s : State) (j : Nat) (l : List Byte) : (s.writeSyms j l).ie = s.ie := rfl
@[simp] theorem writeSyms_done (s : State) (j : Nat) (l : List Byte) : (s.writeSyms j l).done = s.done := rfl
@[simp] theorem writeSyms_err (s : State) (j : Nat) (l : List Byte) : (s.writeSyms j l).err = s.err := rfl
@[simp] theorem writeSyms_busyErr (s : State) (j : Nat) (l : List Byte) : (s.writeSyms j l).busyErr = s.busyErr := rfl
@[simp] theorem writeSyms_busErr (s : State) (j : Nat) (l : List Byte) : (s.writeSyms j l).busErr = s.busErr := rfl
@[simp] theorem writeSyms_errcode (s : State) (j : Nat) (l : List Byte) : (s.writeSyms j l).errcode = s.errcode := rfl
@[simp] theorem writeSyms_cmd (s : State) (j : Nat) (l : List Byte) : (s.writeSyms j l).cmd = s.cmd := rfl
@[simp] theorem writeSyms_result (s : State) (j : Nat) (l : List Byte) : (s.writeSyms j l).result = s.result := rfl
@[simp] theorem writeSyms_args (s : State) (j : Nat) (l : List Byte) : (s.writeSyms j l).args = s.args := rfl
@[simp] theorem writeSyms_shape0 (s : State) (j : Nat) (l : List Byte) : (s.writeSyms j l).shape0 = s.shape0 := rfl
@[simp] theorem writeSyms_shape1 (s : State) (j : Nat) (l : List Byte) : (s.writeSyms j l).shape1 = s.shape1 := rfl
@[simp] theorem writeSyms_mem (s : State) (j : Nat) (l : List Byte) : (s.writeSyms j l).mem = s.mem.writeSyms j l := rfl
@[simp] theorem writeSyms_pending (s : State) (j : Nat) (l : List Byte) : (s.writeSyms j l).pending = s.pending := rfl
@[simp] theorem writeSyms_rst (s : State) (j : Nat) (l : List Byte) : (s.writeSyms j l).rst = s.rst := rfl
@[simp] theorem writeSyms_draws (s : State) (j : Nat) (l : List Byte) : (s.writeSyms j l).draws = s.draws := rfl
@[simp] theorem writeSyms_delay (s : State) (j : Nat) (l : List Byte) : (s.writeSyms j l).delay = s.delay := rfl
@[simp] theorem writeSyms_host (s : State) (j : Nat) (l : List Byte) : (s.writeSyms j l).host = s.host := rfl
@[simp] theorem writeSyms_response (s : State) (j : Nat) (l : List Byte) : (s.writeSyms j l).response = s.response := rfl
@[simp] theorem writeSyms_build (s : State) (j : Nat) (l : List Byte) : (s.writeSyms j l).build = s.build := rfl

@[simp] theorem completeOk_ie (s : State) : (s.completeOk).ie = s.ie := rfl
@[simp] theorem completeOk_done (s : State) : (s.completeOk).done = true := rfl
@[simp] theorem completeOk_err (s : State) : (s.completeOk).err = s.err := rfl
@[simp] theorem completeOk_busyErr (s : State) : (s.completeOk).busyErr = s.busyErr := rfl
@[simp] theorem completeOk_busErr (s : State) : (s.completeOk).busErr = s.busErr := rfl
@[simp] theorem completeOk_errcode (s : State) : (s.completeOk).errcode = s.errcode := rfl
@[simp] theorem completeOk_cmd (s : State) : (s.completeOk).cmd = s.cmd := rfl
@[simp] theorem completeOk_result (s : State) : (s.completeOk).result = s.result := rfl
@[simp] theorem completeOk_args (s : State) : (s.completeOk).args = s.args := rfl
@[simp] theorem completeOk_shape0 (s : State) : (s.completeOk).shape0 = s.shape0 := rfl
@[simp] theorem completeOk_shape1 (s : State) : (s.completeOk).shape1 = s.shape1 := rfl
@[simp] theorem completeOk_mem (s : State) : (s.completeOk).mem = s.mem := rfl
@[simp] theorem completeOk_pending (s : State) : (s.completeOk).pending = none := rfl
@[simp] theorem completeOk_rst (s : State) : (s.completeOk).rst = s.rst := rfl
@[simp] theorem completeOk_draws (s : State) : (s.completeOk).draws = s.draws := rfl
@[simp] theorem completeOk_delay (s : State) : (s.completeOk).delay = s.delay := rfl
@[simp] theorem completeOk_host (s : State) : (s.completeOk).host = s.host := rfl
@[simp] theorem completeOk_response (s : State) : (s.completeOk).response = s.response := rfl
@[simp] theorem completeOk_build (s : State) : (s.completeOk).build = s.build := rfl

@[simp] theorem completeErr_ie (s : State) (e : CmdError) : (s.completeErr e).ie = s.ie := rfl
@[simp] theorem completeErr_done (s : State) (e : CmdError) : (s.completeErr e).done = true := rfl
@[simp] theorem completeErr_err (s : State) (e : CmdError) : (s.completeErr e).err = true := rfl
@[simp] theorem completeErr_busyErr (s : State) (e : CmdError) : (s.completeErr e).busyErr = s.busyErr := rfl
@[simp] theorem completeErr_busErr (s : State) (e : CmdError) : (s.completeErr e).busErr = s.busErr := rfl
@[simp] theorem completeErr_errcode (s : State) (e : CmdError) : (s.completeErr e).errcode = some e := rfl
@[simp] theorem completeErr_cmd (s : State) (e : CmdError) : (s.completeErr e).cmd = s.cmd := rfl
@[simp] theorem completeErr_result (s : State) (e : CmdError) : (s.completeErr e).result = s.result := rfl
@[simp] theorem completeErr_args (s : State) (e : CmdError) : (s.completeErr e).args = s.args := rfl
@[simp] theorem completeErr_shape0 (s : State) (e : CmdError) : (s.completeErr e).shape0 = s.shape0 := rfl
@[simp] theorem completeErr_shape1 (s : State) (e : CmdError) : (s.completeErr e).shape1 = s.shape1 := rfl
@[simp] theorem completeErr_mem (s : State) (e : CmdError) : (s.completeErr e).mem = s.mem := rfl
@[simp] theorem completeErr_pending (s : State) (e : CmdError) : (s.completeErr e).pending = none := rfl
@[simp] theorem completeErr_rst (s : State) (e : CmdError) : (s.completeErr e).rst = s.rst := rfl
@[simp] theorem completeErr_draws (s : State) (e : CmdError) : (s.completeErr e).draws = s.draws := rfl
@[simp] theorem completeErr_delay (s : State) (e : CmdError) : (s.completeErr e).delay = s.delay := rfl
@[simp] theorem completeErr_host (s : State) (e : CmdError) : (s.completeErr e).host = s.host := rfl
@[simp] theorem completeErr_response (s : State) (e : CmdError) : (s.completeErr e).response = s.response := rfl
@[simp] theorem completeErr_build (s : State) (e : CmdError) : (s.completeErr e).build = s.build := rfl

@[simp] theorem accept_ie (s : State) (w : Word) : (s.accept w).ie = s.ie := rfl
@[simp] theorem accept_done (s : State) (w : Word) : (s.accept w).done = false := rfl
@[simp] theorem accept_err (s : State) (w : Word) : (s.accept w).err = false := rfl
@[simp] theorem accept_busyErr (s : State) (w : Word) : (s.accept w).busyErr = s.busyErr := rfl
@[simp] theorem accept_busErr (s : State) (w : Word) : (s.accept w).busErr = s.busErr := rfl
@[simp] theorem accept_errcode (s : State) (w : Word) : (s.accept w).errcode = none := rfl
@[simp] theorem accept_cmd (s : State) (w : Word) : (s.accept w).cmd = w := rfl
@[simp] theorem accept_result (s : State) (w : Word) : (s.accept w).result = s.result := rfl
@[simp] theorem accept_args (s : State) (w : Word) : (s.accept w).args = s.args := rfl
@[simp] theorem accept_shape0 (s : State) (w : Word) : (s.accept w).shape0 = s.shape0 := rfl
@[simp] theorem accept_shape1 (s : State) (w : Word) : (s.accept w).shape1 = s.shape1 := rfl
@[simp] theorem accept_mem (s : State) (w : Word) : (s.accept w).mem = s.mem := rfl
@[simp] theorem accept_pending (s : State) (w : Word) : (s.accept w).pending = some { word := w, args := s.args } := rfl
@[simp] theorem accept_rst (s : State) (w : Word) : (s.accept w).rst = s.rst := rfl
@[simp] theorem accept_draws (s : State) (w : Word) : (s.accept w).draws = s.draws := rfl
@[simp] theorem accept_delay (s : State) (w : Word) : (s.accept w).delay = s.delay := rfl
@[simp] theorem accept_host (s : State) (w : Word) : (s.accept w).host = s.host := rfl
@[simp] theorem accept_response (s : State) (w : Word) : (s.accept w).response = s.response := rfl
@[simp] theorem accept_build (s : State) (w : Word) : (s.accept w).build = s.build := rfl

@[simp] theorem busError_ie (s : State) : (s.busError).ie = s.ie := rfl
@[simp] theorem busError_done (s : State) : (s.busError).done = s.done := rfl
@[simp] theorem busError_err (s : State) : (s.busError).err = s.err := rfl
@[simp] theorem busError_busyErr (s : State) : (s.busError).busyErr = s.busyErr := rfl
@[simp] theorem busError_busErr (s : State) : (s.busError).busErr = true := rfl
@[simp] theorem busError_errcode (s : State) : (s.busError).errcode = s.errcode := rfl
@[simp] theorem busError_cmd (s : State) : (s.busError).cmd = s.cmd := rfl
@[simp] theorem busError_result (s : State) : (s.busError).result = s.result := rfl
@[simp] theorem busError_args (s : State) : (s.busError).args = s.args := rfl
@[simp] theorem busError_shape0 (s : State) : (s.busError).shape0 = s.shape0 := rfl
@[simp] theorem busError_shape1 (s : State) : (s.busError).shape1 = s.shape1 := rfl
@[simp] theorem busError_mem (s : State) : (s.busError).mem = s.mem := rfl
@[simp] theorem busError_pending (s : State) : (s.busError).pending = s.pending := rfl
@[simp] theorem busError_rst (s : State) : (s.busError).rst = s.rst := rfl
@[simp] theorem busError_draws (s : State) : (s.busError).draws = s.draws := rfl
@[simp] theorem busError_delay (s : State) : (s.busError).delay = s.delay := rfl
@[simp] theorem busError_host (s : State) : (s.busError).host = s.host := rfl
@[simp] theorem busError_response (s : State) : (s.busError).response = s.response := rfl
@[simp] theorem busError_build (s : State) : (s.busError).build = s.build := rfl

@[simp] theorem dropWrite_ie (s : State) : (s.dropWrite).ie = s.ie := rfl
@[simp] theorem dropWrite_done (s : State) : (s.dropWrite).done = s.done := rfl
@[simp] theorem dropWrite_err (s : State) : (s.dropWrite).err = s.err := rfl
@[simp] theorem dropWrite_busyErr (s : State) : (s.dropWrite).busyErr = true := rfl
@[simp] theorem dropWrite_busErr (s : State) : (s.dropWrite).busErr = s.busErr := rfl
@[simp] theorem dropWrite_errcode (s : State) : (s.dropWrite).errcode = s.errcode := rfl
@[simp] theorem dropWrite_cmd (s : State) : (s.dropWrite).cmd = s.cmd := rfl
@[simp] theorem dropWrite_result (s : State) : (s.dropWrite).result = s.result := rfl
@[simp] theorem dropWrite_args (s : State) : (s.dropWrite).args = s.args := rfl
@[simp] theorem dropWrite_shape0 (s : State) : (s.dropWrite).shape0 = s.shape0 := rfl
@[simp] theorem dropWrite_shape1 (s : State) : (s.dropWrite).shape1 = s.shape1 := rfl
@[simp] theorem dropWrite_mem (s : State) : (s.dropWrite).mem = s.mem := rfl
@[simp] theorem dropWrite_pending (s : State) : (s.dropWrite).pending = s.pending := rfl
@[simp] theorem dropWrite_rst (s : State) : (s.dropWrite).rst = s.rst := rfl
@[simp] theorem dropWrite_draws (s : State) : (s.dropWrite).draws = s.draws := rfl
@[simp] theorem dropWrite_delay (s : State) : (s.dropWrite).delay = s.delay := rfl
@[simp] theorem dropWrite_host (s : State) : (s.dropWrite).host = s.host := rfl
@[simp] theorem dropWrite_response (s : State) : (s.dropWrite).response = s.response := rfl
@[simp] theorem dropWrite_build (s : State) : (s.dropWrite).build = s.build := rfl

@[simp] theorem writeStatus_ie (s : State) (v : Word) : (s.writeStatus v).ie = s.ie := rfl
@[simp] theorem writeStatus_done (s : State) (v : Word) : (s.writeStatus v).done = (s.done && !v.getLsbD 1) := rfl
@[simp] theorem writeStatus_err (s : State) (v : Word) : (s.writeStatus v).err = (s.err && !v.getLsbD 2) := rfl
@[simp] theorem writeStatus_busyErr (s : State) (v : Word) : (s.writeStatus v).busyErr = (s.busyErr && !v.getLsbD 3) := rfl
@[simp] theorem writeStatus_busErr (s : State) (v : Word) : (s.writeStatus v).busErr = (s.busErr && !v.getLsbD 4) := rfl
@[simp] theorem writeStatus_errcode (s : State) (v : Word) : (s.writeStatus v).errcode = s.errcode := rfl
@[simp] theorem writeStatus_cmd (s : State) (v : Word) : (s.writeStatus v).cmd = s.cmd := rfl
@[simp] theorem writeStatus_result (s : State) (v : Word) : (s.writeStatus v).result = s.result := rfl
@[simp] theorem writeStatus_args (s : State) (v : Word) : (s.writeStatus v).args = s.args := rfl
@[simp] theorem writeStatus_shape0 (s : State) (v : Word) : (s.writeStatus v).shape0 = s.shape0 := rfl
@[simp] theorem writeStatus_shape1 (s : State) (v : Word) : (s.writeStatus v).shape1 = s.shape1 := rfl
@[simp] theorem writeStatus_mem (s : State) (v : Word) : (s.writeStatus v).mem = s.mem := rfl
@[simp] theorem writeStatus_pending (s : State) (v : Word) : (s.writeStatus v).pending = s.pending := rfl
@[simp] theorem writeStatus_rst (s : State) (v : Word) : (s.writeStatus v).rst = s.rst := rfl
@[simp] theorem writeStatus_draws (s : State) (v : Word) : (s.writeStatus v).draws = s.draws := rfl
@[simp] theorem writeStatus_delay (s : State) (v : Word) : (s.writeStatus v).delay = s.delay := rfl
@[simp] theorem writeStatus_host (s : State) (v : Word) : (s.writeStatus v).host = s.host := rfl
@[simp] theorem writeStatus_response (s : State) (v : Word) : (s.writeStatus v).response = s.response := rfl
@[simp] theorem writeStatus_build (s : State) (v : Word) : (s.writeStatus v).build = s.build := rfl

@[simp] theorem hardReset_ie (s : State) : (s.hardReset).ie = false := rfl
@[simp] theorem hardReset_done (s : State) : (s.hardReset).done = false := rfl
@[simp] theorem hardReset_err (s : State) : (s.hardReset).err = false := rfl
@[simp] theorem hardReset_busyErr (s : State) : (s.hardReset).busyErr = false := rfl
@[simp] theorem hardReset_busErr (s : State) : (s.hardReset).busErr = false := rfl
@[simp] theorem hardReset_errcode (s : State) : (s.hardReset).errcode = none := rfl
@[simp] theorem hardReset_cmd (s : State) : (s.hardReset).cmd = 0#32 := rfl
@[simp] theorem hardReset_result (s : State) : (s.hardReset).result = 0#32 := rfl
@[simp] theorem hardReset_args (s : State) : (s.hardReset).args = Args.zero := rfl
@[simp] theorem hardReset_shape0 (s : State) : (s.hardReset).shape0 = Shape.none := rfl
@[simp] theorem hardReset_shape1 (s : State) : (s.hardReset).shape1 = Shape.none := rfl
@[simp] theorem hardReset_mem (s : State) : (s.hardReset).mem = [] := rfl
@[simp] theorem hardReset_pending (s : State) : (s.hardReset).pending = none := rfl
@[simp] theorem hardReset_rst (s : State) : (s.hardReset).rst = s.rst := rfl
@[simp] theorem hardReset_draws (s : State) : (s.hardReset).draws = s.draws := rfl
@[simp] theorem hardReset_delay (s : State) : (s.hardReset).delay = 0 := rfl
@[simp] theorem hardReset_host (s : State) : (s.hardReset).host = s.host := rfl
@[simp] theorem hardReset_response (s : State) : (s.hardReset).response = s.response := rfl
@[simp] theorem hardReset_build (s : State) : (s.hardReset).build = s.build := rfl

@[simp] theorem softReset_ie (s : State) : (s.softReset).ie = false := rfl
@[simp] theorem softReset_done (s : State) : (s.softReset).done = false := rfl
@[simp] theorem softReset_err (s : State) : (s.softReset).err = false := rfl
@[simp] theorem softReset_busyErr (s : State) : (s.softReset).busyErr = false := rfl
@[simp] theorem softReset_busErr (s : State) : (s.softReset).busErr = false := rfl
@[simp] theorem softReset_errcode (s : State) : (s.softReset).errcode = none := rfl
@[simp] theorem softReset_cmd (s : State) : (s.softReset).cmd = 0#32 := rfl
@[simp] theorem softReset_result (s : State) : (s.softReset).result = 0#32 := rfl
@[simp] theorem softReset_args (s : State) : (s.softReset).args = Args.zero := rfl
@[simp] theorem softReset_shape0 (s : State) : (s.softReset).shape0 = Shape.none := rfl
@[simp] theorem softReset_shape1 (s : State) : (s.softReset).shape1 = Shape.none := rfl
@[simp] theorem softReset_mem (s : State) : (s.softReset).mem = s.softResetMem := rfl
@[simp] theorem softReset_pending (s : State) : (s.softReset).pending = none := rfl
@[simp] theorem softReset_rst (s : State) : (s.softReset).rst = s.rst := rfl
@[simp] theorem softReset_draws (s : State) : (s.softReset).draws = s.draws + Config.symDepth := rfl
@[simp] theorem softReset_delay (s : State) : (s.softReset).delay = 0 := rfl
@[simp] theorem softReset_host (s : State) : (s.softReset).host = s.host := rfl
@[simp] theorem softReset_response (s : State) : (s.softReset).response = s.response := rfl
@[simp] theorem softReset_build (s : State) : (s.softReset).build = s.build := rfl

@[simp] theorem setShape_ie (s : State) (p : PlaneId) (sh : Shape) : (s.setShape p sh).ie = s.ie := by cases p <;> rfl
@[simp] theorem setShape_done (s : State) (p : PlaneId) (sh : Shape) : (s.setShape p sh).done = s.done := by cases p <;> rfl
@[simp] theorem setShape_err (s : State) (p : PlaneId) (sh : Shape) : (s.setShape p sh).err = s.err := by cases p <;> rfl
@[simp] theorem setShape_busyErr (s : State) (p : PlaneId) (sh : Shape) : (s.setShape p sh).busyErr = s.busyErr := by cases p <;> rfl
@[simp] theorem setShape_busErr (s : State) (p : PlaneId) (sh : Shape) : (s.setShape p sh).busErr = s.busErr := by cases p <;> rfl
@[simp] theorem setShape_errcode (s : State) (p : PlaneId) (sh : Shape) : (s.setShape p sh).errcode = s.errcode := by cases p <;> rfl
@[simp] theorem setShape_cmd (s : State) (p : PlaneId) (sh : Shape) : (s.setShape p sh).cmd = s.cmd := by cases p <;> rfl
@[simp] theorem setShape_result (s : State) (p : PlaneId) (sh : Shape) : (s.setShape p sh).result = s.result := by cases p <;> rfl
@[simp] theorem setShape_args (s : State) (p : PlaneId) (sh : Shape) : (s.setShape p sh).args = s.args := by cases p <;> rfl
@[simp] theorem setShape_mem (s : State) (p : PlaneId) (sh : Shape) : (s.setShape p sh).mem = s.mem := by cases p <;> rfl
@[simp] theorem setShape_pending (s : State) (p : PlaneId) (sh : Shape) : (s.setShape p sh).pending = s.pending := by cases p <;> rfl
@[simp] theorem setShape_rst (s : State) (p : PlaneId) (sh : Shape) : (s.setShape p sh).rst = s.rst := by cases p <;> rfl
@[simp] theorem setShape_draws (s : State) (p : PlaneId) (sh : Shape) : (s.setShape p sh).draws = s.draws := by cases p <;> rfl
@[simp] theorem setShape_delay (s : State) (p : PlaneId) (sh : Shape) : (s.setShape p sh).delay = s.delay := by cases p <;> rfl
@[simp] theorem setShape_host (s : State) (p : PlaneId) (sh : Shape) : (s.setShape p sh).host = s.host := by cases p <;> rfl
@[simp] theorem setShape_response (s : State) (p : PlaneId) (sh : Shape) : (s.setShape p sh).response = s.response := by cases p <;> rfl
@[simp] theorem setShape_build (s : State) (p : PlaneId) (sh : Shape) : (s.setShape p sh).build = s.build := by cases p <;> rfl
@[simp] theorem setShape_shape (s : State) (p q : PlaneId) (sh : Shape) :
    (s.setShape p sh).shape q = if q = p then sh else s.shape q := by cases p <;> cases q <;> rfl

@[simp] theorem initPlane_ie (s : State) (p : PlaneId) (w h : Nat) : (s.initPlane p w h).ie = s.ie := by cases p <;> rfl
@[simp] theorem initPlane_done (s : State) (p : PlaneId) (w h : Nat) : (s.initPlane p w h).done = s.done := by cases p <;> rfl
@[simp] theorem initPlane_err (s : State) (p : PlaneId) (w h : Nat) : (s.initPlane p w h).err = s.err := by cases p <;> rfl
@[simp] theorem initPlane_busyErr (s : State) (p : PlaneId) (w h : Nat) : (s.initPlane p w h).busyErr = s.busyErr := by cases p <;> rfl
@[simp] theorem initPlane_busErr (s : State) (p : PlaneId) (w h : Nat) : (s.initPlane p w h).busErr = s.busErr := by cases p <;> rfl
@[simp] theorem initPlane_errcode (s : State) (p : PlaneId) (w h : Nat) : (s.initPlane p w h).errcode = s.errcode := by cases p <;> rfl
@[simp] theorem initPlane_cmd (s : State) (p : PlaneId) (w h : Nat) : (s.initPlane p w h).cmd = s.cmd := by cases p <;> rfl
@[simp] theorem initPlane_result (s : State) (p : PlaneId) (w h : Nat) : (s.initPlane p w h).result = s.result := by cases p <;> rfl
@[simp] theorem initPlane_args (s : State) (p : PlaneId) (w h : Nat) : (s.initPlane p w h).args = s.args := by cases p <;> rfl
@[simp] theorem initPlane_pending (s : State) (p : PlaneId) (w h : Nat) : (s.initPlane p w h).pending = s.pending := by cases p <;> rfl
@[simp] theorem initPlane_rst (s : State) (p : PlaneId) (w h : Nat) : (s.initPlane p w h).rst = s.rst := by cases p <;> rfl
@[simp] theorem initPlane_draws (s : State) (p : PlaneId) (w h : Nat) : (s.initPlane p w h).draws = s.draws := by cases p <;> rfl
@[simp] theorem initPlane_delay (s : State) (p : PlaneId) (w h : Nat) : (s.initPlane p w h).delay = s.delay := by cases p <;> rfl
@[simp] theorem initPlane_host (s : State) (p : PlaneId) (w h : Nat) : (s.initPlane p w h).host = s.host := by cases p <;> rfl
@[simp] theorem initPlane_response (s : State) (p : PlaneId) (w h : Nat) : (s.initPlane p w h).response = s.response := by cases p <;> rfl
@[simp] theorem initPlane_build (s : State) (p : PlaneId) (w h : Nat) : (s.initPlane p w h).build = s.build := by cases p <;> rfl
@[simp] theorem initPlane_mem (s : State) (p : PlaneId) (w h : Nat) :
    (s.initPlane p w h).mem = s.mem.drop (planeBase p) planeBytes := by cases p <;> rfl
@[simp] theorem initPlane_shape (s : State) (p q : PlaneId) (w h : Nat) :
    (s.initPlane p w h).shape q =
      if q = p then { width := BitVec.ofNat 16 w, height := BitVec.ofNat 16 h } else s.shape q := by
  cases p <;> cases q <;> rfl

@[simp] theorem setResult_shape (s : State) (v : Word) (r : PlaneId) : (s.setResult v).shape r = s.shape r := by cases r <;> rfl
@[simp] theorem setBit_shape (s : State) (p : PlaneId) (x y : Nat) (b : Bool) (r : PlaneId) : (s.setBit p x y b).shape r = s.shape r := by cases r <;> rfl
@[simp] theorem mapPlane_shape (s : State) (p q : PlaneId) (g : Nat → Nat → Bool → Bool → Bool) (r : PlaneId) : (s.mapPlane p q g).shape r = s.shape r := by cases r <;> rfl
@[simp] theorem writeSyms_shape (s : State) (j : Nat) (l : List Byte) (r : PlaneId) : (s.writeSyms j l).shape r = s.shape r := by cases r <;> rfl
@[simp] theorem completeOk_shape (s : State) (r : PlaneId) : (s.completeOk).shape r = s.shape r := by cases r <;> rfl
@[simp] theorem completeErr_shape (s : State) (e : CmdError) (r : PlaneId) : (s.completeErr e).shape r = s.shape r := by cases r <;> rfl
@[simp] theorem accept_shape (s : State) (w : Word) (r : PlaneId) : (s.accept w).shape r = s.shape r := by cases r <;> rfl
@[simp] theorem busError_shape (s : State) (r : PlaneId) : (s.busError).shape r = s.shape r := by cases r <;> rfl
@[simp] theorem dropWrite_shape (s : State) (r : PlaneId) : (s.dropWrite).shape r = s.shape r := by cases r <;> rfl
@[simp] theorem writeStatus_shape (s : State) (v : Word) (r : PlaneId) : (s.writeStatus v).shape r = s.shape r := by cases r <;> rfl
@[simp] theorem hardReset_shape (s : State) (r : PlaneId) : s.hardReset.shape r = Shape.none := by cases r <;> rfl
@[simp] theorem softReset_shape (s : State) (r : PlaneId) : s.softReset.shape r = Shape.none := by cases r <;> rfl

/-- STATUS.BUSY is the latch (R41). -/
theorem busy_eq_true {s : State} : s.busy = true ↔ ∃ c, s.pending = some c := Option.isSome_iff_exists

theorem busy_eq_false {s : State} : s.busy = false ↔ s.pending = none := by simp [State.busy]

/-- irq is a function of CTRL.IE and STATUS.DONE alone (R43). -/
theorem irq_eq (s : State) : s.irq = (s.ie && s.done) := rfl

end Sys2Proof.Machine
end

