-- ==== Sys2Proof/Laws/Ops.lean ====
section
/-! SUPPORT. What the shared operations can do, once each: the completion of a command, the operand checks, the draws of an
aborted command. -/

namespace Sys2Proof.Machine

/-- The completion of a command, with the latch's command at hand (R102). -/
theorem runCommand_eq {s : State} {c : Command} (h : s.pending = some c) (body : Args → Except CmdError State) :
    s.runCommand body =
      match body c.args with
      | .ok t => .next t.completeOk
      | .error e => .next (s.completeErr e) := by
  cases s
  dsimp only at h
  subst h
  rfl

/-- All that the completion of a command can answer (R102, R104). -/
theorem runCommand_next {s t : State} {body : Args → Except CmdError State} (h : s.runCommand body = .next t) :
    ∃ c, s.pending = some c ∧
      ((∃ u, body c.args = .ok u ∧ t = u.completeOk) ∨ ∃ e, body c.args = .error e ∧ t = s.completeErr e) := by
  unfold State.runCommand at h
  split at h
  · cases h
  · next c hc =>
    refine ⟨c, hc, ?_⟩
    split at h
    · next u hu => cases h; exact .inl ⟨u, hu, rfl⟩
    · next e he => cases h; exact .inr ⟨e, he, rfl⟩

/-- The completion stops only where no command is pending (log 10). -/
theorem runCommand_of_pending {s : State} {c : Command} (h : s.pending = some c) (body : Args → Except CmdError State) :
    ∃ t, s.runCommand body = .next t := by
  rw [runCommand_eq h]
  cases body c.args <;> exact ⟨_, rfl⟩

theorem runCommand_of_none {s : State} (h : s.pending = none) (body : Args → Except CmdError State) :
    s.runCommand body = .fault .noCommand := by
  simp only [State.runCommand, h]

/-- A command whose body answers `u` completes with `u`'s writes (R102). -/
theorem runCommand_ok {s u : State} {c : Command} {body : Args → Except CmdError State} (h : s.pending = some c)
    (hb : body c.args = .ok u) : s.runCommand body = .next u.completeOk := by rw [runCommand_eq h, hb]

/-- A command whose body raises `e` completes with that error and no other write (R104). -/
theorem runCommand_error {s : State} {c : Command} {body : Args → Except CmdError State} {e : CmdError}
    (h : s.pending = some c) (hb : body c.args = .error e) : s.runCommand body = .next (s.completeErr e) := by
  rw [runCommand_eq h, hb]

@[simp] theorem require_true (e : CmdError) (k : Except CmdError State) : require true e k = k := rfl

@[simp] theorem require_false (e : CmdError) (k : Except CmdError State) : require false e k = .error e := rfl

/-- All that a check can answer. -/
theorem require_ok {b : Bool} {e : CmdError} {k : Except CmdError State} {t : State} (h : require b e k = .ok t) :
    b = true ∧ k = .ok t := by
  cases b
  · simp at h
  · exact ⟨rfl, by simpa using h⟩

theorem fieldOperand_of_le {v : Word} (h : v.toNat ≤ 0xFF) (k : Byte → Except CmdError State) :
    fieldOperand v k = k (v.setWidth 8) := by simp [fieldOperand, h]

theorem fieldOperand_of_gt {v : Word} (h : 0xFF < v.toNat) (k : Byte → Except CmdError State) :
    fieldOperand v k = .error .operand := by
  have : ¬ v.toNat ≤ 0xFF := by omega
  simp [fieldOperand, this]

/-- All that a field operand can answer (R151). -/
theorem fieldOperand_ok {v : Word} {k : Byte → Except CmdError State} {t : State} (h : fieldOperand v k = .ok t) :
    v.toNat ≤ 0xFF ∧ k (v.setWidth 8) = .ok t := by
  have := require_ok h
  simpa using this

/-- All that the single-bit operand can answer (R118). -/
theorem pointOperand_ok {s t : State} {p : PlaneId} {A : Args} {k : Nat → Nat → Except CmdError State}
    (h : pointOperand s p A k = .ok t) :
    s.planeInit p = true ∧ A.a0.toNat < (s.shape p).width.toNat ∧ A.a1.toNat < (s.shape p).height.toNat ∧
      k A.a0.toNat A.a1.toNat = .ok t := by
  obtain ⟨h1, h2⟩ := require_ok h
  obtain ⟨h2, h3⟩ := require_ok h2
  simp only [State.inBounds, Bool.and_eq_true, decide_eq_true_eq] at h2
  exact ⟨h1, h2.1, h2.2, h3⟩

/-- The draws of an aborted command: the entries it names hold a value from then on, every other byte is as before (R223). -/
theorem drawSyms_spec {hit : Nat → Bool} {d : Nat} {m : Memory} (hm : m.wf = true) : ∀ {n : Nat}, n ≤ 256 →
    (m.drawSyms hit d n).wf = true ∧
      (∀ j, j < n → hit j = true → (m.drawSyms hit d n).byteAt (symAddr j) = some (Config.freeByte (d + j))) ∧
      ∀ a, (∀ j, j < n → hit j = true → a ≠ symAddr j) → (m.drawSyms hit d n).byteAt a = m.byteAt a := by
  intro n
  induction n with
  | zero => exact fun _ => ⟨hm, by simp, fun _ _ => rfl⟩
  | succ n ih =>
    intro hn
    obtain ⟨h1, h2, h3⟩ := ih (by omega)
    unfold Memory.drawSyms
    by_cases hh : hit n = true
    · rw [if_pos hh]
      refine ⟨wf_write h1 (symAddr_cell (by omega)) _, fun j hj hjh => ?_, fun a ha => ?_⟩
      · rw [byteAt_write h1]
        by_cases he : j = n
        · subst he; rw [if_pos rfl]
        · rw [if_neg (by simp [symAddr]; omega)]
          exact h2 j (by omega) hjh
      · rw [byteAt_write h1, if_neg (ha n (by omega) hh)]
        exact h3 a fun j hj => ha j (by omega)
    · rw [if_neg hh]
      refine ⟨h1, fun j hj hjh => ?_, fun a ha => h3 a fun j hj => ha j (by omega)⟩
      have : j ≠ n := by rintro rfl; exact hh hjh
      exact h2 j (by omega) hjh

/-- Storage after a soft reset: in canonical form, every plane byte 0 (R222). -/
theorem softResetMem_spec {s : State} (hm : s.mem.wf = true) :
    s.softResetMem.wf = true ∧ ∀ a, 0x10000 ≤ a → a < 0x20000 → s.softResetMem.byteAt a = some 0#8 := by
  have hd := wf_drop hm 0x10000 0x10000
  have hb : ∀ a, 0x10000 ≤ a → a < 0x20000 → (s.mem.drop 0x10000 0x10000).byteAt a = some 0#8 := fun a h1 h2 => by
    rw [byteAt_drop, if_pos (by omega)]
    exact (plane_range_cell ⟨h1, h2⟩).2
  unfold State.softResetMem
  split
  · exact ⟨hd, hb⟩
  · next c _ =>
    obtain ⟨h1, -, h3⟩ := drawSyms_spec (hit := c.abortedSym) (d := s.draws) hd (n := Config.symDepth) (by decide)
    refine ⟨h1, fun a ha ha' => ?_⟩
    dsimp only
    rw [h3 a fun j hj _ => by have : j < 256 := hj; unfold symAddr; omega]
    exact hb a ha ha'

end Sys2Proof.Machine
end

