-- ==== Sys2Proof/Laws/PerInstr.lean ====
section
/-! SUPPORT. Statements for every instruction, one lemma per constructor. -/

namespace Sys2Proof.Laws

/-- The encoding of a command has well-formed fields (R85, R87): its opcode is assigned, RSV is 0, and P and Q are set only where
the opcode has them. -/
def WellFormedEncoding.Statement : Instr → Prop := fun i => (Fields.ofWord (encode i)).wellFormed = true

theorem WellFormedEncoding.nop : WellFormedEncoding.Statement .nop := rfl

theorem WellFormedEncoding.gfAdd : WellFormedEncoding.Statement .gfAdd := rfl

theorem WellFormedEncoding.gfMul : WellFormedEncoding.Statement .gfMul := rfl

theorem WellFormedEncoding.gfInv : WellFormedEncoding.Statement .gfInv := rfl

theorem WellFormedEncoding.gfExp : WellFormedEncoding.Statement .gfExp := rfl

theorem WellFormedEncoding.gfLog : WellFormedEncoding.Statement .gfLog := rfl

theorem WellFormedEncoding.rsEnc : WellFormedEncoding.Statement .rsEnc := rfl

theorem WellFormedEncoding.rsGen : WellFormedEncoding.Statement .rsGen := rfl

theorem WellFormedEncoding.mxInit (p : PlaneId) : WellFormedEncoding.Statement (.mxInit p) := by cases p <;> rfl

theorem WellFormedEncoding.mxGet (p : PlaneId) : WellFormedEncoding.Statement (.mxGet p) := by cases p <;> rfl

theorem WellFormedEncoding.mxSet (p : PlaneId) : WellFormedEncoding.Statement (.mxSet p) := by cases p <;> rfl

theorem WellFormedEncoding.mxFlip (p : PlaneId) : WellFormedEncoding.Statement (.mxFlip p) := by cases p <;> rfl

theorem WellFormedEncoding.mxFill (p : PlaneId) : WellFormedEncoding.Statement (.mxFill p) := by cases p <;> rfl

theorem WellFormedEncoding.mxXor (p q : PlaneId) : WellFormedEncoding.Statement (.mxXor p q) := by
  cases p <;> cases q <;> rfl

end Sys2Proof.Laws
end

