-- ==== Sys2Proof/Laws/Poly.lean ====
section
/-! SUPPORT. The shape of what the polynomial primitives answer: trimmed, and how long. -/

namespace Sys2Proof.Machine

theorem trim_ne_nil (P : Poly) : trim P ≠ [] := by
  fun_induction trim P <;> simp_all

theorem trim_length_le {P : Poly} (h : P ≠ []) : (trim P).length ≤ P.length := by
  fun_induction trim P <;> simp_all
  omega

/-- A trimmed list is `[0]` or begins with a nonzero coefficient (R165). -/
theorem trim_cases (P : Poly) : trim P = [0#8] ∨ (trim P).headD 0#8 ≠ 0#8 := by
  fun_induction trim P with
  | case1 => exact .inl rfl
  | case2 a =>
    by_cases h : a = 0#8
    · exact .inl (by rw [h])
    · exact .inr h
  | case3 _ _ ih => exact ih
  | case4 a b l h => exact .inr h

/-- A list whose first coefficient is not 0 is trimmed (R165). -/
theorem trim_of_head {P : Poly} (h : P.headD 0#8 ≠ 0#8) : trim P = P := by
  fun_induction trim P <;> simp_all

@[simp] theorem trim_trim (P : Poly) : trim (trim P) = trim P := by
  rcases trim_cases P with h | h
  · rw [h]; rfl
  · exact trim_of_head h

@[simp] theorem length_addAligned (P Q : Poly) : (addAligned P Q).length = max P.length Q.length := by
  simp [addAligned]; omega

@[simp] theorem trim_padd (P Q : Poly) : trim (padd P Q) = padd P Q := trim_trim _

@[simp] theorem trim_pscale (cfg : Config) (P : Poly) (c : Byte) : trim (pscale cfg P c) = pscale cfg P c := by
  unfold pscale
  split
  · rfl
  · exact trim_trim _

@[simp] theorem trim_pmono (cfg : Config) (P : Poly) (d : Nat) (c : Byte) : trim (pmono cfg P d c) = pmono cfg P d c := by
  unfold pmono
  split
  · rfl
  · exact trim_trim _

@[simp] theorem trim_pmul (cfg : Config) (P Q : Poly) : trim (pmul cfg P Q) = pmul cfg P Q := by
  unfold pmul
  split
  · rfl
  · exact trim_trim _

@[simp] theorem gen_zero (cfg : Config) : gen cfg 0 = [1#8] := rfl

theorem gen_succ (cfg : Config) (n : Nat) :
    gen cfg (n + 1) = pmul cfg (gen cfg n) [1#8, alphaPow cfg (cfg.genBase.toNat + n)] := rfl

theorem padLeft_length {n : Nat} {R : Poly} (h : R.length ≤ n) : (padLeft n R).length = n := by
  simp [padLeft]; omega

end Sys2Proof.Machine
end

