-- ==== Sys2Proof/Laws/Step.lean ====
section
/-! SUPPORT. What a step can do, said once: the unit's completion, a host event, or nothing. -/

namespace Sys2Proof.Machine

/-- Every meaning is one completion of the shared form (R102). -/
theorem exec_runCommand (i : Instr) (s : State) : ∃ body, exec i s = s.runCommand body := by
  cases i <;>
    simp only [exec, execNop, execGfAdd, execGfMul, execGfInv, execGfExp, execGfLog, execRsEnc, execRsGen, execMxInit, execMxGet,
      execMxSet, execMxFlip, execMxFill, execMxXor] <;>
    exact ⟨_, rfl⟩

theorem unitTurn_of_host {s : State} (h : s.unitTurn = true) :
    (∃ c, s.pending = some c) ∧ s.rst = false ∧ (s.host = [] ∨ s.delay = 0) := by
  simpa [State.unitTurn, Option.isSome_iff_exists, and_assoc] using h

theorem unitTurn_of_pending {s : State} {c : Command} (h : s.pending = some c) (hr : s.rst = false)
    (hh : s.host = [] ∨ s.delay = 0) : s.unitTurn = true := by
  rcases hh with hh | hh <;> simp [State.unitTurn, h, hr, hh]

theorem unitTurn_of_none {s : State} (h : s.pending = none) : s.unitTurn = false := by simp [State.unitTurn, h]

/-- The unit's turn completes the pending command (R102). -/
theorem step_unit {s : State} {c : Command} (h : s.pending = some c) (hu : s.unitTurn = true) : step s = s.unitStep c := by
  simp only [step, State.turn, h, hu, if_true]

/-- Any other turn is the host's (R18). -/
theorem step_hostTurn {s : State} (hu : s.unitTurn = false) : step s = s.hostTurn := by
  cases hp : s.pending <;> simp [step, State.turn, hp, hu]

/-- The host's turn takes its next event. -/
theorem step_host {s : State} {e : HostEvent} {rest : List HostEvent} (hu : s.unitTurn = false) (hh : s.host = e :: rest) :
    step s = ({ s with delay := s.delay - 1 } : State).hostEvent e rest := by
  rw [step_hostTurn hu]
  simp only [State.hostTurn, hh]

/-- With no host event left and no command due, nothing happens (log 15). -/
theorem step_idle {s : State} (hu : s.unitTurn = false) (hh : s.host = []) : step s = .next s := by
  rw [step_hostTurn hu]
  simp only [State.hostTurn, hh]

/-- All that the unit's step can answer. -/
theorem unitStep_next {s t : State} {c : Command} (h : s.unitStep c = .next t) :
    (∃ i, decode c.word = .ok i ∧ exec i s = .next t) ∨ ∃ e, decode c.word = .error e ∧ t = s.completeErr e := by
  unfold State.unitStep at h
  split at h
  · next i hi => exact .inl ⟨i, hi, h⟩
  · next e he => cases h; exact .inr ⟨e, he, rfl⟩

/-- All that a step can answer (R18, R75). -/
theorem step_next {s t : State} (h : step s = .next t) :
    (∃ c, s.pending = some c ∧ s.unitTurn = true ∧ s.unitStep c = .next t) ∨
      (s.unitTurn = false ∧ s.host = [] ∧ t = s) ∨
      ∃ e rest, s.unitTurn = false ∧ s.host = e :: rest ∧
        ({ s with delay := s.delay - 1 } : State).hostEvent e rest = .next t := by
  cases hu : s.unitTurn with
  | true =>
    obtain ⟨⟨c, hc⟩, -⟩ := unitTurn_of_host hu
    exact .inl ⟨c, hc, rfl, by rw [← step_unit hc hu, h]⟩
  | false =>
    rcases hh : id s.host with _ | ⟨e, rest⟩
    · rw [step_idle hu hh] at h
      cases h
      exact .inr (.inl ⟨rfl, hh, rfl⟩)
    · exact .inr (.inr ⟨e, rest, rfl, hh, by rw [← step_host hu hh, h]⟩)

/-- All that a host event can answer. -/
theorem hostEvent_next {s t : State} {e : HostEvent} {rest : List HostEvent} (h : s.hostEvent e rest = .next t) :
    (e = .assertRst ∧ t = { s.hardReset with rst := true, host := rest }) ∨
      (e = .releaseRst ∧ t = { s with rst := false, host := rest }) ∨
      (∃ addr size, e = .read addr size ∧ s.rst = false ∧ t = { s.readTransaction addr size with host := rest }) ∨
      (∃ addr size v, e = .write addr size v ∧ s.rst = false ∧ t = { s.writeTransaction addr size v with host := rest }) ∨
      (e = .wait ∧ s.rst = false ∧
        t = { s.readTransaction statusAddr .word with host := if s.busy then .wait :: rest else rest }) := by
  cases hr : s.rst <;> cases e <;> simp_all [State.hostEvent]

end Sys2Proof.Machine
end

