-- ==== Sys2Proof/Tests/Slice0.lean ====
section
/-! SUPPORT. Tests with values of spec/95_test_vectors.md and of the rules' tables, the smoke test of well-formedness, and for each
statement with hypotheses a witness that meets them. -/

namespace Sys2Proof.Tests

open Sys2Proof Sys2Proof.Machine

set_option maxRecDepth 100000

/-! ### Well-formedness: an ill-formed term for each check -/

theorem test_ill_unassigned_opcode : Fields.wellFormed ⟨0x36#8, false, false, 0#22⟩ = false := by decide

theorem test_ill_reserved_field : Fields.wellFormed ⟨0x35#8, false, false, 1#22⟩ = false := by decide

theorem test_ill_p_without_plane : Fields.wellFormed ⟨0x10#8, true, false, 0#22⟩ = false := by decide

theorem test_ill_q_without_mask : Fields.wellFormed ⟨0x30#8, true, true, 0#22⟩ = false := by decide

theorem test_well_formed_xor : Fields.wellFormed ⟨0x35#8, true, true, 0#22⟩ = true := by decide

theorem test_ill_lines :
    AsmLine.wellFormed (.mxInit 2 none) = false ∧ AsmLine.wellFormed (.mxGet 2 none) = false ∧
      AsmLine.wellFormed (.mxSet 2 none) = false ∧ AsmLine.wellFormed (.mxFlip 2 none) = false ∧
      AsmLine.wellFormed (.mxFill 2 none) = false ∧ AsmLine.wellFormed (.mxXor 0 2) = false ∧
      AsmLine.wellFormed (.mxXor 2 0) = false ∧ AsmLine.wellFormed (.symw 256 0) = false ∧
      AsmLine.wellFormed (.symr 256) = false ∧ AsmLine.wellFormed (.plw 0 8192 0) = false ∧
      AsmLine.wellFormed (.plr 2 0) = false := by decide

theorem test_ill_line_not_assembled : assemble [.nop, .mxGet 2 none] = none := by decide

/-! ### Decoding: every row's word, written out from R85 and R87 -/

theorem test_decode_nop : decode 0b00000000000000000000000000000000#32 = .ok .nop := by rfl

theorem test_decode_gf :
    decode 0b00000000000000000000000000010000#32 = .ok .gfAdd ∧ decode 0b00000000000000000000000000010001#32 = .ok .gfMul ∧
      decode 0b00000000000000000000000000010010#32 = .ok .gfInv ∧ decode 0b00000000000000000000000000010011#32 = .ok .gfExp ∧
      decode 0b00000000000000000000000000010100#32 = .ok .gfLog := ⟨rfl, rfl, rfl, rfl, rfl⟩

theorem test_decode_rs :
    decode 0b00000000000000000000000000100000#32 = .ok .rsEnc ∧ decode 0b00000000000000000000000000100001#32 = .ok .rsGen :=
  ⟨rfl, rfl⟩

theorem test_decode_mx_p0 :
    decode 0b00000000000000000000000000110000#32 = .ok (.mxInit .p0) ∧
      decode 0b00000000000000000000000000110001#32 = .ok (.mxGet .p0) ∧
      decode 0b00000000000000000000000000110010#32 = .ok (.mxSet .p0) ∧
      decode 0b00000000000000000000000000110011#32 = .ok (.mxFlip .p0) ∧
      decode 0b00000000000000000000000000110100#32 = .ok (.mxFill .p0) := ⟨rfl, rfl, rfl, rfl, rfl⟩

theorem test_decode_mx_p1 :
    decode 0b00000000000000000000000100110000#32 = .ok (.mxInit .p1) ∧
      decode 0b00000000000000000000000100110001#32 = .ok (.mxGet .p1) ∧
      decode 0b00000000000000000000000100110010#32 = .ok (.mxSet .p1) ∧
      decode 0b00000000000000000000000100110011#32 = .ok (.mxFlip .p1) ∧
      decode 0b00000000000000000000000100110100#32 = .ok (.mxFill .p1) := ⟨rfl, rfl, rfl, rfl, rfl⟩

theorem test_decode_xor :
    decode 0x00000035#32 = .ok (.mxXor .p0 .p0) ∧ decode 0x00000135#32 = .ok (.mxXor .p1 .p0) ∧
      decode 0x00000235#32 = .ok (.mxXor .p0 .p1) ∧ decode 0x00000335#32 = .ok (.mxXor .p1 .p1) := ⟨rfl, rfl, rfl, rfl⟩

/-- 95_test_vectors.md 2.5, and the ends of the unassigned ranges of R89. -/
theorem test_decode_unassigned :
    decode 0x01#32 = .error .opcode ∧ decode 0x0F#32 = .error .opcode ∧ decode 0x15#32 = .error .opcode ∧
      decode 0x1F#32 = .error .opcode ∧ decode 0x22#32 = .error .opcode ∧ decode 0x2F#32 = .error .opcode ∧
      decode 0x36#32 = .error .opcode ∧ decode 0xFF#32 = .error .opcode ∧ decode 0x00010036#32 = .error .opcode :=
  ⟨rfl, rfl, rfl, rfl, rfl, rfl, rfl, rfl, rfl⟩

/-- 95_test_vectors.md 2.5. -/
theorem test_decode_reserved :
    decode 0x00000100#32 = .error .reserved ∧ decode 0x00000400#32 = .error .reserved ∧
      decode 0x00000110#32 = .error .reserved ∧ decode 0x00000230#32 = .error .reserved ∧
      decode 0x80000035#32 = .error .reserved ∧ decode 0x00010036#32 = .error .opcode := ⟨rfl, rfl, rfl, rfl, rfl, rfl⟩

theorem test_decodeTableWord : decodeTableWord 32 0x235 = some (.mxXor .p0 .p1) ∧ decodeTableWord 8 0x235 = some (.mxXor .p0 .p0) := by
  decide

/-! ### The tables: R143, R144, R148, and the build of R8 -/

theorem test_exp_table : (List.range 256).map (fun i => (fieldExp Config.unit i).toNat) =
    [0x01, 0x02, 0x04, 0x08, 0x10, 0x20, 0x40, 0x80, 0x1D, 0x3A, 0x74, 0xE8, 0xCD, 0x87, 0x13, 0x26] ++
    [0x4C, 0x98, 0x2D, 0x5A, 0xB4, 0x75, 0xEA, 0xC9, 0x8F, 0x03, 0x06, 0x0C, 0x18, 0x30, 0x60, 0xC0] ++
    [0x9D, 0x27, 0x4E, 0x9C, 0x25, 0x4A, 0x94, 0x35, 0x6A, 0xD4, 0xB5, 0x77, 0xEE, 0xC1, 0x9F, 0x23] ++
    [0x46, 0x8C, 0x05, 0x0A, 0x14, 0x28, 0x50, 0xA0, 0x5D, 0xBA, 0x69, 0xD2, 0xB9, 0x6F, 0xDE, 0xA1] ++
    [0x5F, 0xBE, 0x61, 0xC2, 0x99, 0x2F, 0x5E, 0xBC, 0x65, 0xCA, 0x89, 0x0F, 0x1E, 0x3C, 0x78, 0xF0] ++
    [0xFD, 0xE7, 0xD3, 0xBB, 0x6B, 0xD6, 0xB1, 0x7F, 0xFE, 0xE1, 0xDF, 0xA3, 0x5B, 0xB6, 0x71, 0xE2] ++
    [0xD9, 0xAF, 0x43, 0x86, 0x11, 0x22, 0x44, 0x88, 0x0D, 0x1A, 0x34, 0x68, 0xD0, 0xBD, 0x67, 0xCE] ++
    [0x81, 0x1F, 0x3E, 0x7C, 0xF8, 0xED, 0xC7, 0x93, 0x3B, 0x76, 0xEC, 0xC5, 0x97, 0x33, 0x66, 0xCC] ++
    [0x85, 0x17, 0x2E, 0x5C, 0xB8, 0x6D, 0xDA, 0xA9, 0x4F, 0x9E, 0x21, 0x42, 0x84, 0x15, 0x2A, 0x54] ++
    [0xA8, 0x4D, 0x9A, 0x29, 0x52, 0xA4, 0x55, 0xAA, 0x49, 0x92, 0x39, 0x72, 0xE4, 0xD5, 0xB7, 0x73] ++
    [0xE6, 0xD1, 0xBF, 0x63, 0xC6, 0x91, 0x3F, 0x7E, 0xFC, 0xE5, 0xD7, 0xB3, 0x7B, 0xF6, 0xF1, 0xFF] ++
    [0xE3, 0xDB, 0xAB, 0x4B, 0x96, 0x31, 0x62, 0xC4, 0x95, 0x37, 0x6E, 0xDC, 0xA5, 0x57, 0xAE, 0x41] ++
    [0x82, 0x19, 0x32, 0x64, 0xC8, 0x8D, 0x07, 0x0E, 0x1C, 0x38, 0x70, 0xE0, 0xDD, 0xA7, 0x53, 0xA6] ++
    [0x51, 0xA2, 0x59, 0xB2, 0x79, 0xF2, 0xF9, 0xEF, 0xC3, 0x9B, 0x2B, 0x56, 0xAC, 0x45, 0x8A, 0x09] ++
    [0x12, 0x24, 0x48, 0x90, 0x3D, 0x7A, 0xF4, 0xF5, 0xF7, 0xF3, 0xFB, 0xEB, 0xCB, 0x8B, 0x0B, 0x16] ++
    [0x2C, 0x58, 0xB0, 0x7D, 0xFA, 0xE9, 0xCF, 0x83, 0x1B, 0x36, 0x6C, 0xD8, 0xAD, 0x47, 0x8E, 0x01] := by decide +kernel

theorem test_log_table : (List.range 255).map (fun a => ((fieldLog Config.unit (BitVec.ofNat 8 (a + 1))).getD 0)) =
    [0, 1, 25, 2, 50, 26, 198, 3, 223, 51, 238, 27, 104, 199, 75] ++
    [4, 100, 224, 14, 52, 141, 239, 129, 28, 193, 105, 248, 200, 8, 76, 113] ++
    [5, 138, 101, 47, 225, 36, 15, 33, 53, 147, 142, 218, 240, 18, 130, 69] ++
    [29, 181, 194, 125, 106, 39, 249, 185, 201, 154, 9, 120, 77, 228, 114, 166] ++
    [6, 191, 139, 98, 102, 221, 48, 253, 226, 152, 37, 179, 16, 145, 34, 136] ++
    [54, 208, 148, 206, 143, 150, 219, 189, 241, 210, 19, 92, 131, 56, 70, 64] ++
    [30, 66, 182, 163, 195, 72, 126, 110, 107, 58, 40, 84, 250, 133, 186, 61] ++
    [202, 94, 155, 159, 10, 21, 121, 43, 78, 212, 229, 172, 115, 243, 167, 87] ++
    [7, 112, 192, 247, 140, 128, 99, 13, 103, 74, 222, 237, 49, 197, 254, 24] ++
    [227, 165, 153, 119, 38, 184, 180, 124, 17, 68, 146, 217, 35, 32, 137, 46] ++
    [55, 63, 209, 91, 149, 188, 207, 205, 144, 135, 151, 178, 220, 252, 190, 97] ++
    [242, 86, 211, 171, 20, 42, 93, 158, 132, 60, 57, 83, 71, 109, 65, 162] ++
    [31, 45, 67, 216, 183, 123, 164, 118, 196, 23, 73, 236, 127, 12, 111, 246] ++
    [108, 161, 59, 82, 41, 157, 85, 170, 251, 96, 134, 177, 187, 204, 62, 90] ++
    [203, 89, 95, 176, 156, 169, 160, 81, 11, 245, 22, 235, 122, 117, 44, 215] ++
    [79, 174, 213, 233, 230, 231, 173, 232, 116, 214, 244, 234, 168, 80, 88, 175] := by decide +kernel

/-- Rows 0x00 and 0x80 of R148. -/
theorem test_inv_table : ((List.range' 1 15) ++ List.range' 128 16).map
    (fun a => ((fieldInv Config.unit (BitVec.ofNat 8 a)).getD 0).toNat) =
    [0x01, 0x8E, 0xF4, 0x47, 0xA7, 0x7A, 0xBA, 0xAD, 0x9D, 0xDD, 0x98, 0x3D, 0xAA, 0x5D, 0x96] ++
    [0x1B, 0x54, 0xA1, 0x1D, 0x7C, 0xCC, 0xE4, 0xB0, 0x49, 0x31, 0x27, 0x2D, 0x53, 0x69, 0x02, 0xF5] := by decide +kernel

theorem test_build_is_legal : legalConfig Config.unit = true := by decide +kernel

/-- A build that is not the instance. -/
theorem test_other_build_is_legal : legalConfig ⟨0x12D#9, 254#8⟩ = true := by decide +kernel

/-! ### One step of each command: 95_test_vectors.md -/

/-- A field of the next state. -/
def after {α : Type} (f : State → α) : Host.Outcome State Fault Refusal → Option α
  | .next t => some (f t)
  | .fault _ | .refused _ => none

/-- `s` with the ARG registers at four values. -/
def withArgs (s : State) (a b c d : Word) : State := { s with args := ⟨a, b, c, d⟩ }

/-- The step that runs the command word `w` on `s`. -/
def run (s : State) (w : Nat) : Host.Outcome State Fault Refusal := step (s.withFetchWord 32 w)

/-- STATUS, ERRCODE and RESULT. -/
def outcome (t : State) : Nat × Nat × Nat :=
  ((t.readReg .status).toNat, (t.readReg .errcode).toNat, (t.readReg .result).toNat)

/-- SYM[j .. j+n-1], 256 for an entry without a value. -/
def syms (j n : Nat) (t : State) : List Nat :=
  (List.range n).map fun i => match t.mem.byteAt (symAddr (j + i)) with
    | some v => v.toNat
    | none => 256

/-- Words 0 to 3 of a plane. -/
def words (p : PlaneId) (t : State) : List Nat := (List.range 4).map fun j => (t.mem.planeWord (t.shape p) p j).toNat

def sh (w h : Nat) : Shape := { width := BitVec.ofNat 16 w, height := BitVec.ofNat 16 h }

theorem test_nop : after outcome (run State.reset 0x00) = some (0x2, 0, 0) := by decide

theorem test_nop_raises_irq : after State.irq (run { State.reset with ie := true } 0x00) = some true := by decide

/-- V-GF-2. -/
theorem test_gfAdd : after outcome (run (withArgs State.reset 0x53 0xCA 0 0) 0x10) = some (0x2, 0, 0x99) := by decide

/-- V-GF-6. -/
theorem test_gfAdd_operand : after outcome (run (withArgs State.reset 1 0x100 0 0) 0x10) = some (0x6, 0x03, 0) := by decide

/-- V-GF-7. -/
theorem test_gfMul : after outcome (run (withArgs State.reset 0x53 0xCA 0 0) 0x11) = some (0x2, 0, 0x8F) := by decide

/-- V-GF-12. -/
theorem test_gfMul_zero : after outcome (run (withArgs State.reset 0 0x37 0 0) 0x11) = some (0x2, 0, 0) := by decide

/-- V-GF-27: an unused ARG is not checked. -/
theorem test_gfInv : after outcome (run (withArgs State.reset 2 0xFFFFFFFF 0xFFFFFFFF 0xFFFFFFFF) 0x12) = some (0x2, 0, 0x8E) := by
  decide

/-- V-GF-16. -/
theorem test_gfInv_zero : after outcome (run State.reset 0x12) = some (0x6, 0x04, 0) := by decide

/-- V-GF-21. -/
theorem test_gfExp : after outcome (run (withArgs State.reset 255 0 0 0) 0x13) = some (0x2, 0, 0x01) := by decide

/-- V-GF-22. -/
theorem test_gfExp_operand : after outcome (run (withArgs State.reset 256 0 0 0) 0x13) = some (0x6, 0x03, 0) := by decide

/-- V-GF-25. -/
theorem test_gfLog : after outcome (run (withArgs State.reset 0xFF 0 0 0) 0x14) = some (0x2, 0, 0xAF) := by decide

/-- V-GF-26. -/
theorem test_gfLog_zero : after outcome (run State.reset 0x14) = some (0x6, 0x05, 0) := by decide

/-- V-RS-5: SYM[0..7] before RS.ENC. -/
def message : State := { State.reset with mem := Memory.writeSyms [] 0 [1, 2, 3, 0xAA, 0xAA, 0xAA, 0xAA, 0xAA] }

/-- V-RS-5. -/
theorem test_rsEnc : after (syms 0 9) (run (withArgs message 3 4 0 0) 0x20) =
    some [0x01, 0x02, 0x03, 0x8B, 0xF3, 0x8E, 0xF6, 0xAA, 256] := by decide

/-- V-RS-6: the sum does not wrap. -/
theorem test_rsEnc_range : after outcome (run (withArgs message 1 1 0xFFFFFFFF 0) 0x20) = some (0x6, 0x09, 0) := by decide

/-- V-RS-2, and V-RS-3 on the builds with generator base 1 and 254. -/
theorem test_rsGen :
    after (syms 0 9) (run (withArgs State.reset 0 7 0 0) 0x21) = some [0x01, 0x7F, 0x7A, 0x9A, 0xA4, 0x0B, 0x44, 0x75, 256] ∧
      after (syms 0 4) (run (withArgs (State.resetFor ⟨0x11D#9, 1#8⟩) 0 2 0 0) 0x21) = some [0x01, 0x06, 0x08, 256] ∧
      after (syms 0 4) (run (withArgs (State.resetFor ⟨0x11D#9, 254#8⟩) 0 3 0 0) 0x21) = some [0x01, 0x8D, 0x8D, 0x01] := by
  decide

/-- V-RS-6. -/
theorem test_rsGen_range : after outcome (run (withArgs State.reset 0 255 1 0) 0x21) = some (0x6, 0x09, 0) := by decide

/-- V-MX-3. -/
theorem test_mxInit : after (fun t => (t.readReg .shape0).toNat) (run (withArgs State.reset 32 8192 0 0) 0x30) = some 0x20000020 := by
  decide

/-- V-MX-6. -/
theorem test_mxInit_shape : after outcome (run (withArgs State.reset 33 4097 0 0) 0x30) = some (0x6, 0x0B, 0) := by decide

/-- V-MX-9: 8 × 2 with bit (7, 1) set. -/
theorem test_mxGet :
    after outcome (run (withArgs { State.reset with shape0 := sh 8 2, mem := [(0x10004, 0x80)] } 7 1 0 0) 0x31) = some (0x2, 0, 1) := by
  decide

/-- V-MX-11. -/
theorem test_mxGet_bounds : after outcome (run (withArgs { State.reset with shape0 := sh 4 4 } 4 0 0 0) 0x31) = some (0x6, 0x0C, 0) := by
  decide

/-- V-MX-13. -/
theorem test_mxSet : after (words .p1) (run (withArgs { State.reset with shape1 := sh 40 1 } 33 0 0 0) 0x132) =
    some [0, 0x00000002, 0, 0] := by decide

theorem test_mxSet_uninit : after outcome (run State.reset 0x132) = some (0x6, 0x0A, 0) := by decide

/-- V-MX-17. -/
theorem test_mxFlip : after (words .p0) (run (withArgs { State.reset with shape0 := sh 4 4 } 3 3 0 0) 0x33) =
    some [0, 0, 0, 0x00000008] := by decide

/-- V-MX-16. -/
theorem test_mxFlip_back : after (words .p0) (run { State.reset with shape0 := sh 4 1, mem := [(0x10000, 0x09)] } 0x33) =
    some [0x00000008, 0, 0, 0] := by decide

/-- V-MX-18. -/
theorem test_mxFill : after (words .p0) (run (withArgs { State.reset with shape0 := sh 40 2 } 30 0 4 2) 0x34) =
    some [0xC0000000, 0x00000003, 0xC0000000, 0x00000003] := by decide

/-- V-MX-22. -/
theorem test_mxFill_wrap : after outcome (run (withArgs { State.reset with shape0 := sh 4 4 } 0xFFFFFFFF 0 2 1) 0x34) =
    some (0x6, 0x0C, 0) := by decide

/-- V-MX-25: two planes of 8 × 2. -/
def planes : State :=
  { State.reset with shape0 := sh 8 2, shape1 := sh 8 2, mem := [(0x10000, 0x0E), (0x10004, 0x0E), (0x18004, 0x3C)] }

/-- V-MX-25. -/
theorem test_mxXor : after (fun t => words .p0 t ++ words .p1 t) (run planes 0x235) = some [0x0E, 0x32, 0, 0, 0x00, 0x3C, 0, 0] := by
  decide

/-- V-MX-30. -/
theorem test_mxXor_mismatch : after outcome (run { planes with shape1 := sh 16 1 } 0x135) = some (0x6, 0x0D, 0) := by decide

/-- 95_test_vectors.md 2.5, last rows: CMD reads back an illegal word too. -/
theorem test_illegal_word : after (fun t => (outcome t, t.cmd.toNat)) (run State.reset 0x00010036) =
    some ((0x6, 0x01, 0), 0x00010036) := by decide

/-! ### One bus transaction: 95_test_vectors.md -/

/-- `s` with one host event to come. -/
def event (s : State) (e : HostEvent) : Host.Outcome State Fault Refusal := step { s with host := [e] }

/-- A read's data and response, and STATUS after it. -/
def answer (t : State) : Option Response × Nat := (t.response, (t.readReg .status).toNat)

/-- V-BUS-1. -/
theorem test_read_param : after answer (event State.reset (.read 0x01C .word)) = some (some (.read 0x0000011D .ok), 0) := by decide

/-- R33: PARAM of another build. -/
theorem test_read_param_other_build : after answer (event (State.resetFor ⟨0x12D#9, 254#8⟩) (.read 0x01C .word)) =
    some (some (.read 0x00FE012D .ok), 0) := by decide

/-- V-BUS-6. -/
theorem test_read_reserved : after answer (event State.reset (.read 0x3FC .word)) = some (some (.read 0 .ok), 0) := by decide

/-- V-BUS-7. -/
theorem test_read_misaligned : after answer (event State.reset (.read 0x002 .word)) = some (some (.read 0 .error), 0x10) := by decide

/-- V-BUS-8. -/
theorem test_read_narrow : after answer (event State.reset (.read 0x000 .half)) = some (some (.read 0 .error), 0x10) := by decide

/-- V-BUS-9. -/
theorem test_write_unmapped : after answer (event State.reset (.write 0x800 .word 1)) = some (some (.write .error), 0x10) := by decide

/-- V-BUS-11. -/
theorem test_symw : after (syms 0 2) (event State.reset (.write 0x400 .word 0x1AB)) = some [0xAB, 256] := by decide

/-- V-BUS-12. -/
theorem test_plw_padding : after (words .p0) (event { State.reset with shape0 := sh 40 1 } (.write 0x10004 .word 0xFFFFFFFF)) =
    some [0, 0x000000FF, 0, 0] := by decide

/-- V-RST-1. -/
theorem test_soft_reset_drops_ie : after (fun t => (t.readReg .ctrl).toNat) (event planes (.write 0x008 .word 3)) = some 0 := by decide

/-- V-RST-2. -/
theorem test_soft_reset_keeps_sym : after (fun t => (syms 0 4 t, (t.readReg .shape0).toNat)) (event message (.write 0x008 .word 2)) =
    some ([0x01, 0x02, 0x03, 0xAA], 0) := by decide

/-! ### Witnesses: what meets the hypotheses of each statement -/

/-- The command `i` in the latch with snapshot `A`, `n` host events before its completion, the events `h` to come. -/
def busy (s : State) (i : Instr) (A : Args) (n : Nat) (h : List HostEvent) : State :=
  { s with cmd := encode i, pending := some ⟨encode i, A⟩, delay := n, host := h }

/-- `s` with the events `h` to come. -/
def idle (s : State) (h : List HostEvent) : State := { s with host := h }

theorem witness_DecodingIsTotalInThreeClasses :
    (¬ ((0x36#32).toNat % 256 = 0x35) ∧ (0x36#32).toNat / 1024 = 0) ∧ (0x400#32).toNat / 1024 ≠ 0 ∧
      (0x100#32).getLsbD 8 = true ∧ (0x230#32).getLsbD 9 = true ∧ (0x230#32).toNat % 256 = 0x30 ∧
      (0x335#32).toNat % 256 = 0x35 ∧ (0x335#32).toNat / 1024 = 0 := by decide

theorem witness_DecodeInvertsEncode : ∃ (w : Word) (i : Instr), decode w = .ok i ∧ encode i = w := ⟨0x335, .mxXor .p1 .p1, rfl, rfl⟩

theorem witness_LegalWordsAreTheWellFormedOnes : ∃ w : Word, (Fields.ofWord w).wellFormed = true ∧ ∃ i, decode w = .ok i :=
  ⟨0x134, rfl, .mxFill .p1, rfl⟩

theorem witness_MnemonicsExpandToRegisterWrites : (1 = 0 ∨ 1 = 1) ∧ 2 ≤ 2 := by decide

theorem witness_StepRunsTheDecodedCommand : ∃ (s : State) (c : Command), s.pending = some c ∧ s.rst = false ∧
    (s.host = [] ∨ s.delay = 0) ∧ decode c.word = .ok .gfMul :=
  ⟨busy State.reset .gfMul ⟨2, 3, 0, 0⟩ 0 [.wait], _, rfl, rfl, .inr rfl, rfl⟩

theorem witness_StepRunsTheDecodedCommand_error : ∃ (s : State) (c : Command), s.pending = some c ∧ s.rst = false ∧
    (s.host = [] ∨ s.delay = 0) ∧ decode c.word = .error .opcode :=
  ⟨{ State.reset with pending := some ⟨0x36, Args.zero⟩, delay := 3 }, _, rfl, rfl, .inl rfl, rfl⟩

theorem witness_PlacedWordIsRunNext : decodeTableWord 32 0x21 = some .rsGen := by decide

theorem witness_IllegalWordsCompleteWithTheirError : ∃ (s : State) (c : Command), s.pending = some c ∧ s.rst = false ∧
    (s.host = [] ∨ s.delay = 0) ∧ c.word.toNat % 256 = 0x0F :=
  ⟨{ State.reset with pending := some ⟨0x0F, Args.zero⟩ }, _, rfl, rfl, .inl rfl, rfl⟩

theorem witness_IllegalWordsCompleteWithTheirError_reserved : ∃ (s : State) (c : Command), s.pending = some c ∧ s.rst = false ∧
    (s.host = [] ∨ s.delay = 0) ∧ c.word.toNat % 256 = 0x35 ∧ c.word.toNat / 1024 ≠ 0 :=
  ⟨{ State.reset with pending := some ⟨0x435, Args.zero⟩ }, _, rfl, rfl, .inl rfl, rfl, by decide⟩

theorem witness_IllegalWordsCompleteWithTheirError_p : ∃ (s : State) (c : Command), s.pending = some c ∧ s.rst = false ∧
    (s.host = [] ∨ s.delay = 0) ∧ c.word.toNat % 256 = 0x00 ∧ c.word.getLsbD 8 = true :=
  ⟨{ State.reset with pending := some ⟨0x100, Args.zero⟩ }, _, rfl, rfl, .inl rfl, rfl, by decide⟩

theorem witness_IllegalWordsCompleteWithTheirError_q : ∃ (s : State) (c : Command), s.pending = some c ∧ s.rst = false ∧
    (s.host = [] ∨ s.delay = 0) ∧ c.word.toNat % 256 = 0x34 ∧ c.word.getLsbD 9 = true :=
  ⟨{ State.reset with pending := some ⟨0x234, Args.zero⟩ }, _, rfl, rfl, .inl rfl, rfl, by decide⟩

theorem witness_CmdWriteIsAcceptedOrDropped_accepted : ∃ s : State, s.rst = false ∧ s.unitTurn = false ∧
    s.host = [.write 0x014 .word 0x36] ∧ s.pending = none := ⟨idle State.reset [.write 0x014 .word 0x36], by decide⟩

theorem witness_CmdWriteIsAcceptedOrDropped_dropped : ∃ s : State, s.rst = false ∧ s.unitTurn = false ∧
    s.host = [.write 0x014 .word 0x11] ∧ s.pending ≠ none :=
  ⟨busy State.reset .gfMul ⟨2, 3, 0, 0⟩ 1 [.write 0x014 .word 0x11], by decide⟩

theorem exec_next (i : Instr) {s : State} {c : Command} (h : s.pending = some c) : ∃ t, exec i s = .next t := by
  obtain ⟨body, hb⟩ := exec_runCommand i s
  rw [hb]
  exact runCommand_of_pending h body

theorem witness_CommandReadsOnlyItsSnapshot (i : Instr) : ∃ s t, exec i s = .next t :=
  ⟨busy planes i ⟨2, 3, 0, 0⟩ 0 [], exec_next i rfl⟩

theorem witness_FailedCommandWritesNothingElse : ∃ s t, s.err = false ∧ exec .gfInv s = .next t ∧ t.err = true :=
  ⟨busy State.reset .gfInv Args.zero 0 [], _, rfl, rfl, rfl⟩

theorem witness_CommandCompletesIfPending : State.reset.pending = none ∧ (busy planes .nop Args.zero 0 []).pending ≠ none := by decide

theorem shapes_legal : ∀ p, (planes.shape p).legal = true := fun p => by cases p <;> decide

theorem witness_CommandsReachOnlyTheirStorage (i : Instr) : ∃ s t, s.mem.wf = true ∧ (∀ p, (s.shape p).legal = true) ∧
    exec i s = .next t := by
  obtain ⟨t, ht⟩ := exec_next i (s := busy planes i ⟨1, 1, 1, 1⟩ 0 []) rfl
  exact ⟨busy planes i ⟨1, 1, 1, 1⟩ 0 [], t, by show planes.mem.wf = true; decide, shapes_legal, ht⟩

/-- For each statement about one command: a state with that command pending, and operands at the ends of each clause's range. -/
theorem witness_pending (i : Instr) (A : Args) : ∃ (s : State) (c : Command), s.pending = some c ∧ c.args = A ∧ s.mem.wf = true ∧
    (∀ p, (s.shape p).legal = true) ∧ s.shape .p0 = sh 8 2 ∧ s.shape .p1 = sh 8 2 :=
  ⟨busy planes i A 0 [], _, rfl, rfl, by show planes.mem.wf = true; decide, shapes_legal, rfl, rfl⟩

theorem witness_NopOnlyCompletes : ∃ (s : State) (c : Command), s.pending = some c := ⟨busy planes .nop Args.zero 0 [], _, rfl⟩

theorem witness_GfAddIsXor : ∃ (s : State) (c : Command), s.pending = some c ∧ s.mem.wf = true ∧
    c.args.a0.toNat ≤ 0xFF ∧ c.args.a1.toNat ≤ 0xFF := ⟨busy planes .gfAdd ⟨0xFF, 0x8E, 0, 0⟩ 0 [], _, rfl, by decide⟩

theorem witness_GfAddIsXor_operand : ∃ (s : State) (c : Command), s.pending = some c ∧ s.mem.wf = true ∧
    0xFF < c.args.a1.toNat := ⟨busy planes .gfAdd ⟨0xFF, 0x100, 0, 0⟩ 0 [], _, rfl, by decide⟩

theorem witness_GfMulAddsLogarithms : ∃ (s : State) (c : Command), s.pending = some c ∧ s.mem.wf = true ∧
    legalConfig s.build = true ∧ c.args.a0.toNat ≤ 0xFF ∧ c.args.a1.toNat ≤ 0xFF := ⟨busy planes .gfMul ⟨0xFF, 0x8E, 0, 0⟩ 0 [], _, rfl, by decide, test_build_is_legal, by decide⟩

theorem witness_GfMulAddsLogarithms_operand : ∃ (s : State) (c : Command), s.pending = some c ∧ s.mem.wf = true ∧
    0xFF < c.args.a1.toNat := ⟨busy planes .gfMul ⟨0xFF, 0x100, 0, 0⟩ 0 [], _, rfl, by decide⟩

theorem witness_GfMulAddsLogarithms_logs : ∃ (s : State) (c : Command), s.pending = some c ∧ s.mem.wf = true ∧
    legalConfig s.build = true ∧ 254 ≤ 254 ∧ c.args.a0 = (fieldExp Config.unit 254).setWidth 32 ∧
    c.args.a1 = (fieldExp Config.unit 254).setWidth 32 := ⟨busy planes .gfMul ⟨0x8E, 0x8E, 0, 0⟩ 0 [], _, rfl, by decide, test_build_is_legal, by decide⟩

theorem witness_GfMulAddsLogarithms_zero : ∃ (s : State) (c : Command), s.pending = some c ∧ s.mem.wf = true ∧
    legalConfig s.build = true ∧ c.args.a0 = 0 ∧ c.args.a1.toNat ≤ 0xFF := ⟨busy planes .gfMul ⟨0, 0xFF, 0, 0⟩ 0 [], _, rfl, by decide, test_build_is_legal, by decide⟩

theorem witness_GfInvGivesTheInverse : ∃ (s : State) (c : Command), s.pending = some c ∧ s.mem.wf = true ∧
    legalConfig s.build = true ∧ c.args.a0 ≠ 0 ∧ c.args.a0.toNat ≤ 0xFF ∧ c.args.a0 = (fieldExp Config.unit 0).setWidth 32 := ⟨busy planes .gfInv ⟨1, 0, 0, 0⟩ 0 [], _, rfl, by decide, test_build_is_legal, by decide⟩

theorem witness_GfInvGivesTheInverse_zero : ∃ (s : State) (c : Command), s.pending = some c ∧ s.mem.wf = true ∧
    c.args.a0 = 0 := ⟨busy planes .gfInv ⟨0, 0, 0, 0⟩ 0 [], _, rfl, by decide⟩

theorem witness_GfInvGivesTheInverse_operand : ∃ (s : State) (c : Command), s.pending = some c ∧ s.mem.wf = true ∧
    0xFF < c.args.a0.toNat := ⟨busy planes .gfInv ⟨0x100, 0, 0, 0⟩ 0 [], _, rfl, by decide⟩

theorem witness_GfExpLooksUpTheTable : ∃ (s : State) (c : Command), s.pending = some c ∧ s.mem.wf = true ∧
    c.args.a0.toNat ≤ 0xFF := ⟨busy planes .gfExp ⟨0xFF, 0, 0, 0⟩ 0 [], _, rfl, by decide⟩

theorem witness_GfExpLooksUpTheTable_operand : ∃ (s : State) (c : Command), s.pending = some c ∧ s.mem.wf = true ∧
    0xFF < c.args.a0.toNat := ⟨busy planes .gfExp ⟨0x100, 0, 0, 0⟩ 0 [], _, rfl, by decide⟩

theorem witness_GfLogInvertsTheExponent : ∃ (s : State) (c : Command), s.pending = some c ∧ s.mem.wf = true ∧
    legalConfig s.build = true ∧ c.args.a0 ≠ 0 ∧ c.args.a0.toNat ≤ 0xFF ∧ c.args.a0 = (fieldExp Config.unit 0).setWidth 32 := ⟨busy planes .gfLog ⟨1, 0, 0, 0⟩ 0 [], _, rfl, by decide, test_build_is_legal, by decide⟩

theorem witness_GfLogInvertsTheExponent_zero : ∃ (s : State) (c : Command), s.pending = some c ∧ s.mem.wf = true ∧
    c.args.a0 = 0 := ⟨busy planes .gfLog ⟨0, 0, 0, 0⟩ 0 [], _, rfl, by decide⟩

theorem witness_GfLogInvertsTheExponent_operand : ∃ (s : State) (c : Command), s.pending = some c ∧ s.mem.wf = true ∧
    0xFF < c.args.a0.toNat := ⟨busy planes .gfLog ⟨0x100, 0, 0, 0⟩ 0 [], _, rfl, by decide⟩

theorem witness_FieldLawsHold : ∃ cfg : Config, legalConfig cfg = true ∧ cfg ≠ Config.unit ∧ (0x01#8 : Byte) ≠ 0 ∧ 254 ≤ 254 :=
  ⟨⟨0x12D#9, 254#8⟩, test_other_build_is_legal, by decide⟩

theorem witness_ExpTableIsTheShiftRegister : ∃ cfg : Config, cfg.primPoly.getLsbD 8 = true := ⟨⟨0x12D#9, 1#8⟩, by decide⟩

theorem witness_ProductIsTheReducedCarrylessProduct : ∃ cfg : Config, legalConfig cfg = true := ⟨Config.unit, test_build_is_legal⟩

theorem witness_RsEncWritesTheRemainder : ∃ (s : State) (c : Command), s.pending = some c ∧ s.mem.wf = true ∧
    legalConfig s.build = true ∧
    c.args.a0.toNat ≠ 0 ∧ c.args.a1.toNat ≠ 0 ∧ c.args.a1.toNat ≤ 256 ∧
    c.args.a2.toNat + c.args.a0.toNat + c.args.a1.toNat ≤ 256 :=
  ⟨busy message .rsEnc ⟨2, 4, 250, 0⟩ 0 [], _, rfl, by decide, test_build_is_legal, by decide⟩

theorem witness_RsEncChecksInOrder_noData : ∃ (s : State) (c : Command), s.pending = some c ∧ s.mem.wf = true ∧
    c.args.a0.toNat = 0 := ⟨busy planes .rsEnc ⟨0, 0, 0, 0⟩ 0 [], _, rfl, by decide⟩

theorem witness_RsEncChecksInOrder_noEc : ∃ (s : State) (c : Command), s.pending = some c ∧ s.mem.wf = true ∧
    c.args.a0.toNat ≠ 0 ∧ c.args.a1.toNat = 0 := ⟨busy planes .rsEnc ⟨1, 0, 0, 0⟩ 0 [], _, rfl, by decide⟩

theorem witness_RsEncChecksInOrder_tooLarge : ∃ (s : State) (c : Command), s.pending = some c ∧ s.mem.wf = true ∧
    c.args.a0.toNat ≠ 0 ∧ 256 < c.args.a1.toNat := ⟨busy planes .rsEnc ⟨1, 257, 0, 0⟩ 0 [], _, rfl, by decide⟩

theorem witness_RsEncChecksInOrder_range : ∃ (s : State) (c : Command), s.pending = some c ∧ s.mem.wf = true ∧
    c.args.a0.toNat ≠ 0 ∧ c.args.a1.toNat ≠ 0 ∧ c.args.a1.toNat ≤ 256 ∧ 256 < c.args.a2.toNat + c.args.a0.toNat + c.args.a1.toNat := ⟨busy planes .rsEnc ⟨1, 256, 0, 0⟩ 0 [], _, rfl, by decide⟩

theorem witness_RsEncMakesCodewords : ∃ (s t : State) (c : Command), s.pending = some c ∧ s.mem.wf = true ∧
    legalConfig s.build = true ∧
    c.args.a0.toNat ≠ 0 ∧ c.args.a1.toNat ≠ 0 ∧ c.args.a2.toNat + c.args.a0.toNat + c.args.a1.toNat ≤ 256 ∧
    (∀ i, i < c.args.a0.toNat → s.mem.byteAt (symAddr (c.args.a2.toNat + i)) ≠ none) ∧ exec .rsEnc s = .next t := by
  obtain ⟨t, ht⟩ := exec_next .rsEnc (s := busy message .rsEnc ⟨3, 4, 0, 0⟩ 0 []) rfl
  exact ⟨busy message .rsEnc ⟨3, 4, 0, 0⟩ 0 [], t, _, rfl, by decide, test_build_is_legal, by decide, by decide, by decide, by decide, ht⟩

theorem witness_RsGenWritesTheGenerator : ∃ (s : State) (c : Command), s.pending = some c ∧ s.mem.wf = true ∧
    c.args.a1.toNat ≠ 0 ∧ c.args.a1.toNat ≤ 256 ∧ c.args.a2.toNat + c.args.a1.toNat + 1 ≤ 256 :=
  ⟨busy message .rsGen ⟨0, 255, 0, 0⟩ 0 [], _, rfl, by decide⟩

theorem witness_RsGenWritesTheGenerator_errors_noEc : ∃ (s : State) (c : Command), s.pending = some c ∧ s.mem.wf = true ∧
    c.args.a1.toNat = 0 := ⟨busy planes .rsGen ⟨0, 0, 0, 0⟩ 0 [], _, rfl, by decide⟩

theorem witness_RsGenWritesTheGenerator_errors_tooLarge : ∃ (s : State) (c : Command), s.pending = some c ∧ s.mem.wf = true ∧
    256 < c.args.a1.toNat := ⟨busy planes .rsGen ⟨0, 257, 0, 0⟩ 0 [], _, rfl, by decide⟩

theorem witness_RsGenWritesTheGenerator_errors_range : ∃ (s : State) (c : Command), s.pending = some c ∧ s.mem.wf = true ∧
    c.args.a1.toNat ≠ 0 ∧ c.args.a1.toNat ≤ 256 ∧ 256 < c.args.a2.toNat + c.args.a1.toNat + 1 := ⟨busy planes .rsGen ⟨0, 256, 0, 0⟩ 0 [], _, rfl, by decide⟩

theorem witness_GeneratorIsMonicWithItsRoots : ∃ cfg : Config, legalConfig cfg = true ∧ cfg.genBase = 254 ∧ 0 < 1 :=
  ⟨⟨0x12D#9, 254#8⟩, test_other_build_is_legal, by decide⟩

theorem witness_DivisionGivesQuotientAndRemainder : ∃ (cfg : Config) (D : Poly), legalConfig cfg = true ∧ trim D = D ∧ D ≠ [0] :=
  ⟨Config.unit, [0x02, 0x00], test_build_is_legal, by decide⟩

theorem witness_ShiftRegisterGivesTheParity : ∃ (cfg : Config) (m : List Byte), legalConfig cfg = true ∧ m ≠ [] ∧ 1 ≤ 1 :=
  ⟨Config.unit, [0], test_build_is_legal, by decide⟩

theorem witness_MxInitConstructsAClearPlane : ∃ (s : State) (c : Command), s.pending = some c ∧ s.mem.wf = true ∧
    c.args.a0.toNat ≠ 0 ∧ c.args.a1.toNat ≠ 0 ∧ c.args.a0.toNat ≤ 65535 ∧ c.args.a1.toNat ≤ 65535 ∧ (c.args.a0.toNat + 31) / 32 * c.args.a1.toNat ≤ 8192 := ⟨busy planes (.mxInit .p0) ⟨32, 8192, 0, 0⟩ 0 [], _, rfl, by decide⟩

theorem witness_MxInitConstructsAClearPlane_wide : ∃ (s : State) (c : Command), s.pending = some c ∧ s.mem.wf = true ∧
    c.args.a0.toNat ≠ 0 ∧ c.args.a1.toNat ≠ 0 ∧ c.args.a0.toNat ≤ 65535 ∧ c.args.a1.toNat ≤ 65535 ∧ (c.args.a0.toNat + 31) / 32 * c.args.a1.toNat ≤ 8192 := ⟨busy planes (.mxInit .p0) ⟨65535, 1, 0, 0⟩ 0 [], _, rfl, by decide⟩

theorem witness_MxInitConstructsAClearPlane_shape : ∃ (s : State) (c : Command), s.pending = some c ∧ s.mem.wf = true ∧
    ¬ (c.args.a0.toNat + 31) / 32 * c.args.a1.toNat ≤ 8192 := ⟨busy planes (.mxInit .p0) ⟨33, 4097, 0, 0⟩ 0 [], _, rfl, by decide⟩

theorem witness_MxInitConstructsAClearPlane_tooWide : ∃ (s : State) (c : Command), s.pending = some c ∧ s.mem.wf = true ∧
    ¬ c.args.a0.toNat ≤ 65535 := ⟨busy planes (.mxInit .p0) ⟨65536, 1, 0, 0⟩ 0 [], _, rfl, by decide⟩

theorem witness_MxGetReadsTheBit : ∃ (s : State) (c : Command), s.pending = some c ∧ s.mem.wf = true ∧
    c.args.a0.toNat < (s.shape .p0).width.toNat ∧ c.args.a1.toNat < (s.shape .p0).height.toNat :=
  ⟨busy planes (.mxGet .p0) ⟨7, 1, 0, 0⟩ 0 [], _, rfl, by decide⟩

theorem witness_MxSetWritesOneBit : ∃ (s : State) (c : Command), s.pending = some c ∧ s.mem.wf = true ∧
    (∀ p, (s.shape p).legal = true) ∧ c.args.a0.toNat < (s.shape .p1).width.toNat ∧ c.args.a1.toNat < (s.shape .p1).height.toNat :=
  ⟨busy planes (.mxSet .p1) ⟨7, 1, 0, 0⟩ 0 [], _, rfl, by decide, shapes_legal, by decide⟩

theorem witness_MxFlipInvertsOneBit : ∃ (s : State) (c : Command), s.pending = some c ∧ s.mem.wf = true ∧
    (∀ p, (s.shape p).legal = true) ∧ c.args.a0.toNat < (s.shape .p0).width.toNat ∧ c.args.a1.toNat < (s.shape .p0).height.toNat :=
  ⟨busy planes (.mxFlip .p0) ⟨0, 0, 0, 0⟩ 0 [], _, rfl, by decide, shapes_legal, by decide⟩

theorem witness_MxFillSetsTheRectangle : ∃ (s : State) (c : Command), s.pending = some c ∧ s.mem.wf = true ∧
    (∀ p, (s.shape p).legal = true) ∧ c.args.a2.toNat ≠ 0 ∧ c.args.a3.toNat ≠ 0 ∧
    c.args.a0.toNat + c.args.a2.toNat ≤ (s.shape .p0).width.toNat ∧ c.args.a1.toNat + c.args.a3.toNat ≤ (s.shape .p0).height.toNat :=
  ⟨busy planes (.mxFill .p0) ⟨7, 0, 1, 2⟩ 0 [], _, rfl, by decide, shapes_legal, by decide⟩

theorem witness_MxXorAddsTheMask : ∃ (s : State) (c : Command), s.pending = some c ∧ s.mem.wf = true ∧
    (∀ p, (s.shape p).legal = true) ∧ s.shape .p0 ≠ Shape.none ∧ s.shape .p0 = s.shape .p1 :=
  ⟨busy planes (.mxXor .p0 .p1) Args.zero 0 [], _, rfl, by decide, shapes_legal, by decide⟩

theorem witness_MxChecksInOrder_bounds : ∃ (s : State) (c : Command), s.pending = some c ∧
    s.shape .p0 ≠ Shape.none ∧ (s.shape .p0).width.toNat ≤ c.args.a0.toNat := ⟨busy planes (.mxGet .p0) ⟨8, 0, 0, 0⟩ 0 [], _, rfl, by decide⟩

theorem witness_MxChecksInOrder_boundsRow : ∃ (s : State) (c : Command), s.pending = some c ∧
    s.shape .p0 ≠ Shape.none ∧ (s.shape .p0).height.toNat ≤ c.args.a1.toNat := ⟨busy planes (.mxGet .p0) ⟨0, 2, 0, 0⟩ 0 [], _, rfl, by decide⟩

theorem witness_MxChecksInOrder_uninit : ∃ (s : State) (c : Command), s.pending = some c ∧
    s.shape .p0 = Shape.none := ⟨busy State.reset (.mxGet .p0) ⟨0, 0, 0, 0⟩ 0 [], _, rfl, by decide⟩

theorem witness_MxChecksInOrder_fill : ∃ (s : State) (c : Command), s.pending = some c ∧
    s.shape .p0 ≠ Shape.none ∧ (s.shape .p0).width.toNat < c.args.a0.toNat + c.args.a2.toNat := ⟨busy planes (.mxFill .p0) ⟨7, 0, 2, 1⟩ 0 [], _, rfl, by decide⟩

theorem witness_MxChecksInOrder_fillEmpty : ∃ (s : State) (c : Command), s.pending = some c ∧
    s.shape .p0 ≠ Shape.none ∧ c.args.a2 = 0 := ⟨busy planes (.mxFill .p0) ⟨7, 0, 0, 1⟩ 0 [], _, rfl, by decide⟩

theorem witness_MxChecksInOrder_mismatch : ∃ (s : State) (c : Command), s.pending = some c ∧
    s.shape .p0 ≠ Shape.none ∧ s.shape .p1 ≠ Shape.none ∧ s.shape .p0 ≠ s.shape .p1 := ⟨busy { planes with shape1 := sh 16 1 } (.mxXor .p0 .p1) ⟨0, 0, 0, 0⟩ 0 [], _, rfl, by decide⟩

theorem witness_MxXorTwiceIsTheIdentity : ∃ (s t u : State) (c d : Command), PlaneId.p0 ≠ PlaneId.p1 ∧ s.mem.wf = true ∧
    (∀ p, (s.shape p).legal = true) ∧ s.shape .p0 ≠ Shape.none ∧ s.shape .p0 = s.shape .p1 ∧ s.pending = some c ∧
    exec (.mxXor .p0 .p1) s = .next t ∧ exec (.mxXor .p0 .p1) { t with pending := some d } = .next u := by
  obtain ⟨t, ht⟩ := exec_next (.mxXor .p0 .p1) (s := busy planes (.mxXor .p0 .p1) Args.zero 0 []) rfl
  obtain ⟨u, hu⟩ := exec_next (.mxXor .p0 .p1) (s := { t with pending := some ⟨0x235, Args.zero⟩ }) rfl
  exact ⟨busy planes (.mxXor .p0 .p1) Args.zero 0 [], t, u, _, _, by decide, by decide, shapes_legal, by decide, by decide, rfl, ht, hu⟩

/-- For each statement about a host event: the event is the next to happen, with a command pending or without one. -/
theorem witness_event (e : HostEvent) (rest : List HostEvent) :
    (∃ s : State, s.rst = false ∧ s.unitTurn = false ∧ s.pending = none ∧ s.mem.wf = true ∧ (∀ p, (s.shape p).legal = true) ∧
      s.host = e :: rest) ∧
    ∃ s : State, s.rst = false ∧ s.unitTurn = false ∧ s.pending ≠ none ∧ s.mem.wf = true ∧ (∀ p, (s.shape p).legal = true) ∧
      s.host = e :: rest :=
  ⟨⟨idle planes (e :: rest), rfl, rfl, rfl, by show planes.mem.wf = true; decide, shapes_legal, rfl⟩,
    ⟨busy planes .nop Args.zero 1 (e :: rest), rfl, rfl, by simp [busy], by show planes.mem.wf = true; decide, shapes_legal, rfl⟩⟩

theorem witness_BusErrorsSetOnlyBuserr_narrow : ∃ s : State, s.rst = false ∧ s.unitTurn = false ∧
    Size.byte ≠ Size.word ∧ s.host = [.read 0x000 .byte] :=
  ⟨idle planes [.read 0x000 .byte], by decide⟩

theorem witness_BusErrorsSetOnlyBuserr_misaligned : ∃ s : State, s.rst = false ∧ s.unitTurn = false ∧
    (0x1FFFD#17).toNat % 4 ≠ 0 ∧ s.host = [.write 0x1FFFD .word 1] :=
  ⟨busy planes .nop Args.zero 1 [.write 0x1FFFD .word 1], by decide⟩

theorem witness_BusErrorsSetOnlyBuserr_unmapped : ∃ s : State, s.rst = false ∧ s.unitTurn = false ∧
    0x800 ≤ (0xFFFC#17).toNat ∧ (0xFFFC#17).toNat < 0x10000 ∧ s.host = [.read 0xFFFC .word] :=
  ⟨idle planes [.read 0xFFFC .word], by decide⟩

theorem witness_BusErrorsSetOnlyBuserr_unmappedFirst : ∃ s : State, s.rst = false ∧ s.unitTurn = false ∧
    0x800 ≤ (0x800#17).toNat ∧ (0x800#17).toNat < 0x10000 ∧ s.host = [.write 0x800 .word 1] :=
  ⟨idle planes [.write 0x800 .word 1], by decide⟩

theorem witness_ConstantRegistersAreHardWired_id : ∃ s : State, s.rst = false ∧ s.unitTurn = false ∧
    ((0x000 : Nat), 0x47465253#32) = (0x000, 0x47465253) ∧ s.host = [.read (BitVec.ofNat 17 0x000) .word] :=
  ⟨idle planes [.read (BitVec.ofNat 17 0x000) .word], by decide⟩

theorem witness_ConstantRegistersAreHardWired_version : ∃ s : State, s.rst = false ∧ s.unitTurn = false ∧
    ((0x004 : Nat), 0x00010000#32) = (0x004, 0x00010000) ∧ s.host = [.read (BitVec.ofNat 17 0x004) .word] :=
  ⟨busy planes .nop Args.zero 1 [.read (BitVec.ofNat 17 0x004) .word], by decide⟩

theorem witness_ConstantRegistersAreHardWired_param : ∃ s : State, s.rst = false ∧ s.unitTurn = false ∧
    ((0x01C : Nat), 0x0000011D#32) = (0x01C, 0#8 ++ s.build.genBase ++ 0#7 ++ s.build.primPoly) ∧
    s.host = [.read (BitVec.ofNat 17 0x01C) .word] :=
  ⟨idle planes [.read (BitVec.ofNat 17 0x01C) .word], by decide⟩

theorem witness_ConstantRegistersAreHardWired_reservedFirst : ∃ s : State, s.rst = false ∧ s.unitTurn = false ∧
    0x038 ≤ 0x038 ∧ 0x038 ≤ 0x3FC ∧ 0x038 % 4 = 0 ∧ s.host = [.write (BitVec.ofNat 17 0x038) .word 5] :=
  ⟨busy planes .nop Args.zero 1 [.write (BitVec.ofNat 17 0x038) .word 5], by decide⟩

theorem witness_ConstantRegistersAreHardWired_reservedLast : ∃ s : State, s.rst = false ∧ s.unitTurn = false ∧
    0x038 ≤ 0x3FC ∧ 0x3FC ≤ 0x3FC ∧ 0x3FC % 4 = 0 ∧ s.host = [.read (BitVec.ofNat 17 0x3FC) .word] :=
  ⟨idle planes [.read (BitVec.ofNat 17 0x3FC) .word], by decide⟩

theorem witness_RegisterReadsHaveNoSideEffects : ∃ (s : State) (k : Word), s.rst = false ∧ s.unitTurn = false ∧
    (0x018, k) ∈ [(0x018, s.result)] ∧ s.host = [.read (BitVec.ofNat 17 0x018) .word] :=
  ⟨idle planes [.read 0x018 .word], 0, by decide⟩

theorem witness_ReadOnlyRegistersIgnoreWrites : ∃ s : State, s.rst = false ∧ s.unitTurn = false ∧
    0x034 ∈ [0x010, 0x018, 0x030, 0x034] ∧ s.host = [.write (BitVec.ofNat 17 0x034) .word 5] :=
  ⟨busy planes .nop Args.zero 1 [.write (BitVec.ofNat 17 0x034) .word 5], by decide⟩

theorem witness_StatusWriteClearsW1cBits : ∃ (s : State) (v : Word), s.rst = false ∧ s.unitTurn = false ∧
    s.host = [.write 0x00C .word v] ∧ s.done = true := ⟨idle { planes with done := true } [.write 0x00C .word 0x2], 0x2, by decide⟩

theorem witness_ArgWritesLeaveTheSnapshot : ∃ (s : State) (v : Word), s.rst = false ∧ s.unitTurn = false ∧ s.pending ≠ none ∧
    s.host = [.write (BitVec.ofNat 17 (0x020 + 4 * 3)) .word v] :=
  ⟨busy planes .gfMul ⟨2, 3, 0, 0⟩ 1 [.write 0x02C .word 7], 7, by decide⟩

theorem witness_CtrlWriteSetsIe : ∃ (s : State) (v : Word), s.rst = false ∧ s.unitTurn = false ∧ v.getLsbD 1 = false ∧
    s.host = [.write 0x008 .word v] := ⟨idle planes [.write 0x008 .word 1], 1, by decide⟩

theorem witness_IrqIsIeAndDone : (2#32).getLsbD 1 = true ∧ (2#32).getLsbD 0 = false := by decide

theorem witness_SymWindowReadsAndWritesSymbols : ∃ (s : State) (v : Word), s.rst = false ∧ s.pending = none ∧ s.mem.wf = true ∧
    255 < 256 ∧ s.host = [.write (BitVec.ofNat 17 (0x400 + 4 * 255)) .word v] :=
  ⟨idle message [.write 0x7FC .word 9], 9, by decide⟩

theorem witness_SymWindowReadsAndWritesSymbols_read : ∃ s : State, s.rst = false ∧ s.pending = none ∧ s.mem.wf = true ∧
    s.host = [.read (BitVec.ofNat 17 (0x400 + 4 * 0)) .word] ∧ s.mem.byteAt (symAddr 0) = some 1 :=
  ⟨idle message [.read 0x400 .word], by decide⟩

theorem witness_PlaneWindowReadsTheShape : ∃ s : State, s.rst = false ∧ s.pending = none ∧ 8191 < 8192 ∧
    s.host = [.read (BitVec.ofNat 17 (planeBase .p1 + 4 * 8191)) .word] ∧ 1 < ((s.shape .p1).width.toNat + 31) / 32 * (s.shape .p1).height.toNat :=
  ⟨idle planes [.read 0x1FFFC .word], by decide⟩

theorem witness_PlaneWindowWritesTheShape : ∃ (s : State) (v : Word), s.rst = false ∧ s.pending = none ∧ s.mem.wf = true ∧
    (∀ p, (s.shape p).legal = true) ∧ s.host = [.write (BitVec.ofNat 17 (planeBase .p0 + 4 * 1)) .word v] :=
  ⟨idle planes [.write 0x10004 .word 0xFF], 0xFF, by decide, by decide, by decide, shapes_legal, by decide⟩

theorem witness_PlaneBitsLieWhereTheLayoutSays : ∃ s : State, 7 < (s.shape .p1).width.toNat ∧ 1 < (s.shape .p1).height.toNat :=
  ⟨planes, by decide⟩

theorem witness_WritesWhileBusyAreDropped : ∃ (s : State) (v : Word), s.rst = false ∧ s.unitTurn = false ∧ s.pending ≠ none ∧
    s.host = [.write 0x1FFFC .word v] ∧ 0x10000 ≤ (0x1FFFC#17).toNat ∧ (0x1FFFC#17).toNat % 4 = 0 :=
  ⟨busy planes .nop Args.zero 1 [.write 0x1FFFC .word 5], 5, by decide⟩

theorem witness_WritesWhileBusyAreDropped_sym : ∃ s : State, s.rst = false ∧ s.unitTurn = false ∧
    s.pending ≠ none ∧ 0x400 ≤ (0x400#17).toNat ∧ (0x400#17).toNat < 0x800 ∧ (0x400#17).toNat % 4 = 0 ∧ s.host = [.write 0x400 .word 5] :=
  ⟨busy planes .nop Args.zero 1 [.write 0x400 .word 5], by decide⟩

theorem witness_WritesWhileBusyAreDropped_symLast : ∃ s : State, s.rst = false ∧ s.unitTurn = false ∧
    s.pending ≠ none ∧ 0x400 ≤ (0x7FC#17).toNat ∧ (0x7FC#17).toNat < 0x800 ∧ (0x7FC#17).toNat % 4 = 0 ∧ s.host = [.write 0x7FC .word 5] :=
  ⟨busy planes .nop Args.zero 1 [.write 0x7FC .word 5], by decide⟩

theorem witness_ReadsWhileBusyAreOpen : ∃ s : State, s.rst = false ∧ s.unitTurn = false ∧ s.pending ≠ none ∧
    s.host = [.read 0x7FC .word] ∧ (0x7FC#17).toNat % 4 = 0 ∧ 0x400 ≤ (0x7FC#17).toNat :=
  ⟨busy planes .nop Args.zero 1 [.read 0x7FC .word], by decide⟩

theorem witness_WritesWhileBusyAreDropped_register : ∃ s : State, s.rst = false ∧ s.unitTurn = false ∧ s.pending ≠ none ∧
    ((0x02C#17).toNat, Reg.arg3) ∈ [(0x008, Reg.ctrl), (0x02C, .arg3)] ∧ s.host = [.write 0x02C .word 5] :=
  ⟨busy planes .nop Args.zero 1 [.write 0x02C .word 5], by decide⟩

theorem witness_ReadsWhileBusyAreOpen_register : ∃ s : State, s.rst = false ∧ s.unitTurn = false ∧
    s.pending ≠ none ∧ (0x3FC#17).toNat < 0x400 ∧ (0x3FC#17).toNat % 4 = 0 ∧ s.host = [.read 0x3FC .word] :=
  ⟨busy planes .nop Args.zero 1 [.read 0x3FC .word], by decide⟩

theorem witness_ResetLeavesTheResetValues : 255 < 256 ∧ (Reg.param, 0x0000011D#32) ∈ [(Reg.param, 0x0000011D#32)] := by decide

theorem witness_HardwareResetRestoresTheResetState : ∃ s : State, s.unitTurn = false ∧ s.pending ≠ none ∧ s.host = [.assertRst, .releaseRst] :=
  ⟨busy planes .nop Args.zero 4 [.assertRst, .releaseRst], by decide⟩

theorem witness_SoftResetPreservesSym : ∃ (s : State) (v : Word) (c : Command), s.rst = false ∧ s.unitTurn = false ∧
    s.mem.wf = true ∧ v.getLsbD 1 = true ∧ s.host = [.write 0x008 .word v] ∧ s.pending = some c ∧ decodeTableWord 32 c.word.toNat = some .rsEnc ∧
    c.args.a2.toNat + c.args.a0.toNat ≤ 3 ∧ 6 < c.args.a2.toNat + c.args.a0.toNat + c.args.a1.toNat :=
  ⟨busy message .rsEnc ⟨3, 4, 0, 0⟩ 1 [.write 0x008 .word 2], 2, _, by decide, by decide, by decide, by decide, by decide, rfl,
    by decide, by decide, by decide⟩

theorem witness_SoftResetPreservesSym_gen : ∃ (s : State) (c : Command), s.pending = some c ∧ decodeTableWord 32 c.word.toNat = some .rsGen ∧
    c.args.a2.toNat ≤ 250 ∧ 255 ≤ c.args.a2.toNat + c.args.a1.toNat :=
  ⟨busy message .rsGen ⟨0, 7, 250, 0⟩ 1 [.write 0x008 .word 2], _, rfl, by decide⟩

theorem witness_StepStopsOnlyOnTransactionsDuringReset : ∃ s : State, s.rst = true ∧ s.host = [.wait] ∧
    HostEvent.isTransaction .wait = true := ⟨idle { State.reset with rst := true } [.wait], by decide⟩

theorem witness_StepStopsOnlyOnTransactionsDuringReset_next : ∃ s : State, s.rst = true ∧ s.host = [.releaseRst] ∧
    HostEvent.isTransaction .releaseRst = false := ⟨idle { State.reset with rst := true } [.releaseRst], by decide⟩

/-- A state with a command pending, a plane of 8 × 2 and a symbol. -/
def midRun : State := busy { State.reset with shape0 := sh 8 2, mem := [(0x400, 0x53)] } .gfMul ⟨2, 3, 0, 0⟩ 0 []

theorem witness_StepKeepsTheInvariant : ∃ t, midRun.Inv ∧ step midRun = .next t := by
  refine ⟨_, ⟨test_build_is_legal, by decide, fun p => by cases p <;> decide, fun p i _ h => ?_, fun c h => by cases h; decide, by decide, by decide,
    by decide⟩, rfl⟩
  have : midRun.mem.byteAt (planeBase p + i / 8) = some 0#8 := by
    have hp : planeBase p = 0x10000 ∨ planeBase p = 0x18000 := planeBase_cases p
    show (if 0x400 = planeBase p + i / 8 then _ else Memory.unlisted (planeBase p + i / 8)) = _
    rw [if_neg (by omega)]
    simp [Memory.unlisted, isSymCell]
    omega
  simp [Memory.planeBit, Memory.planeByte, this] at h

theorem witness_DoneRisesOnlyAtCompletion : ∃ t, step midRun = .next t ∧ midRun.done = false ∧ t.done = true := ⟨_, rfl, rfl, rfl⟩

theorem witness_ResultsChangeOnlyAtCompletionOrReset : ∃ s t, step s = .next t ∧ s.unitTurn = false ∧ s.pending ≠ none :=
  ⟨busy planes .nop Args.zero 1 [.wait], _, rfl, by decide, by decide⟩

theorem witness_ResultsChangeOnlyAtCompletionOrReset_hard : ∃ s t, step s = .next t ∧ s.unitTurn = false ∧ s.shape0 ≠ Shape.none ∧
    t.shape0 = Shape.none ∧ s.host = [.assertRst] := ⟨idle planes [.assertRst], _, rfl, by decide, by decide, rfl, rfl⟩

theorem witness_ResultsChangeOnlyAtCompletionOrReset_soft : ∃ s t, step s = .next t ∧ s.unitTurn = false ∧ s.shape0 ≠ Shape.none ∧
    t.shape0 = Shape.none ∧ s.host = [.write 0x008 .word 2] := ⟨idle planes [.write 0x008 .word 2], _, rfl, by decide, by decide, rfl, rfl⟩

theorem witness_WaitEnds : ∃ (s : State) (c : Command), s.pending = some c ∧ s.rst = false ∧ s.host = [.wait, .read 0x018 .word] ∧
    s.delay = 2 := ⟨busy planes .nop Args.zero 2 [.wait, .read 0x018 .word], _, rfl, by decide⟩

end Sys2Proof.Tests
end

section
/-! SUPPORT. The lengths of the polynomial primitives: `gen(n)` is monic with n + 1 coefficients, and the parity of RS.ENC has exactly
`n` symbols, so both stay in the range their commands have checked (R167, R175, R177). -/

namespace Sys2Proof.Machine

theorem fieldMul_comm (c : Config) (a b : Byte) : fieldMul c a b = fieldMul c b a := by
  unfold fieldMul
  simp only [or_comm (a := a = 0#8)]
  cases fieldLog c a <;> cases fieldLog c b <;> simp only [Nat.add_comm]

@[simp] theorem fieldExp_zero (c : Config) : fieldExp c 0 = 1#8 := rfl

theorem fieldMul_one_right {c : Config} (h : legalConfig c = true) (a : Byte) : fieldMul c a 1#8 = a := by
  simpa using fieldMul_fieldExp h a 0

theorem fieldMul_one_left {c : Config} (h : legalConfig c = true) (a : Byte) : fieldMul c 1#8 a = a := by
  rw [fieldMul_comm, fieldMul_one_right h]

theorem fieldInv_one {c : Config} (h : legalConfig c = true) : fieldInv c 1#8 = some 1#8 := by
  have hlog : fieldLog c 1#8 = some 0 := fieldLog_fieldExp h (i := 0) (by decide)
  have hexp : fieldExp c 255 = 1#8 := by rw [fieldExp, lfsrAfter_255 h]; rfl
  simp [fieldInv, hlog, hexp]

/-- A leading zero goes, unless it is the only coefficient (R165). -/
theorem trim_zero_cons_length_le {l : Poly} (hl : l ≠ []) : (trim (0#8 :: l)).length ≤ l.length := by
  obtain ⟨b, l, rfl⟩ := List.exists_cons_of_ne_nil hl
  exact trim_length_le (List.cons_ne_nil b l)

/-- A longer list keeps its leading coefficient in a sum. -/
theorem addAligned_cons_left (a : Byte) {P Q : Poly} (h : Q.length ≤ P.length) :
    addAligned (a :: P) Q = a :: addAligned P Q := by
  simp [addAligned, Nat.sub_eq_zero_of_le h, Nat.sub_eq_zero_of_le (Nat.le_succ_of_le h), Nat.succ_sub h,
    List.replicate_succ, fieldAdd]

theorem addAligned_cons_cons (a b : Byte) {P Q : Poly} (h : P.length = Q.length) :
    addAligned (a :: P) (b :: Q) = fieldAdd a b :: addAligned P Q := by
  simp [addAligned, h]

theorem mulRaw_cons_length (c : Config) (p : Byte) (P Q : Poly) : (mulRaw c (p :: P) Q).length = P.length + Q.length := by
  induction P generalizing p with
  | nil => simp [mulRaw]
  | cons b P ih =>
    rw [mulRaw, length_addAligned, ih]
    simp only [List.length_append, List.length_map, List.length_replicate, List.length_cons]
    omega

theorem mulRaw_length_le (c : Config) (P : Poly) (q : Byte) (Q : Poly) : (mulRaw c P (q :: Q)).length ≤ P.length + Q.length := by
  cases P with
  | nil => simp [mulRaw]
  | cons p P => rw [mulRaw_cons_length]; simp only [List.length_cons]; omega

/-- A product of two monic polynomials is monic, and its degree is the sum of theirs (R166). -/
theorem pmul_monic {c : Config} (h : legalConfig c = true) (P Q : Poly) :
    ∃ R : Poly, pmul c (1#8 :: P) (1#8 :: Q) = 1#8 :: R ∧ R.length = P.length + Q.length := by
  obtain ⟨R, hraw⟩ : ∃ R : Poly, mulRaw c (1#8 :: P) (1#8 :: Q) = 1#8 :: R := by
    rw [mulRaw, List.map_cons, fieldMul_one_left h, List.cons_append, addAligned_cons_left]
    · exact ⟨_, rfl⟩
    · simpa [Nat.add_comm] using mulRaw_length_le c P 1#8 Q
  refine ⟨R, ?_, ?_⟩
  · rw [pmul, if_neg (by simp), hraw, trim_of_head (P := 1#8 :: R) (by simp)]
  · have hlen := mulRaw_cons_length c 1#8 P (1#8 :: Q)
    rw [hraw, List.length_cons, List.length_cons] at hlen
    omega

/-- `gen(n)` is monic of degree n (R167). -/
theorem gen_monic {c : Config} (h : legalConfig c = true) (n : Nat) : ∃ g : Poly, gen c n = 1#8 :: g ∧ g.length = n := by
  induction n with
  | zero => exact ⟨[], rfl, rfl⟩
  | succ n ih =>
    obtain ⟨g, hg, hlen⟩ := ih
    obtain ⟨R, hR, hRlen⟩ := pmul_monic h g [alphaPow c (c.genBase.toNat + n)]
    exact ⟨R, by rw [gen_succ, hg, hR], by simpa [hlen] using hRlen⟩

theorem gen_length {c : Config} (h : legalConfig c = true) (n : Nat) : (gen c n).length = n + 1 := by
  obtain ⟨g, hg, hlen⟩ := gen_monic h n
  rw [hg, List.length_cons, hlen]

/-- One turn of the division by a monic polynomial cancels the leading coefficient of the remainder (R166). -/
theorem divTurn_length_le {c : Config} (h : legalConfig c = true) (r : Byte) {g R : Poly} (hg : 1 ≤ g.length)
    (hle : g.length ≤ R.length) :
    (padd (r :: R) (pmono c (1#8 :: g) (R.length - g.length) r)).length ≤ R.length := by
  obtain ⟨S, hsum, hS⟩ : ∃ S : Poly,
      addAligned (r :: R) (pmono c (1#8 :: g) (R.length - g.length) r) = 0#8 :: S ∧ S.length = R.length := by
    by_cases hr : r = 0#8
    · rw [pmono, if_pos (.inl hr), hr, addAligned_cons_left _ (by simp; omega)]
      exact ⟨_, rfl, by simp; omega⟩
    · rw [pmono, if_neg (by simp [hr]), List.map_cons, fieldMul_one_left h, List.cons_append, trim_of_head (by simpa using hr),
        addAligned_cons_cons _ _ (by simp; omega), fieldAdd, BitVec.xor_self]
      exact ⟨_, rfl, by simp; omega⟩
  rw [padd, hsum, ← hS]
  exact trim_zero_cons_length_le (List.ne_nil_of_length_pos (by omega))

/-- With fuel for every turn, the division by a monic polynomial of degree `g.length` leaves at most that many coefficients. -/
theorem divLoop_remainder_length_le {c : Config} (h : legalConfig c = true) {g : Poly} (hg : 1 ≤ g.length) (fuel : Nat) :
    ∀ Q R : Poly, R ≠ [] → R.length ≤ fuel + g.length →
      (divLoop c (1#8 :: g) 1#8 fuel Q R).2.length ≤ g.length := by
  induction fuel with
  | zero => exact fun Q R _ hlen => by simpa [divLoop] using hlen
  | succ fuel ih =>
    intro Q R hR hlen
    obtain ⟨r, R, rfl⟩ := List.exists_cons_of_ne_nil hR
    rw [List.length_cons] at hlen
    by_cases hturn : r :: R ≠ [0#8] ∧ degree (1#8 :: g) ≤ degree (r :: R)
    · have hle : g.length ≤ R.length := by simpa [degree] using hturn.2
      have hshort := divTurn_length_le h r hg hle
      rw [divLoop, if_pos hturn]
      refine ih _ _ (trim_ne_nil _) ?_
      simp only [lead, List.headD_cons, fieldMul_one_right h, degree, List.length_cons, Nat.add_sub_cancel]
      omega
    · rw [divLoop, if_neg hturn]
      by_cases hz : r :: R = [0#8]
      · rw [hz]; exact hg
      · have hlt : R.length < g.length := by simpa [hz, degree] using hturn
        exact hlt

/-- The parity has `n` symbols (R175). -/
theorem parity_length {c : Config} (h : legalConfig c = true) (m : List Byte) {n : Nat} (hn : 1 ≤ n) :
    (parity c m n).length = n := by
  obtain ⟨g, hg, hlen⟩ := gen_monic h n
  refine padLeft_length ?_
  rw [hg, pdivmod, lead, List.headD_cons, fieldInv_one h, Option.getD_some, ← hlen]
  exact divLoop_remainder_length_le h (by omega) _ _ _ (trim_ne_nil _) (Nat.le_add_right _ _)

end Sys2Proof.Machine
end

section
/-! SUPPORT. The unit's invariant is kept by each shared operation, then by each command, by each bus event, and so by a step. -/

namespace Sys2Proof.Machine

/-! ### The operations on the state -/

/-- A legal shape fits the plane's storage (R32, R117). -/
theorem legal_fits {sh : Shape} (h : sh.legal = true) : sh.rowWords * sh.height.toNat ≤ 8192 := by
  simp only [Shape.legal, Bool.or_eq_true, beq_iff_eq, Bool.and_eq_true, decide_eq_true_eq] at h
  rcases h with rfl | ⟨-, hfits⟩
  · decide
  · exact hfits

theorem rowOf_lt {sh : Shape} {i : Nat} (h : i < 32 * (sh.rowWords * sh.height.toNat)) : sh.rowOf i < sh.height.toNat :=
  Nat.div_lt_of_lt_mul (Nat.div_lt_of_lt_mul h)

/-- The invariant does not speak of these fields. -/
theorem inv_frame {s : State} (h : s.Inv) {ie busyErr busErr : Bool} {args : Args} {draws delay : Nat} {host : List HostEvent}
    {response : Option Response} :
    ({ s with
        ie := ie, busyErr := busyErr, busErr := busErr, args := args, draws := draws, delay := delay, host := host,
        response := response } : State).Inv :=
  ⟨h.buildLegal, h.memWf, h.shapesLegal, h.planesClean, h.latch, h.errHasCode, h.resultByte, h.rstIdle⟩

/-- New storage keeps the invariant if each plane bit set in it was set before or lies in the plane's shape (R39). -/
theorem inv_withMem {s : State} (h : s.Inv) {m : Memory} (hm : m.wf = true)
    (hbit : ∀ p i, i < 262144 → m.planeBit p i = true → s.mem.planeBit p i = true ∨
      ((s.shape p).columnOf i < (s.shape p).width.toNat ∧ (s.shape p).rowOf i < (s.shape p).height.toNat)) :
    ({ s with mem := m } : State).Inv :=
  ⟨h.buildLegal, hm, h.shapesLegal, fun p i hi hb => (hbit p i hi hb).elim (h.planesClean p i hi) id, h.latch, h.errHasCode,
    h.resultByte, h.rstIdle⟩

theorem inv_withRst {s : State} (h : s.Inv) {r : Bool} (hr : r = true → s.pending = none) : ({ s with rst := r } : State).Inv :=
  ⟨h.buildLegal, h.memWf, h.shapesLegal, h.planesClean, h.latch, h.errHasCode, h.resultByte, hr⟩

theorem inv_setResult {s : State} (h : s.Inv) {v : Word} (hv : v.toNat < 256) : (s.setResult v).Inv :=
  ⟨h.buildLegal, h.memWf, h.shapesLegal, h.planesClean, h.latch, h.errHasCode, hv, h.rstIdle⟩

theorem inv_setBit {s : State} (h : s.Inv) {p : PlaneId} {x y : Nat} (hx : x < (s.shape p).width.toNat)
    (hy : y < (s.shape p).height.toNat) (b : Bool) : (s.setBit p x y b).Inv := by
  have hplace : (s.shape p).bitIndex x y < 262144 := by
    have hfits := legal_fits (h.shapesLegal p)
    have hlt := bitIndex_lt hx hy
    omega
  refine inv_withMem h (wf_writePlaneBit h.memWf hplace b) fun r i hi hb => ?_
  rw [planeBit_writePlaneBit h.memWf hplace hi] at hb
  split at hb
  · next hsame =>
    obtain ⟨rfl, rfl⟩ := hsame
    rw [columnOf_bitIndex hx, rowOf_bitIndex hx]
    exact .inr ⟨hx, hy⟩
  · exact .inl hb

theorem inv_mapPlane {s : State} (h : s.Inv) (p q : PlaneId) (g : Nat → Nat → Bool → Bool → Bool) : (s.mapPlane p q g).Inv := by
  have hfits := legal_fits (h.shapesLegal p)
  refine inv_withMem h (mapPlane_bytes h.memWf hfits p q g).1 fun r i hi hb => ?_
  rw [planeBit_mapPlane h.memWf hfits p q g hi] at hb
  split at hb
  · next hin =>
    obtain ⟨rfl, hlt, hcol⟩ := hin
    exact .inr ⟨hcol, rowOf_lt hlt⟩
  · exact .inl hb

theorem inv_writePlaneWord {s : State} (h : s.Inv) (p : PlaneId) (j : Nat) (v : Word) :
    ({ s with mem := s.mem.writePlaneWord (s.shape p) p j v } : State).Inv := by
  obtain ⟨hwf, -, hbits⟩ := writePlaneWord_spec h.memWf (legal_fits (h.shapesLegal p)) p j v
  refine inv_withMem h hwf fun r i hi hb => ?_
  rw [hbits r i hi] at hb
  split at hb
  · next hin =>
    obtain ⟨rfl, hj, hword, hcol⟩ := hin
    exact .inr ⟨hcol, rowOf_lt (by omega)⟩
  · exact .inl hb

theorem planeByte_ne_symAddr (p : PlaneId) (a : Nat) {j : Nat} (hj : j < 256) : planeBase p + a ≠ symAddr j := by
  have hbase := planeBase_cases p
  unfold symAddr
  omega

theorem inv_writeSyms {s : State} (h : s.Inv) {j : Nat} {l : List Byte} (hl : j + l.length ≤ 256) : (s.writeSyms j l).Inv := by
  obtain ⟨hwf, -, hother⟩ := writeSyms_spec (l := l) h.memWf hl
  refine inv_withMem h hwf fun p i _ hb => .inl ?_
  rwa [planeBit_congr (hother _ fun k hk => planeByte_ne_symAddr p _ (by omega))] at hb

/-- A shape that passes the checks of MX.INIT is legal (R117). -/
theorem legal_of_checks {w h : Nat} (hw : w ≠ 0) (hh : h ≠ 0) (hw' : w ≤ 65535) (hh' : h ≤ 65535) (hfits : (w + 31) / 32 * h ≤ 8192) :
    Shape.legal { width := BitVec.ofNat 16 w, height := BitVec.ofNat 16 h } = true := by
  have hwn : (BitVec.ofNat 16 w).toNat = w := by rw [BitVec.toNat_ofNat]; omega
  have hhn : (BitVec.ofNat 16 h).toNat = h := by rw [BitVec.toNat_ofNat]; omega
  have hw0 : BitVec.ofNat 16 w ≠ 0#16 := fun h0 => hw (by rw [← hwn, h0]; rfl)
  have hh0 : BitVec.ofNat 16 h ≠ 0#16 := fun h0 => hh (by rw [← hhn, h0]; rfl)
  simp only [Shape.legal, Shape.rowWords, hwn, hhn, Bool.or_eq_true, Bool.and_eq_true, bne_iff_ne, decide_eq_true_eq]
  exact .inr ⟨⟨hw0, hh0⟩, hfits⟩

theorem inv_initPlane {s : State} (h : s.Inv) (p : PlaneId) {w ht : Nat}
    (hsh : Shape.legal { width := BitVec.ofNat 16 w, height := BitVec.ofNat 16 ht } = true) : (s.initPlane p w ht).Inv where
  buildLegal := by simpa using h.buildLegal
  memWf := by simpa using wf_drop h.memWf (planeBase p) planeBytes
  shapesLegal r := by
    rw [initPlane_shape]
    split
    · exact hsh
    · exact h.shapesLegal r
  planesClean r i hi hb := by
    rw [initPlane_mem, planeBit_clearPlane _ hi] at hb
    rw [initPlane_shape]
    split at hb
    · cases hb
    · next hr => rw [if_neg hr]; exact h.planesClean r i hi hb
  latch := by simpa using h.latch
  errHasCode := by simpa using h.errHasCode
  resultByte := by simpa using h.resultByte
  rstIdle := by simpa using h.rstIdle

theorem inv_completeOk {s : State} (h : s.Inv) : s.completeOk.Inv :=
  ⟨h.buildLegal, h.memWf, h.shapesLegal, h.planesClean, nofun, h.errHasCode, h.resultByte, fun _ => rfl⟩

theorem inv_completeErr {s : State} (h : s.Inv) (e : CmdError) : (s.completeErr e).Inv :=
  ⟨h.buildLegal, h.memWf, h.shapesLegal, h.planesClean, nofun, fun _ => Option.some_ne_none e, h.resultByte,
    fun _ => rfl⟩

/-- The acceptance: the latch's word is in CMD, and DONE, ERR and ERRCODE are 0 (R100). -/
theorem inv_accept {s : State} (h : s.Inv) (hr : s.rst = false) (w : Word) : (s.accept w).Inv where
  buildLegal := h.buildLegal
  memWf := h.memWf
  shapesLegal := h.shapesLegal
  planesClean := h.planesClean
  latch c hc := by cases hc; exact ⟨rfl, rfl, rfl, rfl⟩
  errHasCode := nofun
  resultByte := h.resultByte
  rstIdle hr' := absurd hr' (by simp [hr])

/-- A W1C write clears flags, and those that a pending command needs clear stay clear (R26). -/
theorem inv_writeStatus {s : State} (h : s.Inv) (v : Word) : (s.writeStatus v).Inv where
  buildLegal := h.buildLegal
  memWf := h.memWf
  shapesLegal := h.shapesLegal
  planesClean := h.planesClean
  latch c hc := by
    obtain ⟨hcmd, hdone, herr, hcode⟩ := h.latch c hc
    exact ⟨hcmd, by simp [hdone], by simp [herr], hcode⟩
  errHasCode he := h.errHasCode (by rw [writeStatus_err, Bool.and_eq_true] at he; exact he.1)
  resultByte := h.resultByte
  rstIdle := h.rstIdle

theorem planeBit_of_zero_byte {m : Memory} {p : PlaneId} {i : Nat} (h : m.byteAt (planeBase p + i / 8) = some 0#8) :
    m.planeBit p i = false := by simp [Memory.planeBit, Memory.planeByte, h]

/-- A hardware reset meets the invariant from any state of a build R8 allows (R220). -/
theorem inv_hardReset {s : State} (hb : legalConfig s.build = true) : s.hardReset.Inv where
  buildLegal := hb
  memWf := rfl
  shapesLegal p := by rw [hardReset_shape]; rfl
  planesClean p i hi hbit := by
    rw [planeBytes_eq] at hi
    have hzero : s.hardReset.mem.byteAt (planeBase p + i / 8) = some 0#8 := (plane_cell (by omega)).2
    rw [planeBit_of_zero_byte hzero] at hbit
    cases hbit
  latch := nofun
  errHasCode := nofun
  resultByte := by simp
  rstIdle _ := rfl

theorem inv_softReset {s : State} (h : s.Inv) : s.softReset.Inv := by
  obtain ⟨hwf, hzero⟩ := softResetMem_spec h.memWf
  refine inv_frame (inv_withMem (inv_hardReset h.buildLegal) hwf fun p i hi hb => ?_)
  have hbase := planeBase_cases p
  rw [planeBit_of_zero_byte (hzero _ (by omega) (by omega))] at hb
  cases hb

/-! ### The commands -/

theorem runCommand_keeps_inv {s t : State} {body : Args → Except CmdError State} (h : s.Inv)
    (hbody : ∀ A u, body A = .ok u → u.Inv) (ht : s.runCommand body = .next t) : t.Inv := by
  obtain ⟨c, -, ⟨u, hu, rfl⟩ | ⟨e, -, rfl⟩⟩ := runCommand_next ht
  · exact inv_completeOk (hbody c.args u hu)
  · exact inv_completeErr h e

theorem symbolWord_lt (v : Byte) : (symbolWord v).toNat < 256 := by
  rw [symbolWord, BitVec.toNat_setWidth_of_le (by decide)]
  exact v.isLt

theorem bitWord_lt (b : Bool) : (bitWord b).toNat < 256 := by cases b <;> decide

theorem execNop_keeps_inv {s t : State} (h : s.Inv) (ht : execNop s = .next t) : t.Inv :=
  runCommand_keeps_inv h (fun _ _ hu => Except.ok.inj hu ▸ h) ht

theorem execGfAdd_keeps_inv {s t : State} (h : s.Inv) (ht : execGfAdd s = .next t) : t.Inv := by
  refine runCommand_keeps_inv h (fun A u hu => ?_) ht
  obtain ⟨-, hu⟩ := fieldOperand_ok hu
  obtain ⟨-, hu⟩ := fieldOperand_ok hu
  exact Except.ok.inj hu ▸ inv_setResult h (symbolWord_lt _)

theorem execGfMul_keeps_inv {s t : State} (h : s.Inv) (ht : execGfMul s = .next t) : t.Inv := by
  refine runCommand_keeps_inv h (fun A u hu => ?_) ht
  obtain ⟨-, hu⟩ := fieldOperand_ok hu
  obtain ⟨-, hu⟩ := fieldOperand_ok hu
  exact Except.ok.inj hu ▸ inv_setResult h (symbolWord_lt _)

theorem execGfInv_keeps_inv {s t : State} (h : s.Inv) (ht : execGfInv s = .next t) : t.Inv := by
  refine runCommand_keeps_inv h (fun A u hu => ?_) ht
  obtain ⟨-, hu⟩ := fieldOperand_ok hu
  split at hu
  · cases hu
  · exact Except.ok.inj hu ▸ inv_setResult h (symbolWord_lt _)

theorem execGfExp_keeps_inv {s t : State} (h : s.Inv) (ht : execGfExp s = .next t) : t.Inv := by
  refine runCommand_keeps_inv h (fun A u hu => ?_) ht
  obtain ⟨-, hu⟩ := fieldOperand_ok hu
  exact Except.ok.inj hu ▸ inv_setResult h (symbolWord_lt _)

theorem execGfLog_keeps_inv {s t : State} (h : s.Inv) (ht : execGfLog s = .next t) : t.Inv := by
  refine runCommand_keeps_inv h (fun A u hu => ?_) ht
  obtain ⟨-, hu⟩ := fieldOperand_ok hu
  split at hu
  · cases hu
  · next i hi =>
    obtain ⟨-, hle, -, -⟩ := fieldLog_some hi
    exact Except.ok.inj hu ▸ inv_setResult h (by rw [BitVec.toNat_ofNat]; omega)

/-- RS.ENC stays in SYM: the parity has the `n` symbols its range check counts (R175). -/
theorem execRsEnc_keeps_inv {s t : State} (h : s.Inv) (ht : execRsEnc s = .next t) : t.Inv := by
  refine runCommand_keeps_inv h (fun A u hu => ?_) ht
  obtain ⟨-, hu⟩ := require_ok hu
  obtain ⟨hn, hu⟩ := require_ok hu
  obtain ⟨-, hu⟩ := require_ok hu
  obtain ⟨hrange, hu⟩ := require_ok hu
  have hlen := parity_length h.buildLegal (s.message A.a2.toNat A.a0.toNat) (Nat.one_le_iff_ne_zero.2 (bne_iff_ne.1 hn))
  refine Except.ok.inj hu ▸ inv_frame (inv_writeSyms h ?_)
  rw [hlen]
  exact of_decide_eq_true hrange

/-- RS.GEN stays in SYM: `gen(n)` has the n + 1 coefficients its range check counts (R177). -/
theorem execRsGen_keeps_inv {s t : State} (h : s.Inv) (ht : execRsGen s = .next t) : t.Inv := by
  refine runCommand_keeps_inv h (fun A u hu => ?_) ht
  obtain ⟨-, hu⟩ := require_ok hu
  obtain ⟨-, hu⟩ := require_ok hu
  obtain ⟨hrange, hu⟩ := require_ok hu
  refine Except.ok.inj hu ▸ inv_writeSyms h ?_
  rw [gen_length h.buildLegal]
  exact of_decide_eq_true hrange

theorem execMxInit_keeps_inv {s t : State} {p : PlaneId} (h : s.Inv) (ht : execMxInit p s = .next t) : t.Inv := by
  refine runCommand_keeps_inv h (fun A u hu => ?_) ht
  obtain ⟨hzero, hu⟩ := require_ok hu
  obtain ⟨hdim, hu⟩ := require_ok hu
  obtain ⟨hfits, hu⟩ := require_ok hu
  simp only [Bool.and_eq_true, bne_iff_ne, decide_eq_true_eq] at hzero hdim hfits
  exact Except.ok.inj hu ▸ inv_initPlane h p (legal_of_checks hzero.1 hzero.2 hdim.1 hdim.2 hfits)

theorem execMxGet_keeps_inv {s t : State} {p : PlaneId} (h : s.Inv) (ht : execMxGet p s = .next t) : t.Inv := by
  refine runCommand_keeps_inv h (fun A u hu => ?_) ht
  obtain ⟨-, -, -, hu⟩ := pointOperand_ok hu
  exact Except.ok.inj hu ▸ inv_setResult h (bitWord_lt _)

theorem execMxSet_keeps_inv {s t : State} {p : PlaneId} (h : s.Inv) (ht : execMxSet p s = .next t) : t.Inv := by
  refine runCommand_keeps_inv h (fun A u hu => ?_) ht
  obtain ⟨-, hx, hy, hu⟩ := pointOperand_ok hu
  exact Except.ok.inj hu ▸ inv_setBit h hx hy _

theorem execMxFlip_keeps_inv {s t : State} {p : PlaneId} (h : s.Inv) (ht : execMxFlip p s = .next t) : t.Inv := by
  refine runCommand_keeps_inv h (fun A u hu => ?_) ht
  obtain ⟨-, hx, hy, hu⟩ := pointOperand_ok hu
  exact Except.ok.inj hu ▸ inv_setBit h hx hy _

theorem execMxFill_keeps_inv {s t : State} {p : PlaneId} (h : s.Inv) (ht : execMxFill p s = .next t) : t.Inv := by
  refine runCommand_keeps_inv h (fun A u hu => ?_) ht
  obtain ⟨-, hu⟩ := require_ok hu
  obtain ⟨-, hu⟩ := require_ok hu
  obtain ⟨-, hu⟩ := require_ok hu
  exact Except.ok.inj hu ▸ inv_mapPlane h p p _

theorem execMxXor_keeps_inv {s t : State} {p q : PlaneId} (h : s.Inv) (ht : execMxXor p q s = .next t) : t.Inv := by
  refine runCommand_keeps_inv h (fun A u hu => ?_) ht
  obtain ⟨-, hu⟩ := require_ok hu
  obtain ⟨-, hu⟩ := require_ok hu
  exact Except.ok.inj hu ▸ inv_mapPlane h p q _

theorem exec_keeps_inv {i : Instr} {s t : State} (h : s.Inv) (ht : exec i s = .next t) : t.Inv := by
  cases i with
  | nop => exact execNop_keeps_inv h ht
  | gfAdd => exact execGfAdd_keeps_inv h ht
  | gfMul => exact execGfMul_keeps_inv h ht
  | gfInv => exact execGfInv_keeps_inv h ht
  | gfExp => exact execGfExp_keeps_inv h ht
  | gfLog => exact execGfLog_keeps_inv h ht
  | rsEnc => exact execRsEnc_keeps_inv h ht
  | rsGen => exact execRsGen_keeps_inv h ht
  | mxInit p => exact execMxInit_keeps_inv h ht
  | mxGet p => exact execMxGet_keeps_inv h ht
  | mxSet p => exact execMxSet_keeps_inv h ht
  | mxFlip p => exact execMxFlip_keeps_inv h ht
  | mxFill p => exact execMxFill_keeps_inv h ht
  | mxXor p q => exact execMxXor_keeps_inv h ht

theorem unitStep_keeps_inv {s t : State} {c : Command} (h : s.Inv) (ht : s.unitStep c = .next t) : t.Inv := by
  rcases unitStep_next ht with ⟨i, -, hi⟩ | ⟨e, -, rfl⟩
  · exact exec_keeps_inv h hi
  · exact inv_completeErr h e

/-! ### The bus -/

/-- All that a read transaction can change (R67, R68): BUSERR and the model's count of draws. -/
theorem memRead_state (s : State) (addr : Offset) (size : Size) :
    ∃ busErr draws, (s.memRead addr size).1 = { s with busErr := busErr, draws := draws } := by
  unfold State.memRead
  split
  · cases windowOf addr.toNat with
    | reg a => dsimp only; cases regAt a <;> exact ⟨_, _, rfl⟩
    | sym j => cases s.busy <;> exact ⟨_, _, rfl⟩
    | unmapped => exact ⟨_, _, rfl⟩
    | plane p j => cases s.busy <;> exact ⟨_, _, rfl⟩
  · exact ⟨_, _, rfl⟩

theorem readTransaction_keeps_inv {s : State} (h : s.Inv) (addr : Offset) (size : Size) : (s.readTransaction addr size).Inv := by
  obtain ⟨busErr, draws, hread⟩ := memRead_state s addr size
  rw [State.readTransaction, hread]
  exact inv_frame h

/-- The SYM window holds 256 entries (R69). -/
theorem lt_of_windowOf_sym {a j : Nat} (h : windowOf a = .sym j) : j < 256 := by
  unfold windowOf at h
  split_ifs at h
  cases h
  omega

theorem writeCmd_keeps_inv {s : State} (h : s.Inv) (hr : s.rst = false) (w : Word) : (s.writeCmd w).Inv := by
  unfold State.writeCmd
  split
  · exact inv_frame h
  · exact inv_frame (inv_accept h hr w)

theorem writeCtrl_keeps_inv {s : State} (h : s.Inv) (v : Word) : (s.writeCtrl v).Inv := by
  unfold State.writeCtrl
  split
  · exact inv_softReset h
  · exact inv_frame h

theorem writeReg_keeps_inv {s : State} (h : s.Inv) (hr : s.rst = false) (r : Reg) (v : Word) : (s.writeReg r v).Inv := by
  cases r with
  | ctrl => exact writeCtrl_keeps_inv h v
  | status => exact inv_writeStatus h v
  | cmd => exact writeCmd_keeps_inv h hr v
  | arg0 | arg1 | arg2 | arg3 => exact inv_frame h
  | id | version | errcode | result | param | shape0 | shape1 => exact h

theorem memWrite_keeps_inv {s : State} (h : s.Inv) (hr : s.rst = false) (addr : Offset) (size : Size) (v : Word) :
    (s.memWrite addr size v).Inv := by
  unfold State.memWrite
  split
  · cases hw : windowOf addr.toNat with
    | reg a =>
      cases ha : regAt a with
      | none => simpa [ha] using h
      | some r => simpa [ha] using writeReg_keeps_inv h hr r v
    | sym j =>
      have hj := lt_of_windowOf_sym hw
      cases s.busy
      · exact inv_writeSyms (l := [v.setWidth 8]) h hj
      · exact inv_frame h
    | unmapped => exact h
    | plane p j =>
      cases s.busy
      · exact inv_writePlaneWord h p j v
      · exact inv_frame h
  · exact inv_frame h

theorem hostEvent_keeps_inv {s t : State} {e : HostEvent} {rest : List HostEvent} (h : s.Inv) (ht : s.hostEvent e rest = .next t) :
    t.Inv := by
  rcases hostEvent_next ht with ⟨-, rfl⟩ | ⟨-, rfl⟩ | ⟨addr, size, -, -, rfl⟩ | ⟨addr, size, v, -, hr, rfl⟩ | ⟨-, -, rfl⟩
  · exact inv_frame (inv_withRst (r := true) (inv_hardReset h.buildLegal) fun _ => rfl)
  · exact inv_frame (inv_withRst (r := false) h nofun)
  · exact inv_frame (readTransaction_keeps_inv h addr size)
  · exact inv_frame (memWrite_keeps_inv h hr addr size v)
  · exact inv_frame (readTransaction_keeps_inv h statusAddr .word)

/-- Settles O56: the unit's completion, a host event and the idle step each keep every clause of the invariant. -/
theorem stepKeepsTheInvariant : Obligations.StepKeepsTheInvariant := by
  intro s t h ht
  rcases step_next ht with ⟨c, -, -, hunit⟩ | ⟨-, -, rfl⟩ | ⟨e, rest, -, -, hhost⟩
  · exact unitStep_keeps_inv h hunit
  · exact h
  · exact hostEvent_keeps_inv (inv_frame h) hhost

end Sys2Proof.Machine
end

section
/-! SUPPORT. The registers on the bus (R22, R25, R27, R33, R34): where no register lies, what a register transaction answers and
changes, and the bits of CTRL, STATUS and PARAM. -/

namespace Sys2Proof.Machine

/-! ### Register transactions -/

/-- The offsets above SHAPE1 are reserved (R22, R34). -/
theorem regAt_reserved {a : Nat} (h : 0x038 ≤ a) : regAt a = none := by
  refine List.find?_eq_none.2 fun r _ => ?_
  have hlt : regOffset r < 0x038 := by cases r <;> decide
  rw [beq_iff_eq]
  omega

theorem busLegal_regBlock {addr : Offset} (h : addr.toNat < 0x400) (ha : addr.toNat % 4 = 0) : busLegal addr .word = true :=
  busLegal_eq_true.2 ⟨rfl, ha, by omega⟩

/-- A read in the register block answers the register at its offset, or 0 at a reserved one, and changes nothing (R22, R34, R68). -/
theorem memRead_regBlock (s : State) {addr : Offset} (h : addr.toNat < 0x400) (ha : addr.toNat % 4 = 0) :
    s.memRead addr .word = (s, ((regAt addr.toNat).map s.readReg).getD 0#32) := by
  rw [State.memRead, if_pos (busLegal_regBlock h ha), windowOf_reg h]
  dsimp only
  cases regAt addr.toNat <;> rfl

/-- A write in the register block is the register's write, or nothing at a reserved offset (R22, R34). -/
theorem memWrite_regBlock (s : State) {addr : Offset} (h : addr.toNat < 0x400) (ha : addr.toNat % 4 = 0) (v : Word) :
    s.memWrite addr .word v = ((regAt addr.toNat).map (s.writeReg · v)).getD s := by
  rw [State.memWrite, if_pos (busLegal_regBlock h ha), windowOf_reg h]
  dsimp only
  cases regAt addr.toNat <;> rfl

/-- A register window's offset is the transaction's own (R61). -/
theorem windowOf_eq_reg {a b : Nat} (h : windowOf a = .reg b) : b = a := by
  unfold windowOf at h
  split_ifs at h
  cases h
  rfl

/-- All that a write transaction can change (R67 to R70, R226): a register's write at the register's offset, or BUSYERR, BUSERR and
storage. -/
theorem memWrite_cases (s : State) (addr : Offset) (size : Size) (v : Word) :
    (∃ r, busLegal addr size = true ∧ regAt addr.toNat = some r ∧ s.memWrite addr size v = s.writeReg r v) ∨
      ∃ busyErr busErr mem, s.memWrite addr size v = { s with busyErr := busyErr, busErr := busErr, mem := mem } := by
  cases hlegal : busLegal addr size
  · exact .inr ⟨s.busyErr, true, s.mem, by rw [State.memWrite, hlegal, if_neg Bool.false_ne_true]; rfl⟩
  · rw [State.memWrite, if_pos hlegal]
    cases hwin : windowOf addr.toNat with
    | reg a =>
      obtain rfl := windowOf_eq_reg hwin
      dsimp only
      cases hreg : regAt addr.toNat with
      | none => exact .inr ⟨s.busyErr, s.busErr, s.mem, rfl⟩
      | some r => exact .inl ⟨r, rfl, rfl, rfl⟩
    | sym j => cases s.busy <;> exact .inr ⟨_, _, _, rfl⟩
    | unmapped => exact .inr ⟨s.busyErr, s.busErr, s.mem, rfl⟩
    | plane p j => cases s.busy <;> exact .inr ⟨_, _, _, rfl⟩

theorem toNat_regAddr (r : Reg) : (BitVec.ofNat 17 (regOffset r)).toNat = regOffset r := by cases r <;> rfl

theorem regAddr_lt (r : Reg) : (BitVec.ofNat 17 (regOffset r)).toNat < 0x400 := by cases r <;> decide

theorem regAddr_aligned (r : Reg) : (BitVec.ofNat 17 (regOffset r)).toNat % 4 = 0 := by cases r <;> rfl

/-- No register shows the model's count of coming host events. -/
theorem readReg_withDelay (s : State) (d : Nat) (r : Reg) : ({ s with delay := d } : State).readReg r = s.readReg r := by
  cases r <;> rfl

section Transactions

variable {s : State} {addr : Offset} {r : Reg} {v : Word} {rest : List HostEvent}

theorem step_readTransaction {size : Size} (hrst : s.rst = false) (hturn : s.unitTurn = false)
    (hhost : s.host = .read addr size :: rest) :
    step s = .next { ({ s with delay := s.delay - 1 } : State).readTransaction addr size with host := rest } := by
  rw [step_host hturn hhost, State.hostEvent, if_neg (by simp [hrst])]

theorem step_writeTransaction {size : Size} (hrst : s.rst = false) (hturn : s.unitTurn = false)
    (hhost : s.host = .write addr size v :: rest) :
    step s = .next { ({ s with delay := s.delay - 1 } : State).writeTransaction addr size v with host := rest } := by
  rw [step_host hturn hhost, State.hostEvent, if_neg (by simp [hrst])]

/-- A read step in the register block. -/
theorem step_readRegBlock (hrst : s.rst = false) (hturn : s.unitTurn = false) (hlt : addr.toNat < 0x400)
    (hal : addr.toNat % 4 = 0) (hhost : s.host = .read addr .word :: rest) :
    step s = .next { s with
      host := rest, delay := s.delay - 1,
      response := some (.read (((regAt addr.toNat).map s.readReg).getD 0#32) .ok) } := by
  rw [step_readTransaction hrst hturn hhost, State.readTransaction, memRead_regBlock _ hlt hal, busResp,
    if_pos (busLegal_regBlock hlt hal), funext (readReg_withDelay s (s.delay - 1))]

/-- A write step in the register block. -/
theorem step_writeRegBlock (hrst : s.rst = false) (hturn : s.unitTurn = false) (hlt : addr.toNat < 0x400)
    (hal : addr.toNat % 4 = 0) (hhost : s.host = .write addr .word v :: rest) :
    step s = .next { ((regAt addr.toNat).map (({ s with delay := s.delay - 1 } : State).writeReg · v)).getD
        { s with delay := s.delay - 1 } with
      host := rest, response := some (.write .ok) } := by
  rw [step_writeTransaction hrst hturn hhost, State.writeTransaction, memWrite_regBlock _ hlt hal, busResp,
    if_pos (busLegal_regBlock hlt hal)]

/-- A register read answers the register and has no side effect (R68). -/
theorem step_readReg (hrst : s.rst = false) (hturn : s.unitTurn = false)
    (hhost : s.host = .read (BitVec.ofNat 17 (regOffset r)) .word :: rest) :
    step s = .next { s with host := rest, delay := s.delay - 1, response := some (.read (s.readReg r) .ok) } := by
  rw [step_readRegBlock hrst hturn (regAddr_lt r) (regAddr_aligned r) hhost, toNat_regAddr, regAt_regOffset]
  rfl

/-- A register write has its register's effect, with an OK response (R22). -/
theorem step_writeReg (hrst : s.rst = false) (hturn : s.unitTurn = false)
    (hhost : s.host = .write (BitVec.ofNat 17 (regOffset r)) .word v :: rest) :
    step s = .next { ({ s with delay := s.delay - 1 } : State).writeReg r v with
      host := rest, response := some (.write .ok) } := by
  rw [step_writeRegBlock hrst hturn (regAddr_lt r) (regAddr_aligned r) hhost, toNat_regAddr, regAt_regOffset]
  rfl

end Transactions

/-! ### The words of CTRL, STATUS and PARAM -/

/-- PARAM, field by field (R33): bit by bit, each field is 0 past its own width. -/
theorem paramWord_eq_append (c : Config) : paramWord c = (0#8 ++ c.genBase ++ 0#7 ++ c.primPoly : BitVec 32) := by
  refine BitVec.eq_of_getLsbD_eq fun i hi => ?_
  simp only [paramWord, BitVec.getLsbD_or, BitVec.getLsbD_shiftLeft, BitVec.getLsbD_setWidth, BitVec.getLsbD_append,
    BitVec.getLsbD_zero]
  have hpoly : 9 ≤ i → c.primPoly.getLsbD i = false := BitVec.getLsbD_of_ge _ _
  have hbase : 24 ≤ i → c.genBase.getLsbD (i - 16) = false := fun h => BitVec.getLsbD_of_ge _ _ (by omega)
  grind

theorem getLsbD_bitAt {i j : Nat} (hj : j < 32) (b : Bool) : (bitAt i b).getLsbD j = (b && decide (i = j)) := by
  cases b
  · exact BitVec.getLsbD_zero
  · simp only [bitAt, if_true, BitVec.getLsbD_shiftLeft, BitVec.getLsbD_one, Bool.true_and, hj, decide_true]
    exact Bool.eq_iff_iff.2 (by simp; omega)

theorem ctrlWord_bit_ie (s : State) : s.ctrlWord.getLsbD 0 = s.ie := by
  rw [State.ctrlWord, getLsbD_bitAt (by decide), decide_eq_true rfl, Bool.and_true]

theorem statusWord_bit_done (s : State) : s.statusWord.getLsbD 1 = s.done := by
  simp only [State.statusWord, BitVec.getLsbD_or, getLsbD_bitAt (j := 1) (by decide)]
  simp

/-- With SRST = 0 a CTRL write sets IE and nothing else (R27). -/
theorem writeCtrl_of_srst_clear {s : State} {v : Word} (h : v.getLsbD 1 = false) :
    s.writeCtrl v = { s with ie := v.getLsbD 0 } := by
  rw [State.writeCtrl, h, if_neg Bool.false_ne_true]

/-- A CTRL write with bit 0 clear clears IE, whether or not it is a soft reset (R27, R222). -/
theorem writeCtrl_ie_of_clear {s : State} {v : Word} (h : v.getLsbD 0 = false) : (s.writeCtrl v).ie = false := by
  cases hsrst : v.getLsbD 1
  · rw [writeCtrl_of_srst_clear hsrst, h]
  · rw [State.writeCtrl, if_pos hsrst, softReset_ie]

/-! ### The obligations on registers and irq -/

/-- Settles O41: the write of each of these registers is the identity. -/
theorem readOnlyRegistersIgnoreWrites : Obligations.ReadOnlyRegistersIgnoreWrites := by
  intro s a v rest hrst hturn ha hhost
  simp only [List.mem_cons, List.not_mem_nil, or_false] at ha
  rcases ha with rfl | rfl | rfl | rfl
  · exact step_writeReg (r := .errcode) hrst hturn hhost
  · exact step_writeReg (r := .result) hrst hturn hhost
  · exact step_writeReg (r := .shape0) hrst hturn hhost
  · exact step_writeReg (r := .shape1) hrst hturn hhost

/-- Settles O42: the step is the STATUS register's own write. -/
theorem statusWriteClearsW1cBits : Obligations.StatusWriteClearsW1cBits := fun _ _ _ hrst hturn hhost =>
  step_writeReg (r := .status) hrst hturn hhost

/-- Settles O43: the step is the ARG register's own write, which does not touch the latch. -/
theorem argWritesLeaveTheSnapshot : Obligations.ArgWritesLeaveTheSnapshot := by
  intro s i v rest hrst hturn hhost
  refine ⟨_, ?_, rfl⟩
  match i with
  | 0 => exact step_writeReg (r := .arg0) hrst hturn hhost
  | 1 => exact step_writeReg (r := .arg1) hrst hturn hhost
  | 2 => exact step_writeReg (r := .arg2) hrst hturn hhost
  | 3 => exact step_writeReg (r := .arg3) hrst hturn hhost

/-- Settles O44: with bit 1 clear the CTRL write is no soft reset. -/
theorem ctrlWriteSetsIe : Obligations.CtrlWriteSetsIe := by
  intro s v rest hrst hturn hsrst hhost
  rw [step_writeReg (r := .ctrl) hrst hturn hhost, State.writeReg, writeCtrl_of_srst_clear hsrst]

/-- Settles O39: three registers that ignore writes, and offsets at which no register lies. -/
theorem constantRegistersAreHardWired : Obligations.ConstantRegistersAreHardWired := by
  refine ⟨rfl, fun s a k v rest hrst hturn hak => ?_⟩
  simp only [Prod.mk.injEq] at hak
  rcases hak with ⟨rfl, rfl⟩ | ⟨rfl, rfl⟩ | ⟨rfl, rfl⟩ | ⟨hlo, hhi, hal, rfl⟩
  · exact ⟨step_readReg (r := .id) hrst hturn, step_writeReg (r := .id) hrst hturn⟩
  · exact ⟨step_readReg (r := .version) hrst hturn, step_writeReg (r := .version) hrst hturn⟩
  · refine ⟨fun hhost => ?_, step_writeReg (r := .param) hrst hturn⟩
    rw [← paramWord_eq_append]
    exact step_readReg (r := .param) hrst hturn hhost
  · have haddr : (BitVec.ofNat 17 a).toNat = a := by rw [BitVec.toNat_ofNat]; omega
    refine ⟨fun hhost => ?_, fun hhost => ?_⟩
    · rw [step_readRegBlock hrst hturn (by omega) (by omega) hhost, haddr, regAt_reserved hlo]
      rfl
    · rw [step_writeRegBlock hrst hturn (by omega) (by omega) hhost, haddr, regAt_reserved hlo]
      rfl

/-- Settles O45: CTRL and STATUS show the two flags, and each event clears one of them. -/
theorem irqIsIeAndDone : Obligations.IrqIsIeAndDone := by
  refine ⟨rfl, fun s v => ⟨?_, fun hdone => ?_, ?_, fun hie => ?_⟩⟩
  · simp only [State.readReg, ctrlWord_bit_ie, statusWord_bit_done, irq_eq]
  · simp only [State.writeReg, irq_eq, writeStatus_done, hdone, Bool.not_true, Bool.and_false]
  · simp only [irq_eq, accept_done, Bool.and_false]
  · simp only [State.writeReg, irq_eq, writeCtrl_ie_of_clear hie, Bool.false_and]

end Sys2Proof.Machine
end

section
/-! SUPPORT. The planes' storage layout as a host sees it (R38, R63), the invariant at reset, and when DONE rises. -/

namespace Sys2Proof.Machine

/-! ### The layout -/

/-- Settles O49: both sides name the storage bit `bitIndex x y`, which is bit x % 32 of its word and bit x % 8 of its byte. -/
theorem planeBitsLieWhereTheLayoutSays : Obligations.PlaneBitsLieWhereTheLayoutSays := by
  intro s p x y hx hy j
  have hindex : 32 * j + x % 32 = (s.shape p).bitIndex x y := rfl
  have hlt := bitIndex_lt hx hy
  refine ⟨?_, ?_⟩
  · rw [getLsbD_planeWord _ _ _ _ (Nat.mod_lt _ (by decide)), hindex, columnOf_bitIndex hx, decide_eq_true hx,
      decide_eq_true (by omega), Bool.true_and, Bool.true_and, State.bit]
  · have hbyte : (s.shape p).bitIndex x y / 8 = 4 * j + x % 32 / 8 := by omega
    have hbit : (s.shape p).bitIndex x y % 8 = x % 8 := by omega
    rw [State.bit, Memory.planeBit, Memory.planeByte, hbyte, hbit, Nat.add_assoc]
    rfl

/-! ### Reset -/

/-- The instance of the spec is a build R8 allows. -/
theorem legalConfig_unit : legalConfig Config.unit = true := by decide +kernel

/-- Settles O57: the reset state is what a hardware reset leaves of it. -/
theorem resetMeetsTheInvariant : Obligations.ResetMeetsTheInvariant :=
  inv_hardReset (s := State.reset) legalConfig_unit

/-! ### DONE -/

/-- A completion empties the latch (R102). -/
theorem runCommand_empties_latch {s t : State} {body : Args → Except CmdError State} (h : s.runCommand body = .next t) :
    t.pending = none := by
  obtain ⟨c, -, ⟨u, -, rfl⟩ | ⟨e, -, rfl⟩⟩ := runCommand_next h <;> rfl

/-- The unit's step empties the latch, whatever its word (R102, R103). -/
theorem unitStep_empties_latch {s t : State} {c : Command} (h : s.unitStep c = .next t) : t.pending = none := by
  obtain ⟨i, -, hexec⟩ | ⟨e, -, rfl⟩ := unitStep_next h
  · obtain ⟨body, hbody⟩ := exec_runCommand i s
    exact runCommand_empties_latch (hbody ▸ hexec)
  · rfl

theorem readTransaction_done (s : State) (addr : Offset) (size : Size) : (s.readTransaction addr size).done = s.done := by
  obtain ⟨busErr, draws, hread⟩ := memRead_state s addr size
  rw [State.readTransaction, hread]

/-- No register write raises DONE: STATUS and CMD writes can only clear it, a soft reset does (R25, R26, R222). -/
theorem done_of_writeReg {s : State} {r : Reg} {v : Word} (h : (s.writeReg r v).done = true) : s.done = true := by
  cases r with
  | ctrl =>
    cases hsrst : v.getLsbD 1
    · rwa [State.writeReg, writeCtrl_of_srst_clear hsrst] at h
    · rw [State.writeReg, State.writeCtrl, if_pos hsrst, softReset_done] at h
      cases h
  | status =>
    rw [State.writeReg, writeStatus_done, Bool.and_eq_true] at h
    exact h.1
  | cmd =>
    rw [State.writeReg, State.writeCmd] at h
    split at h
    · exact h
    · cases h
  | arg0 | arg1 | arg2 | arg3 => exact h
  | id | version | errcode | result | param | shape0 | shape1 => exact h

theorem done_of_writeTransaction {s : State} {addr : Offset} {size : Size} {v : Word}
    (h : (s.writeTransaction addr size v).done = true) : s.done = true := by
  rw [State.writeTransaction] at h
  obtain ⟨r, -, -, hwrite⟩ | ⟨busyErr, busErr, mem, hwrite⟩ := memWrite_cases s addr size v
  · exact done_of_writeReg (hwrite ▸ h)
  · rwa [hwrite] at h

/-- No host event raises DONE (R25). -/
theorem done_of_hostEvent {s t : State} {e : HostEvent} {rest : List HostEvent} (ht : s.hostEvent e rest = .next t)
    (h : t.done = true) : s.done = true := by
  rcases hostEvent_next ht with ⟨-, rfl⟩ | ⟨-, rfl⟩ | ⟨addr, size, -, -, rfl⟩ | ⟨addr, size, v, -, -, rfl⟩ | ⟨-, -, rfl⟩
  · cases h
  · exact h
  · exact readTransaction_done s addr size ▸ h
  · exact done_of_writeTransaction h
  · exact readTransaction_done s statusAddr .word ▸ h

/-- Settles O58: the idle step and the host's events cannot raise DONE, and the unit's step empties the latch. -/
theorem doneRisesOnlyAtCompletion : Obligations.DoneRisesOnlyAtCompletion := by
  intro s t ht hclear hset
  rcases step_next ht with ⟨c, hpending, hturn, hunit⟩ | ⟨-, -, rfl⟩ | ⟨e, rest, -, -, hhost⟩
  · exact ⟨by simp [hpending], hturn, unitStep_empties_latch hunit⟩
  · exact absurd hset (by simp [hclear])
  · exact absurd (done_of_hostEvent hhost hset) (by simp [hclear])

end Sys2Proof.Machine
end

section
/-! SUPPORT. The bus windows (R61, R67 to R70): transactions the bus refuses, what a register answers, and the SYM and plane windows
of an idle unit; and a command that leaves its storage on a build R8 excludes. -/

namespace Sys2Proof.Machine

/-! ### Refused transactions -/

theorem busLegal_eq_false {addr : Offset} {size : Size}
    (h : size ≠ .word ∨ addr.toNat % 4 ≠ 0 ∨ (0x800 ≤ addr.toNat ∧ addr.toNat < 0x10000)) : busLegal addr size = false := by
  refine Bool.eq_false_iff.2 fun hlegal => ?_
  obtain ⟨hword, halign, hmapped⟩ := busLegal_eq_true.1 hlegal
  exact h.elim (· hword) fun h => h.elim (· halign) hmapped

theorem memRead_refused (s : State) {addr : Offset} {size : Size} (h : busLegal addr size = false) :
    s.memRead addr size = (s.busError, 0#32) := by
  rw [State.memRead, h, if_neg Bool.false_ne_true]

theorem memWrite_refused (s : State) {addr : Offset} {size : Size} (h : busLegal addr size = false) (v : Word) :
    s.memWrite addr size v = s.busError := by
  rw [State.memWrite, h, if_neg Bool.false_ne_true]

theorem busResp_refused {addr : Offset} {size : Size} (h : busLegal addr size = false) : busResp addr size = .error := by
  rw [busResp, h, if_neg Bool.false_ne_true]

/-- Settles O38: each of the three conditions makes the transaction illegal, and then only BUSERR is set. -/
theorem busErrorsSetOnlyBuserr : Obligations.BusErrorsSetOnlyBuserr := by
  intro s addr size v rest hrst hturn hbad
  have hrefused := busLegal_eq_false hbad
  refine ⟨fun hhost => ?_, fun hhost => ?_⟩
  · rw [step_readTransaction hrst hturn hhost, State.readTransaction, memRead_refused _ hrefused, busResp_refused hrefused]
    rfl
  · rw [step_writeTransaction hrst hturn hhost, State.writeTransaction, memWrite_refused _ hrefused, busResp_refused hrefused]
    rfl

/-! ### The registers' words -/

/-- CTRL shows IE in bit 0 (R27). -/
theorem ctrlWord_eq_setWidth (s : State) : s.ctrlWord = (BitVec.ofBool s.ie).setWidth 32 := by
  rw [State.ctrlWord]
  cases s.ie <;> rfl

/-- Five flags in bits 0 to 4 of a word are their concatenation, the highest first. -/
theorem or_bitAt_eq_append : ∀ b0 b1 b2 b3 b4 : Bool,
    bitAt 0 b0 ||| bitAt 1 b1 ||| bitAt 2 b2 ||| bitAt 3 b3 ||| bitAt 4 b4 =
      (BitVec.ofBool b4 ++ BitVec.ofBool b3 ++ BitVec.ofBool b2 ++ BitVec.ofBool b1 ++ BitVec.ofBool b0).setWidth 32 := by
  decide

/-- A register read whose register holds `k` answers `k` (R68). -/
theorem step_readReg_of_eq {s : State} {r : Reg} {k : Word} {rest : List HostEvent} (hread : s.readReg r = k)
    (hrst : s.rst = false) (hturn : s.unitTurn = false)
    (hhost : s.host = .read (BitVec.ofNat 17 (regOffset r)) .word :: rest) :
    step s = .next { s with host := rest, delay := s.delay - 1, response := some (.read k .ok) } :=
  hread ▸ step_readReg hrst hturn hhost

/-- Settles O40: a register read answers `readReg`, which is the word the statement writes out for each register. -/
theorem registerReadsHaveNoSideEffects : Obligations.RegisterReadsHaveNoSideEffects := by
  intro s a k rest hrst hturn hak hhost
  simp only [List.mem_cons, List.not_mem_nil, or_false, Prod.mk.injEq] at hak
  rcases hak with ⟨rfl, rfl⟩ | ⟨rfl, rfl⟩ | ⟨rfl, rfl⟩ | ⟨rfl, rfl⟩ | ⟨rfl, rfl⟩ | ⟨rfl, rfl⟩ | ⟨rfl, rfl⟩ | ⟨rfl, rfl⟩ |
    ⟨rfl, rfl⟩ | ⟨rfl, rfl⟩ | ⟨rfl, rfl⟩
  · exact step_readReg_of_eq (r := .ctrl) (ctrlWord_eq_setWidth s) hrst hturn hhost
  · exact step_readReg_of_eq (r := .status) (or_bitAt_eq_append _ _ _ _ _) hrst hturn hhost
  · refine step_readReg_of_eq (r := .errcode) ?_ hrst hturn hhost
    rw [State.readReg, State.errcodeWord]
    cases s.errcode with
    | none => rfl
    | some e => cases e <;> rfl
  · exact step_readReg (r := .cmd) hrst hturn hhost
  · exact step_readReg (r := .result) hrst hturn hhost
  · exact step_readReg (r := .arg0) hrst hturn hhost
  · exact step_readReg (r := .arg1) hrst hturn hhost
  · exact step_readReg (r := .arg2) hrst hturn hhost
  · exact step_readReg (r := .arg3) hrst hturn hhost
  · exact step_readReg (r := .shape0) hrst hturn hhost
  · exact step_readReg (r := .shape1) hrst hturn hhost

/-! ### The SYM window -/

section Windows

variable {s : State} {p : PlaneId} {j : Nat}

theorem busLegal_sym (hj : j < 256) : busLegal (BitVec.ofNat 17 (symAddr j)) .word = true := by
  rw [busLegal_eq_true, toNat_symAddr hj]
  simp only [symAddr, true_and]
  omega

/-- A read of a SYM word of an idle unit answers the symbol and counts one draw (R69, R36). -/
theorem memRead_sym (hidle : s.pending = none) (hj : j < 256) :
    s.memRead (BitVec.ofNat 17 (symAddr j)) .word =
      ({ s with draws := s.draws + 1 }, (s.symbol j s.draws).setWidth 32) := by
  rw [State.memRead, if_pos (busLegal_sym hj), toNat_symAddr hj, windowOf_sym hj]
  dsimp only
  rw [busy_eq_false.2 hidle, if_neg Bool.false_ne_true]

/-- A write of a SYM word of an idle unit stores its low byte (R69). -/
theorem memWrite_sym (hidle : s.pending = none) (hj : j < 256) (v : Word) :
    s.memWrite (BitVec.ofNat 17 (symAddr j)) .word v = { s with mem := s.mem.write (symAddr j) (v.setWidth 8) } := by
  rw [State.memWrite, if_pos (busLegal_sym hj), toNat_symAddr hj, windowOf_sym hj]
  dsimp only
  rw [busy_eq_false.2 hidle, if_neg Bool.false_ne_true]

/-! ### The plane windows -/

theorem busLegal_plane (hj : j < 8192) : busLegal (planeAddr p j) .word = true := by
  have hbase := planeBase_cases p
  rw [busLegal_eq_true, toNat_planeAddr p hj]
  refine ⟨rfl, ?_, ?_⟩ <;> omega

/-- A read of a plane word of an idle unit (R70). -/
theorem memRead_plane (hidle : s.pending = none) (hj : j < 8192) :
    s.memRead (planeAddr p j) .word = (s, s.mem.planeWord (s.shape p) p j) := by
  rw [State.memRead, if_pos (busLegal_plane hj), toNat_planeAddr p hj, windowOf_plane p hj]
  dsimp only
  rw [busy_eq_false.2 hidle, if_neg Bool.false_ne_true]

/-- A write of a plane word of an idle unit (R70). -/
theorem memWrite_plane (hidle : s.pending = none) (hj : j < 8192) (v : Word) :
    s.memWrite (planeAddr p j) .word v = { s with mem := s.mem.writePlaneWord (s.shape p) p j v } := by
  rw [State.memWrite, if_pos (busLegal_plane hj), toNat_planeAddr p hj, windowOf_plane p hj]
  dsimp only
  rw [busy_eq_false.2 hidle, if_neg Bool.false_ne_true]

end Windows

theorem busResp_legal {addr : Offset} {size : Size} (h : busLegal addr size = true) : busResp addr size = .ok := by
  rw [busResp, if_pos h]

/-- Settles O46: the SYM word's write is a byte write, and its read answers the symbol held or a draw. -/
theorem symWindowReadsAndWritesSymbols : Obligations.SymWindowReadsAndWritesSymbols := by
  intro s j v rest hrst hidle hmem hj
  have hturn := unitTurn_of_none hidle
  refine ⟨fun hhost => ⟨s.mem.write (symAddr j) (v.setWidth 8), ?_, ?_, fun a ha => ?_⟩,
    fun hhost => ⟨s.symbol j s.draws, s.draws + 1, ?_, fun b hb => ?_⟩⟩
  · rw [step_writeTransaction (addr := BitVec.ofNat 17 (symAddr j)) hrst hturn hhost, State.writeTransaction,
      memWrite_sym (s := { s with delay := s.delay - 1 }) hidle hj, busResp_legal (busLegal_sym hj)]
  · rw [byteAt_write hmem, if_pos rfl]
  · rw [byteAt_write hmem, if_neg ha]
  · rw [step_readTransaction (addr := BitVec.ofNat 17 (symAddr j)) hrst hturn hhost, State.readTransaction,
      memRead_sym (s := { s with delay := s.delay - 1 }) hidle hj, busResp_legal (busLegal_sym hj)]
    rfl
  · rw [State.symbol, hb, Option.getD_some]

/-- A plane's shape is a function of the SHAPE registers alone (R32). -/
theorem shape_frame (s : State) (mem : Memory) (host : List HostEvent) (delay : Nat) (response : Option Response) (p : PlaneId) :
    ({ s with mem := mem, host := host, delay := delay, response := response } : State).shape p = s.shape p := by
  cases p <;> rfl

theorem columnOf_word (sh : Shape) (j : Nat) {b : Nat} (hb : b < 32) : sh.columnOf (32 * j + b) = j % sh.rowWords * 32 + b := by
  rw [Shape.columnOf, Nat.mul_add_div (by decide), Nat.div_eq_of_lt hb, Nat.add_zero, Nat.mul_add_mod, Nat.mod_eq_of_lt hb]

theorem rowOf_word (sh : Shape) (j : Nat) {b : Nat} (hb : b < 32) : sh.rowOf (32 * j + b) = j / sh.rowWords := by
  rw [Shape.rowOf, Nat.mul_add_div (by decide), Nat.div_eq_of_lt hb, Nat.add_zero]

/-- Settles O47: bit `b` of the data is storage bit `32 j + b`, whose column and row the statement names. -/
theorem planeWindowReadsTheShape : Obligations.PlaneWindowReadsTheShape := by
  intro s p j rest hrst hidle hj hhost W H RW
  refine ⟨s.mem.planeWord (s.shape p) p j, ?_, fun hout => if_neg hout.not_gt, fun hin b hb => ?_⟩
  · rw [step_readTransaction (addr := planeAddr p j) hrst (unitTurn_of_none hidle) hhost, State.readTransaction,
      memRead_plane (s := { s with delay := s.delay - 1 }) hidle hj, busResp_legal (busLegal_plane hj), shape_frame]
  · have hplace : (s.shape p).bitIndex (j % RW * 32 + b) (j / RW) = 32 * j + b := by
      rw [← bitIndex_columnOf_rowOf (s.shape p) (32 * j + b), columnOf_word _ _ hb, rowOf_word _ _ hb]
      rfl
    have hword : j < (s.shape p).rowWords * (s.shape p).height.toNat := hin
    rw [getLsbD_planeWord _ _ _ _ hb, decide_eq_true hword, Bool.true_and, columnOf_word _ _ hb, State.bit, hplace]
    rfl

/-- The storage word of a bit (R38). -/
theorem bitIndex_div (sh : Shape) (x y : Nat) : sh.bitIndex x y / 32 = y * sh.rowWords + x / 32 := by
  unfold Shape.bitIndex
  omega

theorem bitIndex_mod (sh : Shape) (x y : Nat) : sh.bitIndex x y % 32 = x % 32 := by
  unfold Shape.bitIndex
  omega

/-- A host's write of a plane word, bit of the shape by bit (R70): those of the word take the data's bits, all others stay. -/
theorem planeBit_bitIndex_writePlaneWord {s : State} (hmem : s.mem.wf = true) (hlegal : ∀ r, (s.shape r).legal = true)
    (p : PlaneId) (j : Nat) (v : Word) {r : PlaneId} {x y : Nat} (hx : x < (s.shape r).width.toNat)
    (hy : y < (s.shape r).height.toNat) :
    (s.mem.writePlaneWord (s.shape p) p j v).planeBit r ((s.shape r).bitIndex x y) =
      if r = p ∧ y * (s.shape p).rowWords + x / 32 = j then v.getLsbD (x % 32) else s.bit r x y := by
  have hlt := bitIndex_lt hx hy
  have hplace : (s.shape r).bitIndex x y < 262144 := by
    have hfits := legal_fits (hlegal r)
    omega
  obtain ⟨-, -, hbits⟩ := writePlaneWord_spec hmem (legal_fits (hlegal p)) p j v
  rw [hbits r _ hplace, bitIndex_div, bitIndex_mod, State.bit]
  refine if_congr ⟨?_, ?_⟩ rfl rfl
  · rintro ⟨rfl, -, hword, -⟩
    exact ⟨rfl, hword⟩
  · rintro ⟨rfl, rfl⟩
    have hword := bitIndex_div (s.shape r) x y
    exact ⟨rfl, by omega, rfl, by rwa [columnOf_bitIndex hx]⟩

/-- Settles O48: the write of a plane word, read back bit by bit and byte by byte. -/
theorem planeWindowWritesTheShape : Obligations.PlaneWindowWritesTheShape := by
  intro s p j v rest hrst hidle hmem hlegal hj hhost
  obtain ⟨-, hbytes, -⟩ := writePlaneWord_spec hmem (legal_fits (hlegal p)) p j v
  refine ⟨{ s with
    mem := s.mem.writePlaneWord (s.shape p) p j v, host := rest, delay := s.delay - 1, response := some (.write .ok) },
    ?_, rfl, fun r x y hx hy => ?_, hbytes⟩
  · rw [step_writeTransaction (addr := planeAddr p j) hrst (unitTurn_of_none hidle) hhost, State.writeTransaction,
      memWrite_plane (s := { s with delay := s.delay - 1 }) hidle hj, busResp_legal (busLegal_plane hj), shape_frame]
  · rw [State.bit, shape_frame]
    exact planeBit_bitIndex_writePlaneWord hmem hlegal p j v hx hy

/-! ### A command that leaves its storage -/

/-- A build R8 excludes: its shift register runs empty after 8 turns, so `EXP[255]`, which `inv(1)` answers, is 0. -/
def shiftOutBuild : Config := { primPoly := 0x100#9, genBase := 0#8 }

example : legalConfig shiftOutBuild = false := by decide +kernel

/-- RS.ENC of the two symbols `SYM[253]` and `SYM[254]` with one parity symbol, which passes the range check of R175. -/
def overrunState : State :=
  { State.resetFor shiftOutBuild with
    mem := [(symAddr 253, 1#8), (symAddr 254, 1#8)]
    pending := some { word := 0x20#32, args := { a0 := 2#32, a1 := 1#32, a2 := 253#32, a3 := 0#32 } } }

/-- With `inv(1) = 0` the division by the generator reduces nothing: three parity symbols where the range check has counted one. -/
theorem parity_overrun : parity shiftOutBuild (overrunState.message 253 2) 1 = [1#8, 1#8, 0#8] := by decide +kernel

/-- The three symbols go to `SYM[255]` and to the two words past the end of SYM. -/
theorem execRsEnc_overrun :
    exec .rsEnc overrunState = .next
      ({ overrunState.writeSyms 255 [1#8, 1#8, 0#8] with draws := 2 } : State).completeOk := by
  rw [exec, execRsEnc, ← parity_overrun]
  exact runCommand_ok rfl rfl

/-- Refutes O13: the statement does not ask for a build R8 allows, and on another one RS.ENC writes the byte 0x800 past SYM. -/
theorem not_commandsReachOnlyTheirStorage : ¬ Obligations.CommandsReachOnlyTheirStorage := by
  intro h
  obtain ⟨-, -, -, hrs, -⟩ := h .rsEnc overrunState _ (by decide) (fun p => by cases p <;> rfl) execRsEnc_overrun
  obtain ⟨-, -, -, hbyte⟩ := hrs (.inl rfl)
  exact absurd (hbyte 0x800 rfl) (by decide)

end Sys2Proof.Machine
end

section
/-! SUPPORT. The decoder (R85 to R92): what the opcode table says of a word's fields, the three classes of words, and the obligations on
the encoding and on the assembler. -/

namespace Sys2Proof

open Machine

/-! ### The opcode table -/

/-- The table has a row for exactly the assigned opcodes (R87, R89). -/
theorem isSome_find_opTable (f : Fields) : (opTable.find? fun r => r.op == f.op).isSome = f.opAssigned := by
  rw [Bool.eq_iff_iff, List.find?_isSome]
  simp only [opTable, List.exists_mem_cons_iff, List.not_mem_nil, false_and, exists_false, or_false, Fields.opAssigned,
    Bool.or_eq_true, Bool.and_eq_true, beq_iff_eq, decide_eq_true_eq, BitVec.le_def, ← BitVec.toNat_inj, BitVec.toNat_ofNat]
  omega

/-- The table's P and Q columns are those of `Fields.pLegal` and `Fields.qLegal` (R87). -/
theorem opTable_operands : ∀ r ∈ opTable,
    r.hasP = (0x30#8 ≤ r.op && r.op ≤ 0x35#8) ∧ r.hasQ = (r.op == 0x35#8) := by decide

/-- The fields of the word a row's command is encoded as: the row's opcode, and the operands the row has (R85, R87). -/
theorem fields_encode_build : ∀ r ∈ opTable, ∀ p q : Bool, (p = true → r.hasP = true) → (q = true → r.hasQ = true) →
    Fields.ofWord (encode (r.build (PlaneId.ofBit p) (PlaneId.ofBit q))) = ⟨r.op, p, q, 0#22⟩ := by decide

theorem opAssigned_of_wellFormed {f : Fields} (h : f.wellFormed = true) : f.opAssigned = true := by
  simp only [Fields.wellFormed, Bool.and_eq_true] at h
  obtain ⟨⟨⟨hop, -⟩, -⟩, -⟩ := h
  exact hop

/-! ### Words and their fields -/

/-- The four fields hold all of a word's bits (R85). -/
theorem fields_injective : Function.Injective Fields.ofWord := by
  intro v w h
  simp only [Fields.ofWord, Fields.mk.injEq] at h
  obtain ⟨hop, hp, hq, hrsv⟩ := h
  refine BitVec.eq_of_getLsbD_eq fun i hi => ?_
  obtain hlow | rfl | rfl | hhigh : i < 8 ∨ i = 8 ∨ i = 9 ∨ 10 ≤ i := by omega
  · simpa [hlow] using congrArg (·.getLsbD i) hop
  · exact hp
  · exact hq
  · have hlt : i - 10 < 22 := by omega
    simpa [hlt, hhigh] using congrArg (·.getLsbD (i - 10)) hrsv

/-! ### Decoding -/

/-- The encoding of a command decodes to that command (R87). -/
theorem decode_encode (i : Instr) : decode (encode i) = .ok i := by
  cases i with
  | nop | gfAdd | gfMul | gfInv | gfExp | gfLog | rsEnc | rsGen => rfl
  | mxInit p | mxGet p | mxSet p | mxFlip p | mxFill p => cases p <;> rfl
  | mxXor p q => cases p <;> cases q <;> rfl

section Row

variable {f : Fields} {r : OpRow} (hfind : opTable.find? (fun r => r.op == f.op) = some r)
include hfind

theorem op_of_row : r.op = f.op := by simpa using List.find?_some hfind

theorem opAssigned_of_row : f.opAssigned = true := by rw [← isSome_find_opTable, hfind]; rfl

/-- Once the opcode has its row, the fields are legal if RSV is clear and P and Q are set only where the row has them (R90). -/
theorem wellFormed_of_row :
    f.wellFormed = true ↔ f.rsv = 0#22 ∧ (f.p = true → r.hasP = true) ∧ (f.q = true → r.hasQ = true) := by
  obtain ⟨hP, hQ⟩ := opTable_operands r (List.mem_of_find?_eq_some hfind)
  rw [op_of_row hfind] at hP hQ
  rw [Fields.wellFormed, Fields.rsvClear, Fields.pLegal, Fields.qLegal, opAssigned_of_row hfind, ← hP, ← hQ]
  cases f.p <;> cases f.q <;> simp [and_assoc]

/-- Once the opcode has its row, the legal fields are the row's command and the others are reserved (R90). -/
theorem decodeFields_of_row :
    decodeFields f = if f.wellFormed = true then .ok (r.build (PlaneId.ofBit f.p) (PlaneId.ofBit f.q)) else .error .reserved := by
  simp only [decodeFields, hfind, wellFormed_of_row hfind]
  split_ifs <;> simp_all

/-- A row's command, encoded, has the legal fields it was built from (R85, R87). -/
theorem fields_encode_row (hlegal : f.wellFormed = true) :
    Fields.ofWord (encode (r.build (PlaneId.ofBit f.p) (PlaneId.ofBit f.q))) = f := by
  obtain ⟨hrsv, hp, hq⟩ := (wellFormed_of_row hfind).1 hlegal
  rw [fields_encode_build r (List.mem_of_find?_eq_some hfind) f.p f.q hp hq, op_of_row hfind, ← hrsv]

end Row

/-- The three classes of words (R91, R92): E_OPCODE, E_RESERVED, or a command whose encoding is the word. -/
theorem decode_cases (w : Word) :
    ((Fields.ofWord w).opAssigned = false ∧ decode w = .error .opcode) ∨
      ((Fields.ofWord w).opAssigned = true ∧ (Fields.ofWord w).wellFormed = false ∧ decode w = .error .reserved) ∨
      ((Fields.ofWord w).wellFormed = true ∧ ∃ i, decode w = .ok i ∧ encode i = w) := by
  cases hfind : opTable.find? (fun r => r.op == (Fields.ofWord w).op) with
  | none => exact .inl ⟨by rw [← isSome_find_opTable, hfind]; rfl, by rw [decode, decodeFields, hfind]⟩
  | some r =>
    rw [decode, decodeFields_of_row hfind]
    right
    cases hlegal : (Fields.ofWord w).wellFormed with
    | false => exact .inl ⟨opAssigned_of_row hfind, rfl, rfl⟩
    | true => exact .inr ⟨rfl, _, rfl, fields_injective (fields_encode_row hfind hlegal)⟩

/-! ### Raw fields as numbers -/

theorem opAssigned_ofWord (w : Word) : (Fields.ofWord w).opAssigned = true ↔
    w.toNat % 256 = 0x00 ∨ (0x10 ≤ w.toNat % 256 ∧ w.toNat % 256 ≤ 0x14) ∨ w.toNat % 256 = 0x20 ∨ w.toNat % 256 = 0x21 ∨
      (0x30 ≤ w.toNat % 256 ∧ w.toNat % 256 ≤ 0x35) := by
  simp [Fields.opAssigned, Fields.ofWord, BitVec.le_def, ← BitVec.toNat_inj, BitVec.extractLsb'_toNat, or_assoc]

theorem rsvClear_ofWord (w : Word) : (Fields.ofWord w).rsvClear = true ↔ w.toNat / 1024 = 0 := by
  simp only [Fields.rsvClear, Fields.ofWord, beq_iff_eq, ← BitVec.toNat_inj, BitVec.extractLsb'_toNat,
    Nat.shiftRight_eq_div_pow, BitVec.toNat_ofNat]
  omega

theorem pLegal_ofWord (w : Word) : (Fields.ofWord w).pLegal = true ↔
    (w.getLsbD 8 = true → 0x30 ≤ w.toNat % 256 ∧ w.toNat % 256 ≤ 0x35) := by
  rw [Fields.pLegal, Fields.ofWord]
  cases w.getLsbD 8 <;> simp [BitVec.le_def, BitVec.extractLsb'_toNat]

theorem qLegal_ofWord (w : Word) : (Fields.ofWord w).qLegal = true ↔ (w.getLsbD 9 = true → w.toNat % 256 = 0x35) := by
  rw [Fields.qLegal, Fields.ofWord]
  cases w.getLsbD 9 <;> simp [← BitVec.toNat_inj, BitVec.extractLsb'_toNat]

/-- With an assigned opcode, a word is well-formed unless RSV is not 0, P is set without a plane operand or Q outside MX.XOR (R90). -/
theorem wellFormed_ofWord {w : Word} (h : (Fields.ofWord w).opAssigned = true) : (Fields.ofWord w).wellFormed = true ↔
    ¬ (w.toNat / 1024 ≠ 0 ∨ (w.getLsbD 8 = true ∧ ¬ (0x30 ≤ w.toNat % 256 ∧ w.toNat % 256 ≤ 0x35)) ∨
      (w.getLsbD 9 = true ∧ w.toNat % 256 ≠ 0x35)) := by
  simp only [Fields.wellFormed, Bool.and_eq_true, h, rsvClear_ofWord, pLegal_ofWord, qLegal_ofWord]
  tauto

/-! ### The obligations on the encoding -/

/-- Settles O2: the command of a legal word encodes to that word, and every encoding decodes to its command. -/
theorem decodeInvertsEncode : Obligations.DecodeInvertsEncode := by
  intro w i
  constructor
  · intro h
    rcases decode_cases w with ⟨-, herr⟩ | ⟨-, -, herr⟩ | ⟨-, j, hok, hencode⟩
    · cases herr.symm.trans h
    · cases herr.symm.trans h
    · cases hok.symm.trans h
      exact hencode
  · rintro rfl
    exact decode_encode i

/-- Settles O1: the three classes of the decoder, read on the word's number. -/
theorem decodingIsTotalInThreeClasses : Obligations.DecodingIsTotalInThreeClasses := by
  intro w
  dsimp only
  rw [← opAssigned_ofWord]
  rcases decode_cases w with ⟨hop, herr⟩ | ⟨hop, hlegal, herr⟩ | ⟨hlegal, hok⟩
  · exact ⟨fun _ => herr, fun h => absurd h (by simp [hop]), fun h => absurd h (by simp [hop])⟩
  · have hillegal := wellFormed_ofWord hop
    exact ⟨fun h => absurd hop h, fun _ _ => herr, fun _ h => absurd (hillegal.2 h) (by simp [hlegal])⟩
  · exact ⟨fun h => absurd (opAssigned_of_wellFormed hlegal) h,
      fun hop h => absurd h ((wellFormed_ofWord hop).1 hlegal), fun _ _ => hok⟩

/-- Settles O4: of the three classes, only the well-formed one holds commands. -/
theorem legalWordsAreTheWellFormedOnes : Obligations.LegalWordsAreTheWellFormedOnes := by
  intro w
  rcases decode_cases w with ⟨hop, herr⟩ | ⟨-, hlegal, herr⟩ | ⟨hlegal, i, hok, -⟩
  · simp [herr, Fields.wellFormed, hop]
  · simp [herr, hlegal]
  · simp [hok, hlegal]

/-- Settles O3: each word's row of the opcode table, or its illegal field, by evaluation. -/
theorem specWordsDecode : Obligations.SpecWordsDecode :=
  ⟨rfl, rfl, rfl, rfl, rfl, rfl, rfl, rfl, rfl, rfl, rfl, rfl⟩

/-- The assembler knows planes 0 and 1 alone (R94). -/
theorem planeOfNat_eq_none {p : Nat} (h : 2 ≤ p) : planeOfNat p = none := by
  match p, h with
  | p + 2, _ => rfl

/-- Settles O5: the plane numbers 0 and 1 and the rejected ones are the cases of `planeOfNat`; every word is the encoder's. -/
theorem mnemonicsExpandToRegisterWrites : Obligations.MnemonicsExpandToRegisterWrites := by
  intro a b c d
  refine ⟨rfl, rfl, rfl, rfl, rfl, rfl, rfl, rfl, rfl, rfl, ?_, ?_⟩
  · rintro p (rfl | rfl)
    · exact ⟨rfl, rfl, rfl, rfl, rfl, by rintro q (rfl | rfl) <;> rfl⟩
    · exact ⟨rfl, rfl, rfl, rfl, rfl, by rintro q (rfl | rfl) <;> rfl⟩
  · intro p hp
    simp [expandLine, planeLine, planeOfNat_eq_none hp]

end Sys2Proof
end

section
/-! SUPPORT. The unit's step from outside: the completion of a word that is no command (R103), which fields a command can write (R81,
R102), and the end of a WAIT (R95). -/

namespace Sys2Proof.Machine

/-! ### The completion of a word that is no command -/

/-- At the unit's turn a word that is no command completes with its error (R103). -/
theorem step_of_decode_error {s : State} {c : Command} {e : CmdError} (h : s.pending = some c) (hturn : s.unitTurn = true)
    (he : decode c.word = .error e) : step s = .next (s.completeErr e) := by
  rw [step_unit h hturn, State.unitStep, he]

/-- Settles O8: the two illegal classes of O1, completed with their errors. -/
theorem illegalWordsCompleteWithTheirError : Obligations.IllegalWordsCompleteWithTheirError := by
  intro s c hpending hrst hdue
  have hturn := unitTurn_of_pending hpending hrst hdue
  obtain ⟨hopcode, hreserved, -⟩ := decodingIsTotalInThreeClasses c.word
  exact ⟨fun hop => step_of_decode_error hpending hturn (hopcode hop),
    fun hop hillegal => step_of_decode_error hpending hturn (hreserved hop hillegal)⟩

/-! ### What a command leaves unchanged -/

/-- `u` is `s` with other results: RESULT, the shapes, storage and the count of draws, the fields the commands' rules write (R81). -/
def State.ResultsOf (s u : State) : Prop :=
  ∃ result shape0 shape1 mem draws,
    u = { s with result := result, shape0 := shape0, shape1 := shape1, mem := mem, draws := draws }

/-- Every state that `x` answers satisfies `P`. -/
def Answers (P : State → Prop) (x : Except CmdError State) : Prop := ∀ u, x = .ok u → P u

section Answers

variable {P : State → Prop}

theorem answers_ok {u : State} (h : P u) : Answers P (.ok u) := fun _ hu => Except.ok.inj hu ▸ h

theorem answers_error (e : CmdError) : Answers P (.error e) := fun _ h => by cases h

theorem answers_require {b : Bool} {e : CmdError} {k : Except CmdError State} (h : Answers P k) : Answers P (require b e k) :=
  fun u hu => h u (require_ok hu).2

theorem answers_fieldOperand {v : Word} {k : Byte → Except CmdError State} (h : ∀ a, Answers P (k a)) :
    Answers P (fieldOperand v k) := fun u hu => h _ u (fieldOperand_ok hu).2

theorem answers_pointOperand {s : State} {p : PlaneId} {A : Args} {k : Nat → Nat → Except CmdError State}
    (h : ∀ x y, Answers P (k x y)) : Answers P (pointOperand s p A k) := answers_require (answers_require (h _ _))

end Answers

theorem resultsOf_setResult (s : State) (v : Word) : s.ResultsOf (s.setResult v) := ⟨_, _, _, _, _, rfl⟩

theorem resultsOf_withMem (s : State) (m : Memory) : s.ResultsOf { s with mem := m } := ⟨_, _, _, _, _, rfl⟩

theorem resultsOf_initPlane (s : State) (p : PlaneId) (w h : Nat) : s.ResultsOf (s.initPlane p w h) := by
  cases p <;> exact ⟨_, _, _, _, _, rfl⟩

/-- Every meaning is one completion of the shared form, and its writes reach only the fields of `State.ResultsOf` (R81, R102). -/
theorem exec_runCommand_results (i : Instr) (s : State) :
    ∃ body, exec i s = s.runCommand body ∧ ∀ A, Answers s.ResultsOf (body A) := by
  cases i <;>
    simp only [exec, execNop, execGfAdd, execGfMul, execGfInv, execGfExp, execGfLog, execRsEnc, execRsGen, execMxInit, execMxGet,
      execMxSet, execMxFlip, execMxFill, execMxXor] <;>
    refine ⟨_, rfl, fun A => ?_⟩
  case nop => exact answers_ok (resultsOf_withMem s s.mem)
  case gfAdd | gfMul =>
    exact answers_fieldOperand fun a => answers_fieldOperand fun b => answers_ok (resultsOf_setResult s _)
  case gfExp => exact answers_fieldOperand fun a => answers_ok (resultsOf_setResult s _)
  case gfInv | gfLog =>
    refine answers_fieldOperand fun a => ?_
    split
    · exact answers_error _
    · exact answers_ok (resultsOf_setResult s _)
  case rsEnc =>
    exact answers_require <| answers_require <| answers_require <| answers_require <| answers_ok ⟨_, _, _, _, _, rfl⟩
  case rsGen => exact answers_require <| answers_require <| answers_require <| answers_ok (resultsOf_withMem s _)
  case mxInit p => exact answers_require <| answers_require <| answers_require <| answers_ok (resultsOf_initPlane s p _ _)
  case mxGet p => exact answers_pointOperand fun x y => answers_ok (resultsOf_setResult s _)
  case mxSet p | mxFlip p => exact answers_pointOperand fun x y => answers_ok (resultsOf_withMem s _)
  case mxFill p => exact answers_require <| answers_require <| answers_require <| answers_ok (resultsOf_withMem s _)
  case mxXor p q => exact answers_require <| answers_require <| answers_ok (resultsOf_withMem s _)

/-- The unit's step completes the pending command (R102): on its results, or with an error and no other write (R104). -/
theorem unitStep_completes {s : State} {c : Command} (h : s.pending = some c) :
    (∃ u, s.ResultsOf u ∧ s.unitStep c = .next u.completeOk) ∨ ∃ e, s.unitStep c = .next (s.completeErr e) := by
  unfold State.unitStep
  cases decode c.word with
  | error e => exact .inr ⟨e, rfl⟩
  | ok i =>
    obtain ⟨body, hexec, hbody⟩ := exec_runCommand_results i s
    dsimp only
    rw [hexec]
    cases hanswer : body c.args with
    | ok u => exact .inl ⟨u, hbody _ u hanswer, runCommand_ok h hanswer⟩
    | error e => exact .inr ⟨e, runCommand_error h hanswer⟩

/-- What a completion leaves: an empty latch and DONE set, the host's events and `rst` as before (R102). -/
theorem unitStep_spec {s : State} {c : Command} (h : s.pending = some c) :
    ∃ t, s.unitStep c = .next t ∧ t.pending = none ∧ t.done = true ∧ t.rst = s.rst ∧ t.host = s.host := by
  obtain ⟨u, ⟨_, _, _, _, _, rfl⟩, hstep⟩ | ⟨e, hstep⟩ := unitStep_completes h
  · exact ⟨_, hstep, rfl, rfl, rfl, rfl⟩
  · exact ⟨_, hstep, rfl, rfl, rfl, rfl⟩

/-! ### WAIT -/

theorem statusWord_bit_busy (s : State) : s.statusWord.getLsbD 0 = s.busy := by
  simp only [State.statusWord, BitVec.getLsbD_or, getLsbD_bitAt (j := 0) (by decide)]
  simp

/-- A WAIT reads STATUS, and stands first again while a command is pending (R95). -/
theorem step_wait {s : State} {rest : List HostEvent} (hrst : s.rst = false) (hturn : s.unitTurn = false)
    (hhost : s.host = .wait :: rest) :
    step s = .next { s with
      host := if s.busy then .wait :: rest else rest, delay := s.delay - 1,
      response := some (.read s.statusWord .ok) } := by
  rw [step_host hturn hhost, State.hostEvent, if_neg (by simp [hrst]), State.readTransaction,
    memRead_regBlock _ (by decide) (by decide), busResp, if_pos (busLegal_regBlock (by decide) (by decide))]
  rfl

/-- A run goes on from the next state. -/
theorem run_succ {M : Host.Core} {s t : M.State} (h : M.step s = .next t) (n : Nat) : M.run (n + 1) s = M.run n t := by
  rw [Host.Core.run, h]

/-- A WAIT whose command is due ends in two steps: the completion, then the read of STATUS (R95). -/
theorem wait_ends_of_due {s : State} {c : Command} {rest : List HostEvent} (hpending : s.pending = some c) (hrst : s.rst = false)
    (hhost : s.host = .wait :: rest) (hdue : s.delay = 0) :
    ∃ t status, Sys2Proof.core.run 2 s = .next t ∧ t.pending = none ∧ t.host = rest ∧
      t.response = some (.read status .ok) ∧ status.getLsbD 0 = false ∧ status.getLsbD 1 = true := by
  obtain ⟨t, hunit, hempty, hdone, hrst', hhost'⟩ := unitStep_spec hpending
  have hstep : step s = .next t := by rw [step_unit hpending (unitTurn_of_pending hpending hrst (.inr hdue)), hunit]
  have hidle : t.busy = false := busy_eq_false.2 hempty
  have hwait := step_wait (hrst'.trans hrst) (unitTurn_of_none hempty) (hhost'.trans hhost)
  have hrun := (run_succ (M := Sys2Proof.core) hstep 1).trans (run_succ (M := Sys2Proof.core) hwait 0)
  refine ⟨_, t.statusWord, hrun, hempty, ?_, ?_, ?_, ?_⟩
  · simp [hidle]
  · rfl
  · rw [statusWord_bit_busy, hidle]
  · rw [statusWord_bit_done, hdone]

/-- Settles O60, by induction on the host events still to come: each is a WAIT that finds BUSY = 1 and stands first again. -/
theorem waitEnds : Obligations.WaitEnds := by
  intro s c rest hpending hrst hhost
  induction hdelay : s.delay generalizing s with
  | zero => exact wait_ends_of_due hpending hrst hhost hdelay
  | succ n ih =>
    have hturn : s.unitTurn = false := by simp [State.unitTurn, hhost, hdelay]
    have hbusy : s.busy = true := busy_eq_true.2 ⟨c, hpending⟩
    rw [Nat.add_right_comm, run_succ (M := Sys2Proof.core) (step_wait hrst hturn hhost)]
    exact ih _ hpending hrst (by simp [hbusy]) (by simp [hdelay])

end Sys2Proof.Machine
end

section
/-! SUPPORT. Acceptance and completion (40_command.md): the CMD write (R100), the step at the unit's turn (R102, R103), all that a
completion can answer (R104), and that a command reads its snapshot alone (R79, R101). -/

namespace Sys2Proof.Machine

/-! ### Acceptance -/

/-- With no command pending a CMD write is the acceptance, with a free count of host events before the completion (R100, R105). -/
theorem writeCmd_of_idle {s : State} (h : s.pending = none) (w : Word) :
    s.writeCmd w = { s.accept w with delay := Config.latency s.draws, draws := s.draws + 1 } := by
  rw [State.writeCmd, busy_eq_false.2 h, if_neg Bool.false_ne_true]

/-- With a command pending a CMD write is dropped with BUSYERR (R100, R226). -/
theorem writeCmd_of_busy {s : State} (h : s.pending ≠ none) (w : Word) : s.writeCmd w = { s with busyErr := true } := by
  rw [State.writeCmd, if_pos (busy_eq_true.2 (Option.ne_none_iff_exists'.1 h))]

/-- Settles O9: the step is the CMD register's own write, on each side of its test of BUSY. -/
theorem cmdWriteIsAcceptedOrDropped : Obligations.CmdWriteIsAcceptedOrDropped := by
  intro s w rest hrst hturn hhost
  rw [step_writeReg (r := .cmd) hrst hturn hhost, State.writeReg]
  constructor
  · intro hidle
    rw [writeCmd_of_idle (s := { s with delay := s.delay - 1 }) hidle]
    exact ⟨_, _, rfl⟩
  · intro hbusy
    rw [writeCmd_of_busy (s := { s with delay := s.delay - 1 }) hbusy]

/-! ### The unit's turn -/

/-- At the unit's turn a word that decodes to a command runs it (R102, R103). -/
theorem step_of_decode_ok {s : State} {c : Command} {i : Instr} (h : s.pending = some c) (hturn : s.unitTurn = true)
    (hi : decode c.word = .ok i) : step s = exec i s := by
  rw [step_unit h hturn, State.unitStep, hi]

/-- Settles O6: the two answers of the decoder. -/
theorem stepRunsTheDecodedCommand : Obligations.StepRunsTheDecodedCommand := by
  intro s c hpending hrst hdue
  have hturn := unitTurn_of_pending hpending hrst hdue
  exact ⟨fun _ => step_of_decode_ok hpending hturn, fun _ => step_of_decode_error hpending hturn⟩

/-- The decoder of table words is the decoder of command words (R86, R92). -/
theorem decodeTableWord_eq_some {nbits w : Nat} {i : Instr} :
    decodeTableWord nbits w = some i ↔ decode (tableWord nbits w) = .ok i := by
  unfold decodeTableWord
  cases decode (tableWord nbits w) <;> simp

/-- Settles O7: the placed word is pending and due, so the step is the unit's and runs what it decodes to. -/
theorem placedWordIsRunNext : Obligations.PlacedWordIsRunNext := by
  intro s nbits w i hi
  have hpending : (s.withFetchWord nbits w).pending = some { word := tableWord nbits w, args := s.args } := rfl
  have hturn := unitTurn_of_pending hpending rfl (.inr rfl)
  exact step_of_decode_ok hpending hturn (decodeTableWord_eq_some.1 hi)

/-! ### Completion -/

/-- All that a command can answer (R102, R104): the completion on its results, or the error completion and no other write. -/
theorem exec_next {i : Instr} {s t : State} (h : exec i s = .next t) :
    (∃ u, s.ResultsOf u ∧ t = u.completeOk) ∨ ∃ e, t = s.completeErr e := by
  obtain ⟨body, hexec, hbody⟩ := exec_runCommand_results i s
  obtain ⟨c, -, ⟨u, hu, ht⟩ | ⟨e, -, ht⟩⟩ := runCommand_next (hexec ▸ h)
  · exact .inl ⟨u, hbody c.args u hu, ht⟩
  · exact .inr ⟨e, ht⟩

/-- Settles O11: the completion without an error keeps ERR, so ERR = 1 can only be the error completion's. -/
theorem failedCommandWritesNothingElse : Obligations.FailedCommandWritesNothingElse := by
  intro i s t hclear hexec herr
  obtain ⟨u, ⟨_, _, _, _, _, rfl⟩, rfl⟩ | ⟨e, rfl⟩ := exec_next hexec
  · exact absurd (hclear.symm.trans herr) Bool.false_ne_true
  · exact ⟨e, rfl⟩

/-- Settles O12: every command is a completion of the shared form, which tests the latch first. -/
theorem commandCompletesIfPending : Obligations.CommandCompletesIfPending := by
  intro i s
  obtain ⟨body, hbody⟩ := exec_runCommand i s
  refine ⟨fun hnone => hbody ▸ runCommand_of_none hnone body, fun hsome => ?_⟩
  obtain ⟨c, hc⟩ := Option.ne_none_iff_exists'.1 hsome
  obtain ⟨t, ht⟩ := runCommand_of_pending hc body
  have hexec : exec i s = .next t := hbody.trans ht
  obtain ⟨u, -, rfl⟩ | ⟨e, rfl⟩ := exec_next hexec
  · exact ⟨_, hexec, rfl, rfl⟩
  · exact ⟨_, hexec, rfl, rfl⟩

/-- Settles O14: NOP's body answers the state as it is. -/
theorem nopOnlyCompletes : Obligations.NopOnlyCompletes := by
  intro s c hpending
  rw [exec, execNop, runCommand_ok hpending rfl]
  rfl

/-! ### The snapshot -/

/-- `s` with the ARG registers `A`; the latch keeps its snapshot (R31, R101). -/
def State.withArgs (A : Args) (s : State) : State := { s with args := A }

section Checks

variable {f : State → State}

/-- A check commutes with a change of the state that is answered. -/
theorem map_require (b : Bool) (e : CmdError) (k : Except CmdError State) : (require b e k).map f = require b e (k.map f) := by
  cases b <;> rfl

theorem map_fieldOperand (v : Word) (k : Byte → Except CmdError State) :
    (fieldOperand v k).map f = fieldOperand v fun a => (k a).map f := map_require _ _ _

theorem map_pointOperand (s : State) (p : PlaneId) (A : Args) (k : Nat → Nat → Except CmdError State) :
    (pointOperand s p A k).map f = pointOperand s p A fun x y => (k x y).map f := by
  simp only [pointOperand, map_require]

end Checks

@[simp] theorem withArgs_build (A : Args) (s : State) : (s.withArgs A).build = s.build := rfl

@[simp] theorem withArgs_initPlane (A : Args) (s : State) (p : PlaneId) (w h : Nat) :
    (s.withArgs A).initPlane p w h = (s.initPlane p w h).withArgs A := by cases p <;> rfl

/-- The completion of a body that carries the ARG registers through carries them through (R101). -/
theorem runCommand_withArgs {A : Args} {s t : State} {body body' : Args → Except CmdError State}
    (hbody : ∀ B, body' B = (body B).map (State.withArgs A)) (ht : s.runCommand body = .next t) :
    (s.withArgs A).runCommand body' = .next (t.withArgs A) := by
  obtain ⟨c, hc, ⟨u, hu, rfl⟩ | ⟨e, he, rfl⟩⟩ := runCommand_next ht
  · have hanswer : body' c.args = .ok (u.withArgs A) := by rw [hbody, hu]; rfl
    exact runCommand_ok (s := s.withArgs A) hc hanswer
  · have hanswer : body' c.args = .error e := by rw [hbody, he]; rfl
    exact runCommand_error (s := s.withArgs A) hc hanswer

/-- No command reads or writes the ARG registers (R79, R101): the checks and the writes of each commute with a change of them. -/
theorem exec_withArgs {A : Args} {i : Instr} {s t : State} (ht : exec i s = .next t) :
    exec i (s.withArgs A) = .next (t.withArgs A) := by
  cases i <;>
    simp only [exec, execNop, execGfAdd, execGfMul, execGfInv, execGfExp, execGfLog, execRsEnc, execRsGen, execMxInit, execMxGet,
      execMxSet, execMxFlip, execMxFill, execMxXor] at ht ⊢ <;>
    refine runCommand_withArgs (fun B => ?_) ht
  case nop => rfl
  case gfAdd | gfMul => simp only [map_fieldOperand]; rfl
  case gfExp => rw [map_fieldOperand]; rfl
  case gfInv | gfLog =>
    simp only [map_fieldOperand, withArgs_build]
    refine congrArg (fieldOperand B.a0) (funext fun a => ?_)
    split <;> rfl
  case rsEnc | rsGen => simp only [map_require]; rfl
  case mxInit p => simp only [map_require, withArgs_initPlane]; rfl
  case mxGet p | mxSet p | mxFlip p => rw [map_pointOperand]; rfl
  case mxFill p | mxXor p q => simp only [map_require]; rfl

/-- Settles O10: the checks and writes of every command see the latch's snapshot and no ARG register. -/
theorem commandReadsOnlyItsSnapshot : Obligations.CommandReadsOnlyItsSnapshot := fun _ _ _ _ => exec_withArgs

end Sys2Proof.Machine
end

section
/-! SUPPORT. The bit-matrix commands (41_bitmatrix.md): the operand checks on both sides, what the bit operations do to the bits of the
shapes, and each command's completion. -/

namespace Sys2Proof.Machine

/-! ### The checks -/

/-- Two checks in a row that raise the same error are one check of both. -/
theorem require_require (a b : Bool) (e : CmdError) (k : Except CmdError State) :
    require a e (require b e k) = require (a && b) e k := by cases a <;> rfl

theorem planeInit_iff {s : State} {p : PlaneId} : s.planeInit p = true ↔ s.shape p ≠ Shape.none := bne_iff_ne

theorem planeInit_eq_false {s : State} {p : PlaneId} : s.planeInit p = false ↔ s.shape p = Shape.none := bne_eq_false_iff_eq

/-- A plane with a column is initialised (R115). -/
theorem planeInit_of_lt_width {s : State} {p : PlaneId} {x : Nat} (hx : x < (s.shape p).width.toNat) : s.planeInit p = true :=
  planeInit_iff.2 fun hnone => by rw [hnone] at hx; exact Nat.not_lt_zero x hx

section PointOperand

variable {s : State} {p : PlaneId} {A : Args} {k : Nat → Nat → Except CmdError State}

/-- A single-bit operand in bounds passes both checks (R118). -/
theorem pointOperand_of_inBounds (hx : A.a0.toNat < (s.shape p).width.toNat) (hy : A.a1.toNat < (s.shape p).height.toNat) :
    pointOperand s p A k = k A.a0.toNat A.a1.toNat := by
  have hin : s.inBounds p A.a0.toNat A.a1.toNat = true := by simp [State.inBounds, hx, hy]
  rw [pointOperand, planeInit_of_lt_width hx, hin, require_true, require_true]

theorem pointOperand_of_uninit (h : s.shape p = Shape.none) : pointOperand s p A k = .error .mxUninit := by
  rw [pointOperand, planeInit_eq_false.2 h, require_false]

theorem pointOperand_of_outside (h : s.shape p ≠ Shape.none)
    (hout : (s.shape p).width.toNat ≤ A.a0.toNat ∨ (s.shape p).height.toNat ≤ A.a1.toNat) :
    pointOperand s p A k = .error .mxBounds := by
  have hin : s.inBounds p A.a0.toNat A.a1.toNat = false := by simpa [State.inBounds, imp_iff_not_or] using hout
  rw [pointOperand, planeInit_iff.2 h, hin, require_true, require_false]

/-- The error completions of the single-bit commands, in their order (R118). -/
theorem runCommand_pointOperand_fails {c : Command} (hc : s.pending = some c) (k : Nat → Nat → Except CmdError State) :
    (s.shape p = Shape.none → s.runCommand (fun A => pointOperand s p A k) = .next (s.completeErr .mxUninit)) ∧
      (s.shape p ≠ Shape.none →
        (s.shape p).width.toNat ≤ c.args.a0.toNat ∨ (s.shape p).height.toNat ≤ c.args.a1.toNat →
        s.runCommand (fun A => pointOperand s p A k) = .next (s.completeErr .mxBounds)) :=
  ⟨fun hnone => runCommand_error hc (pointOperand_of_uninit hnone),
    fun hinit hout => runCommand_error hc (pointOperand_of_outside hinit hout)⟩

end PointOperand

/-! ### The bits of the shapes -/

/-- A bit of a legal shape has its place in the plane's storage (R38). -/
theorem bitIndex_lt_storage {sh : Shape} (h : sh.legal = true) {x y : Nat} (hx : x < sh.width.toNat) (hy : y < sh.height.toNat) :
    sh.bitIndex x y < 262144 := by
  have hfits := legal_fits h
  have hlt := bitIndex_lt hx hy
  omega

theorem bit_completeOk (s : State) (p : PlaneId) (x y : Nat) : s.completeOk.bit p x y = s.bit p x y := by
  rw [State.bit, completeOk_shape, completeOk_mem, State.bit]

/-- The latch is no part of a plane. -/
theorem bit_withPending (s : State) (l : Option Command) (p : PlaneId) (x y : Nat) :
    ({ s with pending := l } : State).bit p x y = s.bit p x y := by cases p <;> rfl

section Bits

variable {s : State} (hwf : s.mem.wf = true) (hlegal : ∀ r, (s.shape r).legal = true)
include hwf hlegal

/-- `M[p](x, y) <- b` gives that bit the value `b` and keeps every other bit of both planes. -/
theorem bit_setBit {p r : PlaneId} {x y x' y' : Nat} (b : Bool) (hx : x < (s.shape p).width.toNat)
    (hy : y < (s.shape p).height.toNat) (hx' : x' < (s.shape r).width.toNat) (hy' : y' < (s.shape r).height.toNat) :
    (s.setBit p x y b).bit r x' y' = if r = p ∧ x' = x ∧ y' = y then b else s.bit r x' y' := by
  rw [State.bit, setBit_shape, setBit_mem,
    planeBit_writePlaneBit hwf (bitIndex_lt_storage (hlegal p) hx hy) (bitIndex_lt_storage (hlegal r) hx' hy')]
  refine if_congr ⟨?_, ?_⟩ rfl rfl
  · rintro ⟨rfl, hplace⟩
    obtain ⟨rfl, rfl⟩ := bitIndex_inj hx hx' hplace
    exact ⟨rfl, rfl, rfl⟩
  · rintro ⟨rfl, rfl, rfl⟩
    exact ⟨rfl, rfl⟩

/-- A map over plane p gives each bit of p's shape its new value and keeps every bit of the other plane (R116). -/
theorem bit_mapPlane (p q : PlaneId) (g : Nat → Nat → Bool → Bool → Bool) {r : PlaneId} {x y : Nat}
    (hx : x < (s.shape r).width.toNat) (hy : y < (s.shape r).height.toNat) :
    (s.mapPlane p q g).bit r x y =
      if r = p then g x y (s.bit p x y) (s.mem.planeBit q ((s.shape p).bitIndex x y)) else s.bit r x y := by
  rw [State.bit, mapPlane_shape, State.mapPlane,
    planeBit_mapPlane hwf (legal_fits (hlegal p)) p q g (bitIndex_lt_storage (hlegal r) hx hy)]
  by_cases hr : r = p
  · subst hr
    rw [if_pos ⟨rfl, bitIndex_lt hx hy, by rwa [columnOf_bitIndex hx]⟩, if_pos rfl, columnOf_bitIndex hx, rowOf_bitIndex hx,
      State.bit]
  · rw [if_neg fun h => hr h.1, if_neg hr, State.bit]

/-- A command that completes with one bit of plane p written: that bit, and no other bit or byte (R122, R124). -/
theorem next_setBit_spec {p : PlaneId} {x y : Nat} (b : Bool) (hx : x < (s.shape p).width.toNat)
    (hy : y < (s.shape p).height.toNat) {o : Host.Outcome State Fault Refusal} (ho : o = .next (s.setBit p x y b).completeOk) :
    ∃ t, o = .next t ∧ t = { s with mem := t.mem, pending := none, done := true } ∧
      t.bit p x y = b ∧
      (∀ r x' y', x' < (s.shape r).width.toNat → y' < (s.shape r).height.toNat → ¬ (r = p ∧ x' = x ∧ y' = y) →
        t.bit r x' y' = s.bit r x' y') ∧
      ∀ a, a ≠ planeBase p + (s.shape p).bitIndex x y / 8 → t.mem.byteAt a = s.mem.byteAt a := by
  refine ⟨_, ho, rfl, ?_, fun r x' y' hx' hy' hother => ?_, fun a ha => byteAt_writePlaneBit hwf b ha⟩
  · rw [bit_completeOk, bit_setBit hwf hlegal b hx hy hx hy, if_pos ⟨rfl, rfl, rfl⟩]
  · rw [bit_completeOk, bit_setBit hwf hlegal b hx hy hx' hy', if_neg hother]

/-- A command that completes with a map over plane p: the bits of p's shape, and no bit of the other plane and no byte outside the rows
of p's shape (R126, R130). -/
theorem next_mapPlane_spec (p q : PlaneId) (g : Nat → Nat → Bool → Bool → Bool) {o : Host.Outcome State Fault Refusal}
    (ho : o = .next (s.mapPlane p q g).completeOk) :
    ∃ t, o = .next t ∧ t = { s with mem := t.mem, pending := none, done := true } ∧ t.mem.wf = true ∧
      (∀ r x y, x < (s.shape r).width.toNat → y < (s.shape r).height.toNat →
        t.bit r x y = if r = p then g x y (s.bit p x y) (s.mem.planeBit q ((s.shape p).bitIndex x y)) else s.bit r x y) ∧
      ∀ a, ¬ (planeBase p ≤ a ∧
          a < planeBase p + 4 * (((s.shape p).width.toNat + 31) / 32 * (s.shape p).height.toNat)) →
        t.mem.byteAt a = s.mem.byteAt a := by
  obtain ⟨hwf', hbytes⟩ := mapPlane_bytes hwf (legal_fits (hlegal p)) p q g
  refine ⟨_, ho, rfl, hwf', fun r x y hx hy => ?_, hbytes⟩
  rw [bit_completeOk, bit_mapPlane hwf hlegal p q g hx hy]

end Bits

/-! ### MX.INIT -/

/-- R117's conditions on the dimensions of a new plane. -/
def InitFits (w h : Nat) : Prop := w ≠ 0 ∧ h ≠ 0 ∧ w ≤ 65535 ∧ h ≤ 65535 ∧ (w + 31) / 32 * h ≤ 8192

/-- The three checks of MX.INIT together are R117's conditions. -/
theorem initChecks_iff {w h : Nat} :
    ((w != 0 && h != 0) && (decide (w ≤ Config.maxDim) && decide (h ≤ Config.maxDim)) &&
      decide ((w + 31) / 32 * h ≤ Config.matWords)) = true ↔ InitFits w h := by
  simp only [Bool.and_eq_true, bne_iff_ne, decide_eq_true_eq, and_assoc]
  rfl

section Completions

variable {s : State} {c : Command} {p q : PlaneId} (hc : s.pending = some c)
include hc

theorem exec_mxInit_of_fits (hfits : InitFits c.args.a0.toNat c.args.a1.toNat) :
    exec (.mxInit p) s = .next (s.initPlane p c.args.a0.toNat c.args.a1.toNat).completeOk := by
  rw [exec, execMxInit]
  refine runCommand_ok hc ?_
  dsimp only
  rw [require_require, require_require, initChecks_iff.2 hfits, require_true]

theorem exec_mxInit_of_not_fits (hfits : ¬ InitFits c.args.a0.toNat c.args.a1.toNat) :
    exec (.mxInit p) s = .next (s.completeErr .mxShape) := by
  rw [exec, execMxInit]
  refine runCommand_error hc ?_
  dsimp only
  rw [require_require, require_require, Bool.eq_false_iff.2 (mt initChecks_iff.1 hfits), require_false]

/-! ### MX.FILL -/

theorem exec_mxFill_of_inside (hw : c.args.a2.toNat ≠ 0) (hh : c.args.a3.toNat ≠ 0)
    (hright : c.args.a0.toNat + c.args.a2.toNat ≤ (s.shape p).width.toNat)
    (hbottom : c.args.a1.toNat + c.args.a3.toNat ≤ (s.shape p).height.toNat) :
    exec (.mxFill p) s = .next (s.mapPlane p p fun x y b _ =>
      inRegion c.args.a0.toNat c.args.a1.toNat c.args.a2.toNat c.args.a3.toNat x y || b).completeOk := by
  have hinit : s.planeInit p = true := planeInit_of_lt_width (x := c.args.a0.toNat) (by omega)
  rw [exec, execMxFill]
  refine runCommand_ok hc ?_
  dsimp only
  rw [hinit, bne_iff_ne.2 hw, bne_iff_ne.2 hh, decide_eq_true hright, decide_eq_true hbottom]
  rfl

theorem exec_mxFill_of_uninit (hnone : s.shape p = Shape.none) : exec (.mxFill p) s = .next (s.completeErr .mxUninit) := by
  rw [exec, execMxFill]
  refine runCommand_error hc ?_
  simp [planeInit_eq_false.2 hnone]

/-- MX.FILL raises E_MX_BOUNDS for an empty rectangle and for one that leaves the plane, whose sums do not wrap (R126). -/
theorem exec_mxFill_of_outside (hinit : s.shape p ≠ Shape.none)
    (hout : c.args.a2 = 0 ∨ c.args.a3 = 0 ∨ (s.shape p).width.toNat < c.args.a0.toNat + c.args.a2.toNat ∨
      (s.shape p).height.toNat < c.args.a1.toNat + c.args.a3.toNat) :
    exec (.mxFill p) s = .next (s.completeErr .mxBounds) := by
  rw [exec, execMxFill]
  refine runCommand_error hc ?_
  dsimp only
  rw [planeInit_iff.2 hinit, require_true, require_require]
  have hcheck : ((c.args.a2.toNat != 0 && c.args.a3.toNat != 0) &&
      (decide (c.args.a0.toNat + c.args.a2.toNat ≤ (s.shape p).width.toNat) &&
        decide (c.args.a1.toNat + c.args.a3.toNat ≤ (s.shape p).height.toNat))) = false := by
    rcases hout with h | h | h | h <;> simp [h, Nat.not_le.2]
  rw [hcheck, require_false]

/-! ### MX.XOR -/

theorem exec_mxXor_of_equal_shapes (hinit : s.shape p ≠ Shape.none) (hshape : s.shape p = s.shape q) :
    exec (.mxXor p q) s = .next (s.mapPlane p q fun _ _ b m => b ^^ m).completeOk := by
  rw [exec, execMxXor]
  refine runCommand_ok hc ?_
  rw [planeInit_iff.2 hinit, planeInit_iff.2 (hshape ▸ hinit), beq_iff_eq.2 hshape]
  rfl

theorem exec_mxXor_of_uninit (hnone : s.shape p = Shape.none ∨ s.shape q = Shape.none) :
    exec (.mxXor p q) s = .next (s.completeErr .mxUninit) := by
  rw [exec, execMxXor]
  refine runCommand_error hc ?_
  rcases hnone with h | h <;> simp [planeInit_eq_false.2 h]

theorem exec_mxXor_of_mismatch (hp : s.shape p ≠ Shape.none) (hq : s.shape q ≠ Shape.none) (hne : s.shape p ≠ s.shape q) :
    exec (.mxXor p q) s = .next (s.completeErr .mxMismatch) := by
  rw [exec, execMxXor]
  refine runCommand_error hc ?_
  rw [planeInit_iff.2 hp, planeInit_iff.2 hq, beq_eq_false_iff_ne.2 hne]
  rfl

end Completions

/-- MX.XOR on initialised planes of equal shape (R130): each bit of plane p becomes its XOR with the mask's, and nothing else
changes. -/
theorem exec_mxXor_spec {s : State} {c : Command} {p q : PlaneId} (hwf : s.mem.wf = true)
    (hlegal : ∀ r, (s.shape r).legal = true) (hc : s.pending = some c) (hinit : s.shape p ≠ Shape.none)
    (hshape : s.shape p = s.shape q) :
    ∃ t, exec (.mxXor p q) s = .next t ∧ t = { s with mem := t.mem, pending := none, done := true } ∧ t.mem.wf = true ∧
      (∀ r x y, x < (s.shape r).width.toNat → y < (s.shape r).height.toNat →
        t.bit r x y = if r = p then (s.bit p x y ^^ s.bit q x y) else s.bit r x y) ∧
      ∀ a, ¬ (planeBase p ≤ a ∧
          a < planeBase p + 4 * (((s.shape p).width.toNat + 31) / 32 * (s.shape p).height.toNat)) →
        t.mem.byteAt a = s.mem.byteAt a := by
  have hmask (x y : Nat) : s.bit q x y = s.mem.planeBit q ((s.shape p).bitIndex x y) := by rw [hshape, State.bit]
  simp only [hmask]
  exact next_mapPlane_spec hwf hlegal p q (fun _ _ b m => b ^^ m) (exec_mxXor_of_equal_shapes hc hinit hshape)

/-! ### The obligations on the bit-matrix commands -/

/-- Settles O30: the two sides of R117's checks; the cleared storage is `drop`'s. -/
theorem mxInitConstructsAClearPlane : Obligations.MxInitConstructsAClearPlane := by
  intro p
  refine ⟨by cases p <;> rfl, fun s c hc => ⟨fun hfits => ?_, exec_mxInit_of_not_fits hc⟩⟩
  refine ⟨s.mem.drop (planeBase p) planeBytes, ?_, fun a hlo hhi => ?_, fun a hout => ?_⟩
  · rw [exec_mxInit_of_fits hc hfits, State.initPlane, BitVec.ofNat_toNat, BitVec.ofNat_toNat]
    rfl
  · rw [byteAt_clearPlane, if_pos ⟨hlo, hhi⟩]
    rfl
  · rw [byteAt_clearPlane, if_neg hout]

/-- Settles O31: both checks pass, and the RESULT word of a bit is 1 or 0. -/
theorem mxGetReadsTheBit : Obligations.MxGetReadsTheBit := by
  intro p s c hc hx hy
  rw [exec, execMxGet, runCommand_ok hc (pointOperand_of_inBounds hx hy)]
  rfl

/-- Settles O32: both checks pass, and the write is one of a single bit. -/
theorem mxSetWritesOneBit : Obligations.MxSetWritesOneBit := by
  intro p s c hc hwf hlegal x y hx hy
  refine next_setBit_spec hwf hlegal true hx hy ?_
  rw [exec, execMxSet, runCommand_ok hc (pointOperand_of_inBounds hx hy)]

/-- Settles O33: both checks pass, and the write is one of a single bit, the old one inverted. -/
theorem mxFlipInvertsOneBit : Obligations.MxFlipInvertsOneBit := by
  intro p s c hc hwf hlegal x y hx hy
  refine next_setBit_spec hwf hlegal (!s.bit p x y) hx hy ?_
  rw [exec, execMxFlip, runCommand_ok hc (pointOperand_of_inBounds hx hy)]

/-- Settles O34: the map over plane p, whose bits outside the rectangle keep their value. -/
theorem mxFillSetsTheRectangle : Obligations.MxFillSetsTheRectangle := by
  intro p s c hc hwf hlegal left top w h sh hw hh hright hbottom
  obtain ⟨t, hexec, hframe, -, hbit, hbyte⟩ :=
    next_mapPlane_spec hwf hlegal p p _ (exec_mxFill_of_inside hc hw hh hright hbottom)
  refine ⟨t, hexec, hframe, fun r x y hx hy => ?_, hbyte⟩
  rw [hbit r x y hx hy]
  by_cases hr : r = p
  · subst hr
    simp [inRegion, Bool.and_assoc, left, top, w, h, Bool.or_comm]
  · simp [hr]

/-- Settles O35: the map over plane p reads both old bits before it writes. -/
theorem mxXorAddsTheMask : Obligations.MxXorAddsTheMask := by
  intro p q s c hc hwf hlegal hinit hshape sh
  obtain ⟨t, hexec, hframe, -, hbit, hbyte⟩ := exec_mxXor_spec hwf hlegal hc hinit hshape
  refine ⟨t, hexec, hframe, fun x y hx hy => ?_, fun r x y hr hx hy => ?_, hbyte⟩
  · rw [hbit p x y hx hy, if_pos rfl]
  · rw [hbit r x y hx hy, if_neg hr]

/-- Settles O36: each failing check, with those before it passed. -/
theorem mxChecksInOrder : Obligations.MxChecksInOrder := by
  intro p q s c hc fails sh
  refine ⟨?_, exec_mxFill_of_uninit hc, exec_mxFill_of_outside hc, exec_mxXor_of_uninit hc, exec_mxXor_of_mismatch hc⟩
  rintro i (rfl | rfl | rfl)
  · exact runCommand_pointOperand_fails hc fun x y => .ok (s.setResult (bitWord (s.bit p x y)))
  · exact runCommand_pointOperand_fails hc fun x y => .ok (s.setBit p x y true)
  · exact runCommand_pointOperand_fails hc fun x y => .ok (s.setBit p x y (!s.bit p x y))

/-- Settles O37: the first XOR keeps the shapes, the storage's form and the mask, so the second XORs the same bits again. -/
theorem mxXorTwiceIsTheIdentity : Obligations.MxXorTwiceIsTheIdentity := by
  intro p q s t u c d hpq hwf hlegal hinit hshape hc ht hu x y hx hy
  obtain ⟨t', ht', hframe, hwf', hfirst, -⟩ := exec_mxXor_spec hwf hlegal hc hinit hshape
  obtain rfl : t = t' := Host.Outcome.next.inj (ht.symm.trans ht')
  have hkept (r : PlaneId) : ({ t with pending := some d } : State).shape r = s.shape r := by rw [hframe]; cases r <;> rfl
  obtain ⟨u', hu', -, -, hsecond, -⟩ := exec_mxXor_spec (s := { t with pending := some d }) (c := d) (p := p) (q := q) hwf'
    (fun r => (hkept r).symm ▸ hlegal r) rfl (by rwa [hkept]) (by rwa [hkept, hkept])
  obtain rfl : u = u' := Host.Outcome.next.inj (hu.symm.trans hu')
  calc u.bit p x y
    _ = (t.bit p x y ^^ t.bit q x y) := by
      rw [hsecond p x y (by rwa [hkept]) (by rwa [hkept]), if_pos rfl, bit_withPending t (some d), bit_withPending t (some d)]
    _ = ((s.bit p x y ^^ s.bit q x y) ^^ s.bit q x y) := by
      rw [hfirst p x y hx hy, hfirst q x y (hshape ▸ hx) (hshape ▸ hy), if_pos rfl, if_neg hpq.symm]
    _ = s.bit p x y := by rw [Bool.xor_assoc, Bool.xor_self, Bool.xor_false]

end Sys2Proof.Machine
end

section
/-! SUPPORT. The Galois-field commands (42_gf.md): multiplication by α on bytes, the field laws of the builds R8 allows, and what each
command does with operands that are bytes and with operands above 0xFF. -/

namespace Sys2Proof.Machine

/-! ### Multiplication by α -/

/-- Multiplication of a byte by α, reduced modulo PRIM_POLY: a turn of the shift register without its bit 8 (R141). -/
def timesAlpha (c : Config) (v : Byte) : Byte := if v.getLsbD 7 then (v <<< 1) ^^^ c.primPoly.setWidth 8 else v <<< 1

/-- The low byte of a turn of the shift register depends on the register's low byte alone (R141). -/
theorem setWidth_lfsr (c : Config) (x : BitVec 9) : (lfsr c x).setWidth 8 = timesAlpha c (x.setWidth 8) := by
  have hcarry : (x <<< 1).getLsbD 8 = (x.setWidth 8).getLsbD 7 := by simp
  have hshift : (x <<< 1).setWidth 8 = x.setWidth 8 <<< 1 := BitVec.setWidth_shiftLeft_of_le (by decide)
  rw [lfsr, timesAlpha, hcarry]
  split
  · rw [BitVec.setWidth_xor, hshift]
  · exact hshift

theorem fieldExp_succ (c : Config) (i : Nat) : fieldExp c (i + 1) = timesAlpha c (fieldExp c i) := setWidth_lfsr c _

/-- The exponents below the degree of PRIM_POLY are the powers of x, not reduced (R141). -/
theorem fieldExp_eq_twoPow (c : Config) {i : Nat} (hi : i < 8) : fieldExp c i = BitVec.twoPow 8 i := by
  induction i with
  | zero => rfl
  | succ i ih =>
    have htop : (BitVec.twoPow 8 i).getLsbD 7 = false := by
      rw [BitVec.getLsbD_twoPow, decide_eq_false (by omega : ¬ i = 7), Bool.and_false]
    rw [fieldExp_succ, ih (by omega), timesAlpha, htop, if_neg Bool.false_ne_true, BitVec.twoPow_eq, BitVec.twoPow_eq,
      BitVec.shiftLeft_add]

/-- A byte is the sum of the powers of x at its set bits (R7). -/
theorem foldl_setBits (c : Config) (b : Byte) {n : Nat} (hn : n ≤ 8) :
    (List.range n).foldl (fun acc i => if b.getLsbD i then acc ^^^ fieldExp c i else acc) 0#8 = (b.setWidth n).setWidth 8 := by
  induction n with
  | zero => rw [BitVec.eq_nil (b.setWidth 0)]; rfl
  | succ n ih =>
    rw [List.range_succ, List.foldl_append, ih (by omega), List.foldl_cons, List.foldl_nil, fieldExp_eq_twoPow c (by omega)]
    apply BitVec.eq_of_getLsbD_eq
    intro j hj
    by_cases hjn : j = n
    · subst hjn
      cases hbit : b[j] <;> simp [hbit, hj]
    · have hlt : j < n + 1 ↔ j < n := by omega
      split <;> simp [hj, hlt, hjn]

/-! ### The field laws of the builds R8 allows -/

section Laws

variable {cfg : Config} (h : legalConfig cfg = true)
include h

/-- A product adds the exponents (R146, R149). -/
theorem fieldMul_fieldExp_fieldExp (i j : Nat) : fieldMul cfg (fieldExp cfg i) (fieldExp cfg j) = fieldExp cfg (i + j) := by
  rw [fieldMul_fieldExp h, lfsrAfter_of_fieldExp (legalConfig_iff.1 h).1, ← lfsrAfter_add, Nat.add_comm, fieldExp]

theorem fieldMul_xor (a b d : Byte) : fieldMul cfg a (b ^^^ d) = fieldMul cfg a b ^^^ fieldMul cfg a d := by
  by_cases ha : a = 0#8
  · simp [ha]
  · obtain ⟨i, -, rfl⟩ := exists_fieldExp h ha
    simp only [fieldMul_comm cfg (fieldExp cfg i), fieldMul_fieldExp h, BitVec.setWidth_xor, lfsr_iterate_xor]

theorem fieldMul_assoc (a b d : Byte) : fieldMul cfg (fieldMul cfg a b) d = fieldMul cfg a (fieldMul cfg b d) := by
  by_cases hzero : a = 0#8 ∨ b = 0#8 ∨ d = 0#8
  · rcases hzero with rfl | rfl | rfl <;> simp
  · obtain ⟨ha, hb, hd⟩ : a ≠ 0#8 ∧ b ≠ 0#8 ∧ d ≠ 0#8 := by simpa only [not_or] using hzero
    obtain ⟨i, -, rfl⟩ := exists_fieldExp h ha
    obtain ⟨j, -, rfl⟩ := exists_fieldExp h hb
    obtain ⟨k, -, rfl⟩ := exists_fieldExp h hd
    simp only [fieldMul_fieldExp_fieldExp h, Nat.add_assoc]

theorem fieldInv_fieldExp {i : Nat} (hi : i < 255) : fieldInv cfg (fieldExp cfg i) = some (fieldExp cfg (255 - i)) := by
  rw [fieldInv, fieldLog_fieldExp h hi, Option.map_some]

/-- The exponent of the inverse completes the period of 255 turns (R147). -/
theorem fieldMul_fieldExp_inverse {i : Nat} (hi : i < 255) : fieldMul cfg (fieldExp cfg i) (fieldExp cfg (255 - i)) = 1#8 := by
  rw [fieldMul_fieldExp_fieldExp h, Nat.add_sub_cancel' hi.le, ← fieldExp_mod h, Nat.mod_self, fieldExp_zero]

/-- The powers of α = EXP[1] (R149). -/
theorem iterate_fieldMul_alpha (m : Nat) : (fieldMul cfg 2#8)^[m] 1#8 = fieldExp cfg m := by
  induction m with
  | zero => rfl
  | succ m ih =>
    have halpha : fieldExp cfg 1 = 2#8 := fieldExp_eq_twoPow cfg (by decide)
    rw [Function.iterate_succ_apply', ih, ← halpha, fieldMul_fieldExp_fieldExp h, Nat.add_comm]

/-- The product with EXP[i] is `i` multiplications by α (R149). -/
theorem fieldMul_fieldExp_eq_iterate (a : Byte) (i : Nat) : fieldMul cfg a (fieldExp cfg i) = (timesAlpha cfg)^[i] a := by
  have hiter : ∀ x : BitVec 9, ((lfsr cfg)^[i] x).setWidth 8 = (timesAlpha cfg)^[i] (x.setWidth 8) :=
    Function.Semiconj.iterate_right (f := BitVec.setWidth 8) (setWidth_lfsr cfg) i
  rw [fieldMul_fieldExp h, hiter, BitVec.setWidth_setWidth_of_le _ (by decide), BitVec.setWidth_eq]

/-- The product is the sum of the products with the powers of x at the set bits of `b` (R146). -/
theorem fieldMul_eq_foldl (a b : Byte) :
    fieldMul cfg a b = (List.range 8).foldl (fun acc i => if b.getLsbD i then acc ^^^ (timesAlpha cfg)^[i] a else acc) 0#8 := by
  have hhom := List.foldl_hom (fieldMul cfg a) (l := List.range 8) (init := 0#8)
    (g₁ := fun acc i => if b.getLsbD i then acc ^^^ fieldExp cfg i else acc)
    (g₂ := fun acc i => if b.getLsbD i then acc ^^^ (timesAlpha cfg)^[i] a else acc) fun acc i => by
      split
      · rw [fieldMul_xor h, fieldMul_fieldExp_eq_iterate h]
      · rfl
  rw [foldl_setBits cfg b (Nat.le_refl 8), BitVec.setWidth_eq, BitVec.setWidth_eq, fieldMul_zero_right] at hhom
  exact hhom.symm

end Laws

/-! ### Field operands (R151) -/

@[simp] theorem setWidth_symbolWord (a : Byte) : (symbolWord a).setWidth 8 = a := by
  rw [symbolWord, BitVec.setWidth_setWidth_of_le _ (by decide), BitVec.setWidth_eq]

theorem symbolWord_inj {a b : Byte} : symbolWord a = symbolWord b ↔ a = b :=
  ⟨fun hab => by rw [← setWidth_symbolWord a, hab, setWidth_symbolWord], congrArg symbolWord⟩

theorem toNat_symbolWord (a : Byte) : (symbolWord a).toNat = a.toNat := BitVec.toNat_setWidth_of_le (by decide)

theorem symbolWord_eq_zero_iff {a : Byte} : symbolWord a = 0 ↔ a = 0#8 := symbolWord_inj (b := 0#8)

/-- A word of at most 0xFF is a field element. -/
theorem exists_symbolWord {v : Word} (hv : v.toNat ≤ 0xFF) : ∃ a : Byte, v = symbolWord a := by
  refine ⟨v.setWidth 8, BitVec.eq_of_toNat_eq ?_⟩
  rw [toNat_symbolWord, BitVec.toNat_setWidth, Nat.mod_eq_of_lt (by omega)]

theorem fieldOperand_symbolWord (a : Byte) (k : Byte → Except CmdError State) : fieldOperand (symbolWord a) k = k a := by
  rw [fieldOperand_of_le (Nat.le_of_lt_succ (symbolWord_lt a)), setWidth_symbolWord]

section Completions

variable {s : State} {c : Command} (hc : s.pending = some c)
include hc

theorem runCommand_fieldOperand_fails (hout : 0xFF < c.args.a0.toNat) (k : Byte → Except CmdError State) :
    s.runCommand (fun A => fieldOperand A.a0 k) = .next (s.completeErr .operand) :=
  runCommand_error hc (fieldOperand_of_gt hout k)

theorem runCommand_twoFieldOperands_fails (hout : 0xFF < c.args.a0.toNat ∨ 0xFF < c.args.a1.toNat)
    (k : Byte → Byte → Except CmdError State) :
    s.runCommand (fun A => fieldOperand A.a0 fun a => fieldOperand A.a1 (k a)) = .next (s.completeErr .operand) := by
  refine runCommand_error hc ?_
  by_cases ha : 0xFF < c.args.a0.toNat
  · exact fieldOperand_of_gt ha _
  · rw [fieldOperand_of_le (Nat.not_lt.1 ha), fieldOperand_of_gt (hout.resolve_left ha)]

section Bytes

variable {a : Byte} (ha : c.args.a0 = symbolWord a)
include ha

theorem exec_gfAdd_of_bytes {b : Byte} (hb : c.args.a1 = symbolWord b) :
    exec .gfAdd s = .next (s.setResult (symbolWord (fieldAdd a b))).completeOk := by
  rw [exec, execGfAdd]
  refine runCommand_ok hc ?_
  rw [ha, hb, fieldOperand_symbolWord, fieldOperand_symbolWord]

theorem exec_gfMul_of_bytes {b : Byte} (hb : c.args.a1 = symbolWord b) :
    exec .gfMul s = .next (s.setResult (symbolWord (fieldMul s.build a b))).completeOk := by
  rw [exec, execGfMul]
  refine runCommand_ok hc ?_
  rw [ha, hb, fieldOperand_symbolWord, fieldOperand_symbolWord]

theorem exec_gfInv_of_some {v : Byte} (hv : fieldInv s.build a = some v) :
    exec .gfInv s = .next (s.setResult (symbolWord v)).completeOk := by
  rw [exec, execGfInv]
  refine runCommand_ok hc ?_
  rw [ha, fieldOperand_symbolWord, hv]

theorem exec_gfInv_of_none (hv : fieldInv s.build a = none) : exec .gfInv s = .next (s.completeErr .invZero) := by
  rw [exec, execGfInv]
  refine runCommand_error hc ?_
  rw [ha, fieldOperand_symbolWord, hv]

theorem exec_gfExp_of_byte : exec .gfExp s = .next (s.setResult (symbolWord (fieldExp s.build a.toNat))).completeOk := by
  rw [exec, execGfExp]
  refine runCommand_ok hc ?_
  rw [ha, fieldOperand_symbolWord]

theorem exec_gfLog_of_some {i : Nat} (hi : fieldLog s.build a = some i) :
    exec .gfLog s = .next (s.setResult (BitVec.ofNat 32 i)).completeOk := by
  rw [exec, execGfLog]
  refine runCommand_ok hc ?_
  rw [ha, fieldOperand_symbolWord, hi]

theorem exec_gfLog_of_none (hi : fieldLog s.build a = none) : exec .gfLog s = .next (s.completeErr .logZero) := by
  rw [exec, execGfLog]
  refine runCommand_error hc ?_
  rw [ha, fieldOperand_symbolWord, hi]

end Bytes

end Completions

/-- A nonzero operand of at most 0xFF on a build R8 allows is the exponent of one index in 0..254 (R142). -/
theorem exists_operand_fieldExp {cfg : Config} (h : legalConfig cfg = true) {v : Word} (hne : v ≠ 0) (hv : v.toNat ≤ 0xFF) :
    ∃ i, i < 255 ∧ v = symbolWord (fieldExp cfg i) ∧ ∀ j, j ≤ 254 → v = symbolWord (fieldExp cfg j) → j = i := by
  obtain ⟨a, rfl⟩ := exists_symbolWord hv
  obtain ⟨i, hi, rfl⟩ := exists_fieldExp h (mt symbolWord_eq_zero_iff.2 hne)
  obtain ⟨-, -, hinj, -⟩ := legalConfig_iff.1 h
  exact ⟨i, hi, rfl, fun j hj hword => hinj j i (by omega) hi (symbolWord_inj.1 hword).symm⟩

/-! ### The obligations on the field and its commands -/

/-- Settles O16: the product of the two bytes; its zero cases are the guard's, the others add the exponents. -/
theorem gfMulAddsLogarithms : Obligations.GfMulAddsLogarithms := by
  refine ⟨rfl, fun s c hc => ⟨fun hlegal ha hb => ?_, fun hout => runCommand_twoFieldOperands_fails hc hout _⟩⟩
  obtain ⟨a, ha⟩ := exists_symbolWord ha
  obtain ⟨b, hb⟩ := exists_symbolWord hb
  refine ⟨fieldMul s.build a b, exec_gfMul_of_bytes hc ha hb, fun hzero => ?_, fun i j _ _ hi hj => ?_⟩
  · rw [ha, hb, symbolWord_eq_zero_iff, symbolWord_eq_zero_iff] at hzero
    exact if_pos hzero
  · obtain rfl : a = fieldExp s.build i := symbolWord_inj.1 (ha.symm.trans hi)
    obtain rfl : b = fieldExp s.build j := symbolWord_inj.1 (hb.symm.trans hj)
    rw [fieldMul_fieldExp_fieldExp hlegal, fieldExp_mod hlegal]

/-- Settles O17: the operand is EXP[i], and its inverse EXP[255 - i]. -/
theorem gfInvGivesTheInverse : Obligations.GfInvGivesTheInverse := by
  refine ⟨rfl, fun s c hc => ⟨fun hlegal hne ha => ?_, fun hzero => exec_gfInv_of_none hc (a := 0#8) hzero rfl,
    fun hout => runCommand_fieldOperand_fails hc hout _⟩⟩
  obtain ⟨i, hi, ha, huniq⟩ := exists_operand_fieldExp hlegal hne ha
  refine ⟨fieldExp s.build (255 - i), exec_gfInv_of_some hc ha (fieldInv_fieldExp hlegal hi), ?_, fun j hj hword => ?_⟩
  · rw [ha, setWidth_symbolWord]
    exact fieldMul_fieldExp_inverse hlegal hi
  · rw [huniq j hj hword]

/-- Settles O19: the operand is EXP[i] for one index i in 0..254, which LOG answers. -/
theorem gfLogInvertsTheExponent : Obligations.GfLogInvertsTheExponent := by
  refine ⟨rfl, fun s c hc => ⟨fun hlegal hne ha => ?_, fun hzero => exec_gfLog_of_none hc (a := 0#8) hzero rfl,
    fun hout => runCommand_fieldOperand_fails hc hout _⟩⟩
  obtain ⟨i, hi, ha, huniq⟩ := exists_operand_fieldExp hlegal hne ha
  exact ⟨i, Nat.le_of_lt_succ hi, ha.symm, fun j hj hword => huniq j hj hword.symm,
    exec_gfLog_of_some hc ha (fieldLog_fieldExp hlegal hi)⟩

/-- Settles O20: the low byte of the register's turn. -/
theorem expTableIsTheShiftRegister : Obligations.ExpTableIsTheShiftRegister :=
  ⟨rfl, fun cfg _ => ⟨fieldExp_zero cfg, fieldExp_succ cfg⟩⟩

/-- Settles O21: each law is that of the exponents, but distributivity, which is the linearity of the register's turns. -/
theorem fieldLawsHold : Obligations.FieldLawsHold := by
  refine ⟨legalConfig_unit, fun cfg hlegal => ⟨fun a b => ⟨BitVec.xor_comm a b, fieldMul_comm cfg a b⟩,
    fun a b d => ⟨BitVec.xor_assoc a b d, fieldMul_assoc hlegal a b d, fieldMul_xor hlegal a b d⟩,
    fun a => ⟨fieldMul_one_right hlegal a, fieldMul_zero_right cfg a⟩, fun a ha => ?_, fun i j _ _ => ?_, fun m => ?_⟩⟩
  · obtain ⟨i, hi, rfl⟩ := exists_fieldExp hlegal ha
    exact ⟨_, fieldInv_fieldExp hlegal hi, fieldMul_fieldExp_inverse hlegal hi⟩
  · rw [fieldExp_mod hlegal, fieldMul_fieldExp_fieldExp hlegal]
  · rw [fieldExp_mod hlegal]
    exact iterate_fieldMul_alpha hlegal m

/-- Settles O22: the product is linear in `b`, whose set bits are the exponents below 8. -/
theorem productIsTheReducedCarrylessProduct : Obligations.ProductIsTheReducedCarrylessProduct :=
  ⟨rfl, fun _ hlegal => fieldMul_eq_foldl hlegal⟩

/-- Settles O15: the XOR of two bytes, zero-extended, is the XOR of their words. -/
theorem gfAddIsXor : Obligations.GfAddIsXor := by
  refine ⟨rfl, fun s c hc => ⟨fun ha hb => ?_, fun hout => runCommand_twoFieldOperands_fails hc hout _⟩⟩
  obtain ⟨a, ha⟩ := exists_symbolWord ha
  obtain ⟨b, hb⟩ := exists_symbolWord hb
  have hxor : symbolWord (fieldAdd a b) = c.args.a0 ^^^ c.args.a1 := by rw [ha, hb]; exact BitVec.setWidth_xor
  rw [exec_gfAdd_of_bytes hc ha hb, hxor]
  rfl

/-- Settles O18: the index is the operand's byte as it stands. -/
theorem gfExpLooksUpTheTable : Obligations.GfExpLooksUpTheTable := by
  refine ⟨rfl, fun s c hc => ⟨fun ha => ?_, fun hout => runCommand_fieldOperand_fails hc hout _⟩⟩
  obtain ⟨a, ha⟩ := exists_symbolWord ha
  rw [exec_gfExp_of_byte hc ha, ha, toNat_symbolWord]
  rfl

end Sys2Proof.Machine
end

section
/-! SUPPORT. The Reed–Solomon primitives (43_rs.md) as polynomials: a ring that the bytes of a build R8 allows are read in, the
polynomial a coefficient list stands for, and what each primitive of R166 does to it. -/

namespace Sys2Proof.Machine

open scoped Polynomial
open Polynomial (X C)

/-! ### The ring of a build -/

/-- A commutative ring in which the bytes of the build `cfg` are read, with the field's addition and product (R145, R146). -/
structure FieldModel (cfg : Config) (F : Type) [CommRing F] where
  /-- The element a byte stands for. -/
  val : Byte → F
  val_injective : Function.Injective val
  val_one : val 1#8 = 1
  val_add : ∀ a b, val (fieldAdd a b) = val a + val b
  val_mul : ∀ a b, val (fieldMul cfg a b) = val a * val b

/-- The bytes themselves, with the operations of a build R8 allows (R149). -/
abbrev fieldRing {cfg : Config} (h : legalConfig cfg = true) : CommRing Byte :=
  @CommRing.ofMinimalAxioms Byte ⟨fieldAdd⟩ ⟨fieldMul cfg⟩ ⟨id⟩ ⟨0#8⟩ ⟨1#8⟩ BitVec.xor_assoc (fun _ => BitVec.zero_xor)
    (fun _ => BitVec.xor_self) (fieldMul_assoc h) (fieldMul_comm cfg) (fieldMul_one_left h) (fieldMul_xor h)

/-- Every build R8 allows has such a ring. -/
theorem exists_fieldModel {cfg : Config} (h : legalConfig cfg = true) :
    ∃ (F : Type) (_ : CommRing F), Nonempty (FieldModel cfg F) :=
  ⟨Byte, fieldRing h, ⟨@FieldModel.mk cfg Byte (fieldRing h) id Function.injective_id rfl (fun _ _ => rfl) fun _ _ => rfl⟩⟩

namespace FieldModel

variable {cfg : Config} {F : Type} [CommRing F] (M : FieldModel cfg F)

/-- Every element is its own negative (R145). -/
theorem val_add_self (a : Byte) : M.val a + M.val a = M.val 0#8 := by rw [← M.val_add, fieldAdd, BitVec.xor_self]

@[simp] theorem val_zero : M.val 0#8 = 0 := by simpa using M.val_add_self 0#8

theorem C_val_add_self (a : Byte) : C (M.val a) + C (M.val a) = 0 := by
  rw [← Polynomial.C_add, M.val_add_self, val_zero, Polynomial.C_0]

include M in
theorem nontrivial : Nontrivial F := ⟨M.val 0#8, M.val 1#8, M.val_injective.ne (by decide)⟩

/-! ### The polynomial of a coefficient list -/

/-- The polynomial a coefficient list stands for, high-degree first (R14). -/
noncomputable def toPoly : Poly → F[X]
  | [] => 0
  | a :: P => C (M.val a) * X ^ P.length + toPoly P

@[simp] theorem toPoly_nil : M.toPoly [] = 0 := rfl

theorem toPoly_cons (a : Byte) (P : Poly) : M.toPoly (a :: P) = C (M.val a) * X ^ P.length + M.toPoly P := rfl

@[simp] theorem toPoly_zero_cons (P : Poly) : M.toPoly (0#8 :: P) = M.toPoly P := by simp [toPoly_cons]

@[simp] theorem toPoly_one : M.toPoly [1#8] = 1 := by simp [toPoly_cons, M.val_one]

theorem toPoly_append (P Q : Poly) : M.toPoly (P ++ Q) = M.toPoly P * X ^ Q.length + M.toPoly Q := by
  induction P with
  | nil => simp
  | cons a P ih => rw [List.cons_append, toPoly_cons, toPoly_cons, ih, List.length_append, pow_add]; ring

@[simp] theorem toPoly_replicate_zero (n : Nat) : M.toPoly (List.replicate n 0#8) = 0 := by
  induction n with
  | zero => rfl
  | succ n ih => rw [List.replicate_succ, toPoly_zero_cons, ih]

theorem toPoly_append_singleton (P : Poly) (a : Byte) : M.toPoly (P ++ [a]) = M.toPoly P * X + C (M.val a) := by
  simp [toPoly_append, toPoly_cons]

theorem toPoly_zeros_append (n : Nat) (P : Poly) : M.toPoly (List.replicate n 0#8 ++ P) = M.toPoly P := by
  rw [toPoly_append, toPoly_replicate_zero, zero_mul, zero_add]

theorem toPoly_append_zeros (P : Poly) (n : Nat) : M.toPoly (P ++ List.replicate n 0#8) = M.toPoly P * X ^ n := by
  rw [toPoly_append, toPoly_replicate_zero, add_zero, List.length_replicate]

/-- Every polynomial is its own negative (R145). -/
theorem toPoly_add_self (P : Poly) : M.toPoly P + M.toPoly P = 0 := by
  induction P with
  | nil => simp
  | cons a P ih => rw [toPoly_cons]; linear_combination X ^ P.length * M.C_val_add_self a + ih

/-- Trimming does not change the polynomial (R165). -/
@[simp] theorem toPoly_trim (P : Poly) : M.toPoly (trim P) = M.toPoly P := by
  fun_induction trim P with
  | case1 => simp
  | case2 => rfl
  | case3 b l ih => rw [ih, toPoly_zero_cons]
  | case4 => rfl

theorem toPoly_padLeft (n : Nat) (P : Poly) : M.toPoly (padLeft n P) = M.toPoly P := M.toPoly_zeros_append _ _

theorem toPoly_zipWith_add : ∀ {P Q : Poly}, P.length = Q.length →
    M.toPoly (List.zipWith fieldAdd P Q) = M.toPoly P + M.toPoly Q
  | [], [], _ => by simp
  | a :: P, b :: Q, h => by
    rw [List.length_cons, List.length_cons, Nat.add_right_cancel_iff] at h
    rw [List.zipWith_cons_cons, toPoly_cons, toPoly_cons, toPoly_cons, toPoly_zipWith_add h, M.val_add, Polynomial.C_add,
      List.length_zipWith, h, Nat.min_self]
    ring

theorem toPoly_addAligned (P Q : Poly) : M.toPoly (addAligned P Q) = M.toPoly P + M.toPoly Q := by
  have hlen : (List.replicate (Q.length - P.length) 0#8 ++ P).length =
      (List.replicate (P.length - Q.length) 0#8 ++ Q).length := by
    simp only [List.length_append, List.length_replicate]; omega
  rw [addAligned, M.toPoly_zipWith_add hlen, toPoly_zeros_append, toPoly_zeros_append]

theorem toPoly_padd (P Q : Poly) : M.toPoly (padd P Q) = M.toPoly P + M.toPoly Q := by
  rw [padd, toPoly_trim, toPoly_addAligned]

theorem toPoly_map_mul (a : Byte) (P : Poly) : M.toPoly (P.map (fieldMul cfg a)) = C (M.val a) * M.toPoly P := by
  induction P with
  | nil => simp
  | cons b P ih =>
    rw [List.map_cons, toPoly_cons, toPoly_cons, ih, M.val_mul, Polynomial.C_mul, List.length_map]
    ring

/-- `pmono` multiplies by c·x^d (R166). -/
theorem toPoly_pmono (P : Poly) (d : Nat) (c : Byte) : M.toPoly (pmono cfg P d c) = C (M.val c) * X ^ d * M.toPoly P := by
  unfold pmono
  split
  · next hzero => rcases hzero with rfl | rfl <;> simp
  · simp only [fieldMul_comm cfg _ c]
    rw [toPoly_trim, toPoly_append_zeros, toPoly_map_mul]
    ring

theorem toPoly_mulRaw (P Q : Poly) : M.toPoly (mulRaw cfg P Q) = M.toPoly P * M.toPoly Q := by
  induction P with
  | nil => simp [mulRaw]
  | cons p P ih =>
    rw [mulRaw, toPoly_addAligned, toPoly_append_zeros, toPoly_map_mul, ih, toPoly_cons]
    ring

/-- `pmul` is the product (R166). -/
theorem toPoly_pmul (P Q : Poly) : M.toPoly (pmul cfg P Q) = M.toPoly P * M.toPoly Q := by
  unfold pmul
  split
  · next hzero => rcases hzero with rfl | rfl <;> simp
  · rw [toPoly_trim, toPoly_mulRaw]

/-- Horner's rule gives the polynomial's value. -/
theorem val_evalPoly (P : Poly) (x : Byte) : M.val (evalPoly cfg P x) = (M.toPoly P).eval (M.val x) := by
  induction P using List.reverseRecOn with
  | nil => simp [evalPoly]
  | append_singleton P a ih =>
    rw [evalPoly, List.foldl_append, ← evalPoly, List.foldl_cons, List.foldl_nil, M.val_add, M.val_mul, ih,
      toPoly_append_singleton]
    simp

theorem evalPoly_eq_zero_iff {P : Poly} {x : Byte} : evalPoly cfg P x = 0#8 ↔ (M.toPoly P).eval (M.val x) = 0 := by
  rw [← val_evalPoly, ← M.val_zero, M.val_injective.eq_iff]

/-! ### A list from its polynomial -/

theorem degree_toPoly_lt (P : Poly) : (M.toPoly P).degree < P.length := by
  induction P with
  | nil => simp
  | cons a P ih =>
    rw [toPoly_cons, List.length_cons]
    refine (Polynomial.degree_add_le _ _).trans_lt (max_lt ?_ (ih.trans (by exact_mod_cast Nat.lt_succ_self _)))
    exact (Polynomial.degree_C_mul_X_pow_le _ _).trans_lt (by exact_mod_cast Nat.lt_succ_self _)

theorem coeff_toPoly_cons (a : Byte) (P : Poly) : (M.toPoly (a :: P)).coeff P.length = M.val a := by
  rw [toPoly_cons, Polynomial.coeff_add, Polynomial.coeff_C_mul_X_pow, if_pos rfl,
    Polynomial.coeff_eq_zero_of_degree_lt (M.degree_toPoly_lt P), add_zero]

/-- Lists of one length with the same polynomial are equal. -/
theorem eq_of_toPoly_eq : ∀ {P Q : Poly}, P.length = Q.length → M.toPoly P = M.toPoly Q → P = Q
  | [], [], _, _ => rfl
  | a :: P, b :: Q, hlen, h => by
    rw [List.length_cons, List.length_cons, Nat.add_right_cancel_iff] at hlen
    obtain rfl : a = b := M.val_injective (by rw [← M.coeff_toPoly_cons a P, h, hlen, coeff_toPoly_cons])
    rw [toPoly_cons, toPoly_cons, hlen, add_right_inj] at h
    rw [eq_of_toPoly_eq hlen h]

end FieldModel

/-- A trimmed list other than `[0]` leads with a nonzero coefficient (R165). -/
theorem head_ne_zero_of_trimmed {a : Byte} {P : Poly} (htrim : trim (a :: P) = a :: P) (hne : a :: P ≠ [0#8]) : a ≠ 0#8 := by
  have hcases := trim_cases (a :: P)
  rw [htrim] at hcases
  exact hcases.resolve_left hne

theorem trim_zeros_append (n : Nat) (P : Poly) : trim (List.replicate n 0#8 ++ P) = trim P := by
  induction n with
  | zero => rfl
  | succ n ih =>
    rw [List.replicate_succ, List.cons_append]
    cases hl : List.replicate n 0#8 ++ P with
    | nil => rw [(List.append_eq_nil_iff.1 hl).2]; rfl
    | cons b l => rw [trim, if_pos rfl, ← hl, ih]

/-- Lists with the same polynomial are equal once trimmed (R165): with zeros before them they have one length. -/
theorem FieldModel.trim_eq_trim {cfg : Config} {F : Type} [CommRing F] (M : FieldModel cfg F) {P Q : Poly}
    (h : M.toPoly P = M.toPoly Q) : trim P = trim Q := by
  have hpad : List.replicate (Q.length - P.length) 0#8 ++ P = List.replicate (P.length - Q.length) 0#8 ++ Q :=
    M.eq_of_toPoly_eq (by simp only [List.length_append, List.length_replicate]; omega)
      (by rw [M.toPoly_zeros_append, M.toPoly_zeros_append, h])
  rw [← trim_zeros_append (Q.length - P.length) P, hpad, trim_zeros_append]

/-! ### Division (R166, R168) -/

section Division

variable {cfg : Config}

/-- Each turn of the division keeps Q·D + R: it adds the same multiple of D to both parts. -/
theorem FieldModel.toPoly_divLoop {F : Type} [CommRing F] (M : FieldModel cfg F) (D : Poly) (s : Byte) (fuel : Nat) (Q R : Poly) :
    M.toPoly (divLoop cfg D s fuel Q R).1 * M.toPoly D + M.toPoly (divLoop cfg D s fuel Q R).2 =
      M.toPoly Q * M.toPoly D + M.toPoly R := by
  induction fuel generalizing Q R with
  | zero => rfl
  | succ fuel ih =>
    rw [divLoop]
    split
    · rw [ih, M.toPoly_padd, M.toPoly_padd, M.toPoly_pmono, M.toPoly_pmono, M.toPoly_one]
      linear_combination (X ^ (degree R - degree D) * M.toPoly D) * M.C_val_add_self (fieldMul cfg (lead R) s)
    · rfl

/-- The dividend is quotient times divisor plus remainder (R168). -/
theorem FieldModel.toPoly_pdivmod {F : Type} [CommRing F] (M : FieldModel cfg F) (A D : Poly) :
    M.toPoly (pdivmod cfg A D).1 * M.toPoly D + M.toPoly (pdivmod cfg A D).2 = M.toPoly A := by
  rw [pdivmod, M.toPoly_divLoop, M.toPoly_trim, M.toPoly_zero_cons, M.toPoly_nil, zero_mul, zero_add]

/-- One turn of the division cancels the leading coefficient of the remainder (R166). -/
theorem divTurn_shortens {d r t : Byte} {g R : Poly} (hr : r ≠ 0#8) (ht : fieldMul cfg d t = r) (hle : g.length ≤ R.length) :
    padd (r :: R) (pmono cfg (d :: g) (R.length - g.length) t) = [0#8] ∨
      (padd (r :: R) (pmono cfg (d :: g) (R.length - g.length) t)).length ≤ R.length := by
  have hfactors : ¬ (t = 0#8 ∨ d :: g = [0#8]) := by
    rintro (rfl | hzero)
    · exact hr (by rw [← ht, fieldMul_zero_right])
    · obtain ⟨rfl, -⟩ := List.cons_eq_cons.1 hzero
      exact hr (by rw [← ht, fieldMul_zero_left])
  obtain ⟨S, hsum, hS⟩ : ∃ S : Poly,
      padd (r :: R) (pmono cfg (d :: g) (R.length - g.length) t) = trim (0#8 :: S) ∧ S.length = R.length := by
    rw [padd, pmono, if_neg hfactors, List.map_cons, ht, List.cons_append, trim_of_head (P := r :: _) hr,
      addAligned_cons_cons _ _ (by simp; omega), fieldAdd, BitVec.xor_self]
    exact ⟨_, rfl, by simp; omega⟩
  rw [hsum, ← hS]
  cases S with
  | nil => exact .inl rfl
  | cons b S => exact .inr (trim_zero_cons_length_le (List.cons_ne_nil b S))

variable (h : legalConfig cfg = true)
include h

theorem fieldMul_inverse {d : Byte} (hd : d ≠ 0#8) : fieldMul cfg d ((fieldInv cfg d).getD 0#8) = 1#8 := by
  obtain ⟨i, hi, rfl⟩ := exists_fieldExp h hd
  rw [fieldInv_fieldExp h hi, Option.getD_some, fieldMul_fieldExp_inverse h hi]

/-- With fuel for every turn, the division by `d :: g` ends with `[0]` or with fewer coefficients than the divisor. -/
theorem divLoop_remainder {d s : Byte} (hs : fieldMul cfg d s = 1#8) (g : Poly) (fuel : Nat) (Q R : Poly) (hR : trim R = R)
    (hlen : R = [0#8] ∨ R.length ≤ fuel + g.length) :
    (divLoop cfg (d :: g) s fuel Q R).2 ≠ [] ∧
      ((divLoop cfg (d :: g) s fuel Q R).2 = [0#8] ∨ (divLoop cfg (d :: g) s fuel Q R).2.length ≤ g.length) := by
  have hne : R ≠ [] := hR ▸ trim_ne_nil R
  induction fuel generalizing Q R with
  | zero => exact ⟨hne, by simpa [divLoop] using hlen⟩
  | succ fuel ih =>
    obtain ⟨r, R, rfl⟩ := List.exists_cons_of_ne_nil hne
    by_cases hturn : r :: R ≠ [0#8] ∧ degree (d :: g) ≤ degree (r :: R)
    · obtain ⟨hnz, hdeg⟩ := hturn
      have hr : r ≠ 0#8 := head_ne_zero_of_trimmed hR hnz
      have ht : fieldMul cfg d (fieldMul cfg r s) = r := by
        rw [fieldMul_comm cfg r s, ← fieldMul_assoc h, hs, fieldMul_one_left h]
      have hle : g.length ≤ R.length := by simpa [degree] using hdeg
      have hbound : R.length ≤ fuel + g.length := by
        have := hlen.resolve_left hnz
        rw [List.length_cons] at this
        omega
      rw [divLoop, if_pos ⟨hnz, hdeg⟩]
      exact ih _ _ (trim_padd _ _) ((divTurn_shortens hr ht hle).imp_right hbound.trans') (trim_ne_nil _)
    · rw [divLoop, if_neg hturn]
      refine ⟨hne, or_iff_not_imp_left.2 fun hnz => ?_⟩
      have hlt : R.length < g.length := by simpa [hnz, degree] using hturn
      exact hlt

/-- The remainder of the division by `d :: g` is `[0]` or has fewer coefficients than the divisor (R168). -/
theorem pdivmod_remainder {d : Byte} (hd : d ≠ 0#8) (A g : Poly) :
    (pdivmod cfg A (d :: g)).2 ≠ [] ∧
      ((pdivmod cfg A (d :: g)).2 = [0#8] ∨ (pdivmod cfg A (d :: g)).2.length ≤ g.length) :=
  divLoop_remainder h (fieldMul_inverse h hd) g _ _ _ (trim_trim A) (.inr (Nat.le_add_right _ _))

end Division

/-- Settles O28: both sides are trimmed and stand for one polynomial, and each turn cancels the remainder's leading coefficient. -/
theorem divisionGivesQuotientAndRemainder : Obligations.DivisionGivesQuotientAndRemainder := by
  intro cfg h A D htrim hne QR
  obtain ⟨F, _, ⟨M⟩⟩ := exists_fieldModel h
  refine ⟨M.trim_eq_trim ?_, ?_⟩
  · rw [M.toPoly_addAligned, M.toPoly_pmul, M.toPoly_pdivmod]
  · obtain ⟨d, g, rfl⟩ := List.exists_cons_of_ne_nil (htrim ▸ trim_ne_nil D)
    have hd : d ≠ 0#8 := head_ne_zero_of_trimmed htrim hne
    obtain ⟨hnil, hshort⟩ := pdivmod_remainder h hd A g
    refine hshort.imp_right fun hle => ?_
    exact (Nat.sub_one_lt (List.length_pos_iff.2 hnil).ne').trans_le hle

end Sys2Proof.Machine
end

section
/-! SUPPORT. The generator (R167), the parity of a message as a remainder (R175), the codeword it completes (R178), and the
shift-register form (R169). -/

namespace Sys2Proof.Machine

open scoped Polynomial
open Polynomial (X C)

/-! ### The generator (R167) -/

/-- A product leads with the product of the leading coefficients (R166). -/
theorem mulRaw_cons_cons (c : Config) (p q : Byte) (P Q : Poly) :
    ∃ R : Poly, mulRaw c (p :: P) (q :: Q) = fieldMul c p q :: R ∧ R.length = P.length + Q.length := by
  obtain ⟨R, hR⟩ : ∃ R : Poly, mulRaw c (p :: P) (q :: Q) = fieldMul c p q :: R := by
    rw [mulRaw, List.map_cons, List.cons_append, addAligned_cons_left]
    · exact ⟨_, rfl⟩
    · simpa [Nat.add_comm] using mulRaw_length_le c P q Q
  have hlen := mulRaw_cons_length c p P (q :: Q)
  rw [hR, List.length_cons, List.length_cons] at hlen
  exact ⟨R, hR, by omega⟩

/-- On every build, EXP[0] = 1 makes 1 ⊗ 1 = 1 (R141, R146). -/
theorem fieldMul_one_one (c : Config) : fieldMul c 1#8 1#8 = 1#8 := by
  have hlog : fieldLog c 1#8 = some 0 := rfl
  exact fieldMul_of_logs hlog hlog

/-- `gen(n)` is monic with n + 1 coefficients on every build, the ones R8 does not allow included (R167). -/
theorem gen_eq_one_cons (c : Config) (n : Nat) : ∃ g : Poly, gen c n = 1#8 :: g ∧ g.length = n := by
  induction n with
  | zero => exact ⟨[], rfl, rfl⟩
  | succ n ih =>
    obtain ⟨g, hg, hlen⟩ := ih
    obtain ⟨R, hR, hRlen⟩ := mulRaw_cons_cons c 1#8 1#8 g [alphaPow c (c.genBase.toNat + n)]
    rw [fieldMul_one_one] at hR
    refine ⟨R, ?_, by simpa [hlen] using hRlen⟩
    rw [gen_succ, hg, pmul, if_neg (by simp), hR, trim_of_head (P := 1#8 :: R) (by simp)]

/-! ### The shift register's length -/

theorem length_shiftTurn (cfg : Config) {g reg : Poly} (hlen : reg.length = g.length) (a : Byte) :
    (shiftTurn cfg g reg a).length = g.length := by
  simp only [shiftTurn, List.length_zipWith, List.length_append, List.length_tail, List.length_singleton]
  omega

theorem shiftParity_append (cfg : Config) (m : List Byte) (a : Byte) (n : Nat) :
    shiftParity cfg (m ++ [a]) n = shiftTurn cfg (gen cfg n).tail (shiftParity cfg m n) a := by
  rw [shiftParity, List.foldl_append]; rfl

/-- The register has `n` stages (R169). -/
theorem length_shiftParity (cfg : Config) (m : List Byte) (n : Nat) : (shiftParity cfg m n).length = n := by
  induction m using List.reverseRecOn with
  | nil => exact List.length_replicate
  | append_singleton m a ih =>
    obtain ⟨g, hg, hlen⟩ := gen_eq_one_cons cfg n
    rw [shiftParity_append, hg, List.tail_cons, length_shiftTurn cfg (ih.trans hlen.symm), hlen]

section Model

variable {cfg : Config} {F : Type} [CommRing F] (M : FieldModel cfg F)

namespace FieldModel

theorem toPoly_one_cons (g : Poly) : M.toPoly (1#8 :: g) = X ^ g.length + M.toPoly g := by
  rw [toPoly_cons, M.val_one, Polynomial.C_1, one_mul]

/-- Each factor of the generator is 0 at its root (R167). -/
theorem eval_toPoly_gen_succ (n : Nat) (x : Byte) :
    (M.toPoly (gen cfg (n + 1))).eval (M.val x) =
      (M.toPoly (gen cfg n)).eval (M.val x) * (M.val x + M.val (alphaPow cfg (cfg.genBase.toNat + n))) := by
  rw [gen_succ, toPoly_pmul, Polynomial.eval_mul, toPoly_one_cons]
  simp [toPoly_cons]

/-- `gen(n)` is 0 at α^(b+i) for every i below n (R167). -/
theorem eval_toPoly_gen {n i : Nat} (hi : i < n) :
    (M.toPoly (gen cfg n)).eval (M.val (alphaPow cfg (cfg.genBase.toNat + i))) = 0 := by
  induction n with
  | zero => exact absurd hi (Nat.not_lt_zero i)
  | succ n ih =>
    rw [eval_toPoly_gen_succ]
    rcases Nat.lt_succ_iff_lt_or_eq.1 hi with hlt | rfl
    · rw [ih hlt, zero_mul]
    · rw [M.val_add_self, val_zero, mul_zero]

/-- A list shorter than a monic divisor that differs from the dividend by a multiple of the divisor is the remainder. -/
theorem toPoly_eq_modByMonic {A q : F[X]} {g R : Poly} (hlen : R.length = g.length)
    (hA : A = q * M.toPoly (1#8 :: g) + M.toPoly R) : M.toPoly R = A %ₘ M.toPoly (1#8 :: g) := by
  have := M.nontrivial
  have hR : (M.toPoly R).degree < g.length := hlen ▸ M.degree_toPoly_lt R
  have hdeg : (M.toPoly (1#8 :: g)).degree = g.length := by
    rw [toPoly_one_cons, Polynomial.degree_add_eq_left_of_degree_lt] <;> rw [Polynomial.degree_X_pow]
    exact M.degree_toPoly_lt g
  have hmonic : (M.toPoly (1#8 :: g)).Monic := by
    rw [toPoly_one_cons]
    exact Polynomial.monic_X_pow_add (M.degree_toPoly_lt g)
  exact (Polynomial.div_modByMonic_unique q _ hmonic ⟨by rw [hA]; ring, hR.trans_eq hdeg.symm⟩).2.symm

/-! ### The parity (R175) -/

/-- The message times x^n is a multiple of the generator plus the parity (R168, R175). -/
theorem exists_toPoly_parity (m : List Byte) (n : Nat) :
    ∃ q, M.toPoly m * X ^ n = q * M.toPoly (gen cfg n) + M.toPoly (parity cfg m n) := by
  have hdivision := M.toPoly_pdivmod (pmono cfg (trim m) n 1#8) (gen cfg n)
  rw [toPoly_pmono, toPoly_trim, M.val_one, Polynomial.C_1, one_mul, mul_comm (X ^ n)] at hdivision
  exact ⟨_, by rw [parity, toPoly_padLeft, ← hdivision]⟩

/-! ### The shift register (R169) -/

/-- One turn multiplies the register by x, takes in the next symbol at x^n, and reduces by a multiple of the generator. -/
theorem toPoly_shiftTurn {g reg : Poly} (hg : g ≠ []) (hlen : reg.length = g.length) (a : Byte) :
    ∃ f : Byte, C (M.val a) * X ^ g.length + M.toPoly reg * X =
      C (M.val f) * M.toPoly (1#8 :: g) + M.toPoly (shiftTurn cfg g reg a) := by
  obtain ⟨r, reg, rfl⟩ := List.exists_cons_of_ne_nil (List.ne_nil_of_length_pos (hlen ▸ List.length_pos_iff.2 hg))
  refine ⟨fieldAdd a r, ?_⟩
  have hturn : shiftTurn cfg g (r :: reg) a =
      List.zipWith fieldAdd (reg ++ [0#8]) (g.map (fieldMul cfg (fieldAdd a r))) := by
    rw [List.zipWith_map_right]
    simp only [shiftTurn, List.headD_cons, List.tail_cons, fieldMul_comm cfg _ (fieldAdd a r)]
  have hsplit : M.toPoly (reg ++ [0#8]) = M.toPoly reg * X := by simp [toPoly_append_singleton]
  rw [hturn, toPoly_zipWith_add M (by simpa using hlen), hsplit, toPoly_map_mul, toPoly_cons, toPoly_one_cons, ← hlen,
    M.val_add, Polynomial.C_add, List.length_cons]
  linear_combination (-M.toPoly g) * (M.C_val_add_self a + M.C_val_add_self r)

/-- The message times x^n is a multiple of the generator plus the register's final contents (R169). -/
theorem exists_toPoly_shiftParity (m : List Byte) {n : Nat} (hn : 1 ≤ n) :
    ∃ q, M.toPoly m * X ^ n = q * M.toPoly (gen cfg n) + M.toPoly (shiftParity cfg m n) := by
  obtain ⟨g, hg, rfl⟩ := gen_eq_one_cons cfg n
  have hne : g ≠ [] := List.length_pos_iff.1 hn
  induction m using List.reverseRecOn with
  | nil => exact ⟨0, by simp [shiftParity]⟩
  | append_singleton m a ih =>
    obtain ⟨q, hq⟩ := ih
    obtain ⟨f, hf⟩ := M.toPoly_shiftTurn hne (length_shiftParity cfg m g.length) a
    refine ⟨q * X + C (M.val f), ?_⟩
    rw [shiftParity_append, toPoly_append_singleton, hg, List.tail_cons]
    rw [hg] at hq
    linear_combination X * hq + hf

end FieldModel

end Model

/-- The message followed by its parity is 0 at the roots of the generator (R178). -/
theorem evalPoly_codeword {cfg : Config} (h : legalConfig cfg = true) (m : List Byte) {n i : Nat} (hi : i < n) :
    evalPoly cfg (m ++ parity cfg m n) (alphaPow cfg (cfg.genBase.toNat + i)) = 0#8 := by
  obtain ⟨F, _, ⟨M⟩⟩ := exists_fieldModel h
  obtain ⟨q, hq⟩ := M.exists_toPoly_parity m n
  have hroot := M.eval_toPoly_gen hi
  have hchar : M.toPoly (parity cfg m n) + M.toPoly (parity cfg m n) = 0 := M.toPoly_add_self _
  have hcode : M.toPoly (m ++ parity cfg m n) = q * M.toPoly (gen cfg n) := by
    rw [M.toPoly_append, parity_length h m (by omega), hq, add_assoc, hchar, add_zero]
  rw [M.evalPoly_eq_zero_iff, hcode, Polynomial.eval_mul, hroot, mul_zero]

/-! ### The obligations on the polynomials -/

/-- Settles O27: the length and the first coefficient by induction on n, the roots from the factors. -/
theorem generatorIsMonicWithItsRoots : Obligations.GeneratorIsMonicWithItsRoots := by
  intro cfg h b
  obtain ⟨F, _, ⟨M⟩⟩ := exists_fieldModel h
  refine ⟨gen_zero cfg, fun n => ?_⟩
  obtain ⟨g, hg, -⟩ := gen_eq_one_cons cfg n
  exact ⟨gen_succ cfg n, gen_length h n, by rw [hg]; rfl, fun i hi => M.evalPoly_eq_zero_iff.2 (M.eval_toPoly_gen hi)⟩

/-- Settles O29: both are the remainder by the monic generator, which is unique, written with n coefficients. -/
theorem shiftRegisterGivesTheParity : Obligations.ShiftRegisterGivesTheParity := by
  intro cfg h m n _ hn
  obtain ⟨F, _, ⟨M⟩⟩ := exists_fieldModel h
  obtain ⟨g, hg, hlen⟩ := gen_eq_one_cons cfg n
  obtain ⟨q, hq⟩ := M.exists_toPoly_shiftParity m hn
  obtain ⟨q', hq'⟩ := M.exists_toPoly_parity m n
  have hlenShift := length_shiftParity cfg m n
  have hlenParity := parity_length h m hn
  rw [hg] at hq hq'
  refine M.eq_of_toPoly_eq (hlenShift.trans hlenParity.symm) ?_
  rw [M.toPoly_eq_modByMonic (hlenShift.trans hlen.symm) hq, M.toPoly_eq_modByMonic (hlenParity.trans hlen.symm) hq']

end Sys2Proof.Machine
end

section
/-! SUPPORT. The Reed–Solomon commands (43_rs.md): their checks on both sides, and what each writes to SYM. -/

namespace Sys2Proof.Machine

theorem symAddr_injective : Function.Injective symAddr := fun i j h => by unfold symAddr at h; omega

/-! ### The parity, coefficient by coefficient (R175) -/

theorem getElem?_padLeft_of_lt {n j : Nat} {R : Poly} (hj : j < n - R.length) : (padLeft n R)[j]? = some 0#8 := by
  rw [padLeft, List.getElem?_append_left (by simpa using hj), List.getElem?_replicate_of_lt hj]

theorem getElem?_padLeft_of_ge {n j : Nat} {R : Poly} (hj : n - R.length ≤ j) : (padLeft n R)[j]? = R[j - (n - R.length)]? := by
  rw [padLeft, List.getElem?_append_right (by simpa using hj), List.length_replicate]

/-- The remainder by `gen(n)` has between 1 and n coefficients (R175). -/
theorem remainder_gen_length {cfg : Config} (h : legalConfig cfg = true) (A : Poly) {n : Nat} (hn : n ≠ 0) :
    1 ≤ (pdivmod cfg A (gen cfg n)).2.length ∧ (pdivmod cfg A (gen cfg n)).2.length ≤ n := by
  obtain ⟨g, hg, hlen⟩ := gen_eq_one_cons cfg n
  obtain ⟨hnil, hshort⟩ := pdivmod_remainder h (d := 1#8) (by decide) A g
  rw [hg]
  refine ⟨List.length_pos_iff.2 hnil, ?_⟩
  rcases hshort with hzero | hle
  · rw [hzero]
    exact Nat.one_le_iff_ne_zero.2 hn
  · exact hlen ▸ hle

/-! ### The checks -/

/-- The checks that RS.ENC and RS.GEN share, in their order (R175, R177): the EC count, then the last index written. -/
def ecChecks (n last : Nat) (k : Except CmdError State) : Except CmdError State :=
  require (n != 0) .rsNoEc <|
    require (decide (n ≤ Config.fieldSize)) .rsEcTooLarge <|
      require (decide (last ≤ Config.symDepth)) .rsRange k

section Checks

variable {n last : Nat} {k : Except CmdError State}

theorem ecChecks_of_zero (hn : n = 0) : ecChecks n last k = .error .rsNoEc := by
  rw [ecChecks, bne_eq_false_iff_eq.2 hn, require_false]

theorem ecChecks_of_large (hn : 256 < n) : ecChecks n last k = .error .rsEcTooLarge := by
  have hmax : ¬ n ≤ Config.fieldSize := Nat.not_le.2 hn
  rw [ecChecks, bne_iff_ne.2 (Nat.zero_lt_of_lt hn).ne', decide_eq_false hmax, require_true, require_false]

theorem ecChecks_of_outside (hn : n ≠ 0) (hmax : n ≤ 256) (hlast : 256 < last) : ecChecks n last k = .error .rsRange := by
  have hrange : ¬ last ≤ Config.symDepth := Nat.not_le.2 hlast
  rw [ecChecks, bne_iff_ne.2 hn, decide_eq_true (show n ≤ Config.fieldSize from hmax), decide_eq_false hrange, require_true,
    require_true, require_false]

theorem ecChecks_of_fits (hn : n ≠ 0) (hmax : n ≤ 256) (hlast : last ≤ 256) : ecChecks n last k = k := by
  rw [ecChecks, bne_iff_ne.2 hn, decide_eq_true (show n ≤ Config.fieldSize from hmax),
    decide_eq_true (show last ≤ Config.symDepth from hlast), require_true, require_true, require_true]

end Checks

/-- RS.ENC, its checks and its writes (R175). -/
theorem exec_rsEnc (s : State) : exec .rsEnc s = s.runCommand fun A =>
    require (A.a0.toNat != 0) .rsNoData <|
      ecChecks A.a1.toNat (A.a2.toNat + A.a0.toNat + A.a1.toNat) <|
        .ok { s.writeSyms (A.a2.toNat + A.a0.toNat) (parity s.build (s.message A.a2.toNat A.a0.toNat) A.a1.toNat) with
          draws := s.draws + A.a0.toNat } := rfl

/-- RS.GEN, its checks and its writes (R177). -/
theorem exec_rsGen (s : State) : exec .rsGen s = s.runCommand fun A =>
    ecChecks A.a1.toNat (A.a2.toNat + A.a1.toNat + 1) <| .ok (s.writeSyms A.a2.toNat (gen s.build A.a1.toNat)) := rfl

section Completions

variable {s : State} {c : Command} (hc : s.pending = some c)
include hc

theorem exec_rsEnc_of_fits (hk : c.args.a0.toNat ≠ 0) (hn : c.args.a1.toNat ≠ 0)
    (hfits : c.args.a2.toNat + c.args.a0.toNat + c.args.a1.toNat ≤ 256) :
    exec .rsEnc s = .next { s with
      mem := s.mem.writeSyms (c.args.a2.toNat + c.args.a0.toNat)
        (parity s.build (s.message c.args.a2.toNat c.args.a0.toNat) c.args.a1.toNat)
      draws := s.draws + c.args.a0.toNat, pending := none, done := true } := by
  rw [exec_rsEnc, runCommand_eq hc, bne_iff_ne.2 hk, require_true, ecChecks_of_fits hn (by omega) hfits]
  dsimp only [State.completeOk, State.writeSyms]

theorem exec_rsEnc_of_noData (hk : c.args.a0.toNat = 0) : exec .rsEnc s = .next (s.completeErr .rsNoData) := by
  rw [exec_rsEnc, runCommand_eq hc, bne_eq_false_iff_eq.2 hk, require_false]

/-- RS.ENC that passes its first check answers as the shared checks do (R175). -/
theorem exec_rsEnc_of_error (hk : c.args.a0.toNat ≠ 0) {e : CmdError}
    (he : ∀ k, ecChecks c.args.a1.toNat (c.args.a2.toNat + c.args.a0.toNat + c.args.a1.toNat) k = .error e) :
    exec .rsEnc s = .next (s.completeErr e) := by
  rw [exec_rsEnc, runCommand_eq hc, bne_iff_ne.2 hk, require_true, he]

theorem exec_rsGen_of_fits (hn : c.args.a1.toNat ≠ 0) (hfits : c.args.a2.toNat + c.args.a1.toNat + 1 ≤ 256) :
    exec .rsGen s = .next { s with
      mem := s.mem.writeSyms c.args.a2.toNat (gen s.build c.args.a1.toNat), pending := none, done := true } := by
  rw [exec_rsGen, runCommand_eq hc, ecChecks_of_fits hn (by omega) hfits]
  dsimp only [State.completeOk, State.writeSyms]

theorem exec_rsGen_of_error {e : CmdError}
    (he : ∀ k, ecChecks c.args.a1.toNat (c.args.a2.toNat + c.args.a1.toNat + 1) k = .error e) :
    exec .rsGen s = .next (s.completeErr e) := by
  rw [exec_rsGen, runCommand_error hc (he _)]

/-- What RS.ENC leaves in storage when its checks pass: the n parity symbols, and every other byte as before (R175). -/
theorem exec_rsEnc_spec (hwf : s.mem.wf = true) (hlegal : legalConfig s.build = true) {k n base : Nat}
    (hargs : c.args.a0.toNat = k ∧ c.args.a1.toNat = n ∧ c.args.a2.toNat = base) (hk : k ≠ 0) (hn : n ≠ 0)
    (hfits : base + k + n ≤ 256) :
    ∃ mem', exec .rsEnc s = .next { s with mem := mem', draws := s.draws + k, pending := none, done := true } ∧
      (∀ j, j < n → mem'.byteAt (symAddr (base + k + j)) = (parity s.build (s.message base k) n)[j]?) ∧
      ∀ a, (∀ j, j < n → a ≠ symAddr (base + k + j)) → mem'.byteAt a = s.mem.byteAt a := by
  obtain ⟨rfl, rfl, rfl⟩ := hargs
  have hlen := parity_length hlegal (s.message c.args.a2.toNat c.args.a0.toNat) (Nat.one_le_iff_ne_zero.2 hn)
  obtain ⟨-, hsym, hother⟩ := writeSyms_spec (j := c.args.a2.toNat + c.args.a0.toNat) hwf (hlen.symm ▸ hfits)
  refine ⟨_, exec_rsEnc_of_fits hc hk hn hfits, fun j hj => ?_, fun a ha => hother a fun j hj => ha j (hlen ▸ hj)⟩
  exact (hsym j (hlen.symm ▸ hj)).trans (List.getElem?_eq_getElem _).symm

/-- What RS.GEN leaves in storage when its checks pass: the n + 1 coefficients, and every other byte as before (R177). -/
theorem exec_rsGen_spec (hwf : s.mem.wf = true) {n base : Nat} (hargs : c.args.a1.toNat = n ∧ c.args.a2.toNat = base)
    (hn : n ≠ 0) (hfits : base + n + 1 ≤ 256) :
    ∃ mem', exec .rsGen s = .next { s with mem := mem', pending := none, done := true } ∧
      (∀ j, j ≤ n → ∃ g, (gen s.build n)[j]? = some g ∧ mem'.byteAt (symAddr (base + j)) = some g) ∧
      ∀ a, (∀ j, j ≤ n → a ≠ symAddr (base + j)) → mem'.byteAt a = s.mem.byteAt a := by
  obtain ⟨rfl, rfl⟩ := hargs
  obtain ⟨g, hg, hglen⟩ := gen_eq_one_cons s.build c.args.a1.toNat
  have hlen : (gen s.build c.args.a1.toNat).length = c.args.a1.toNat + 1 := by rw [hg, List.length_cons, hglen]
  obtain ⟨-, hsym, hother⟩ := writeSyms_spec (l := gen s.build c.args.a1.toNat) (j := c.args.a2.toNat) hwf (by omega)
  refine ⟨_, exec_rsGen_of_fits hc hn hfits, fun j hj => ?_, fun a ha => hother a fun j hj => ha j (by omega)⟩
  have hj : j < (gen s.build c.args.a1.toNat).length := by omega
  exact ⟨_, List.getElem?_eq_getElem hj, hsym j hj⟩

end Completions

/-! ### The obligations on the commands -/

/-- Settles O23: the parity is the remainder behind n - L zeros. -/
theorem rsEncWritesTheRemainder : Obligations.RsEncWritesTheRemainder := by
  intro s c hc hwf hlegal k n base m R hk hn _ hfits
  obtain ⟨mem', hexec, hsym, hother⟩ := exec_rsEnc_spec hc hwf hlegal ⟨rfl, rfl, rfl⟩ hk hn hfits
  obtain ⟨hpos, hle⟩ := remainder_gen_length hlegal (pmono s.build (trim m) n 1) hn
  exact ⟨hpos, hle, mem', hexec, fun j hj => (hsym j (hj.trans_le (Nat.sub_le _ _))).trans (getElem?_padLeft_of_lt hj),
    fun j hj hjn => (hsym j hjn).trans (getElem?_padLeft_of_ge hj), hother⟩

/-- Settles O24: each failing check, with those before it passed. -/
theorem rsEncChecksInOrder : Obligations.RsEncChecksInOrder := by
  intro s c hc k n base fails
  exact ⟨exec_rsEnc_of_noData hc, fun hk hn => exec_rsEnc_of_error hc hk fun _ => ecChecks_of_zero hn,
    fun hk hn => exec_rsEnc_of_error hc hk fun _ => ecChecks_of_large hn,
    fun hk hn hmax hlast => exec_rsEnc_of_error hc hk fun _ => ecChecks_of_outside hn hmax hlast⟩

/-- Settles O25: the k + n symbols are the message and its parity, a codeword. -/
theorem rsEncMakesCodewords : Obligations.RsEncMakesCodewords := by
  intro s t c hc hwf hlegal k n base hk hn hfits hvalues ht cw i hi
  obtain ⟨mem', hexec, hsym, hother⟩ := exec_rsEnc_spec hc hwf hlegal ⟨rfl, rfl, rfl⟩ hk hn hfits
  obtain rfl := Host.Outcome.next.inj (ht.symm.trans hexec)
  have hmessage : (List.range k).map (fun i => (mem'.byteAt (symAddr (base + i))).getD 0) = s.message base k := by
    refine List.map_congr_left fun j hj => ?_
    have hj : j < k := List.mem_range.1 hj
    obtain ⟨v, hv⟩ := Option.ne_none_iff_exists'.1 (hvalues j hj)
    rw [hother _ fun j' _ => symAddr_injective.ne (by omega), State.symbol, hv, Option.getD_some, Option.getD_some]
  have hparity : (List.range n).map (fun j => (mem'.byteAt (symAddr (base + (k + j)))).getD 0) =
      parity s.build (s.message base k) n := by
    have hlen := parity_length hlegal (s.message base k) (Nat.one_le_iff_ne_zero.2 hn)
    refine List.ext_getElem (by simpa using hlen.symm) fun j _ hj => ?_
    rw [List.getElem_map, List.getElem_range, ← Nat.add_assoc, hsym j (hj.trans_eq hlen), List.getElem?_eq_getElem hj,
      Option.getD_some]
  have hcw : cw = s.message base k ++ parity s.build (s.message base k) n := by
    rw [← hparity, ← hmessage]
    simp only [cw, List.range_add, List.map_append, List.map_map]
    rfl
  rw [hcw]
  exact evalPoly_codeword hlegal _ hi

/-- Settles O26: the generator has n + 1 coefficients on every build; each failing check, with those before it passed. -/
theorem rsGenWritesTheGenerator : Obligations.RsGenWritesTheGenerator := by
  refine ⟨rfl, ?_⟩
  intro s c hc hwf n base fails
  exact ⟨fun hn _ => exec_rsGen_spec hc hwf ⟨rfl, rfl⟩ hn, fun hn => exec_rsGen_of_error hc fun _ => ecChecks_of_zero hn,
    fun hn => exec_rsGen_of_error hc fun _ => ecChecks_of_large hn,
    fun hn hmax hlast => exec_rsGen_of_error hc fun _ => ecChecks_of_outside hn hmax hlast⟩

end Sys2Proof.Machine
end

section
/-! SUPPORT. Hazards and resets (70_reset_and_hazards.md): transactions while BUSY (R226, R227), the two resets (R220, R222, R223),
where a step stops (R221), and which steps change the build, RESULT and the shapes (R19, R229). -/

namespace Sys2Proof.Machine

/-! ### Soft reset -/

/-- A soft reset while `rst` is low: the reset state of the build, but for storage and the model's own fields (R222, log 8). -/
theorem softReset_eq {s : State} (hrst : s.rst = false) :
    s.softReset = { State.resetFor s.build with
      mem := s.softResetMem, draws := s.draws + Config.symDepth, host := s.host, response := s.response } := by
  rw [State.softReset, State.hardReset, hrst]
  rfl

/-- With SRST = 1 a CTRL write is a soft reset and nothing else (R27). -/
theorem writeCtrl_of_srst_set {s : State} {v : Word} (h : v.getLsbD 1 = true) : s.writeCtrl v = s.softReset := by
  rw [State.writeCtrl, if_pos h]

/-- The entries that an aborted command leaves open are the write ranges of RS.ENC and RS.GEN (R223). -/
theorem abortedSym_eq_true {c : Command} {j : Nat} :
    c.abortedSym j = true ↔
      (decode c.word = .ok .rsEnc ∧ c.args.a2.toNat + c.args.a0.toNat ≤ j ∧
          j < c.args.a2.toNat + c.args.a0.toNat + c.args.a1.toNat) ∨
        (decode c.word = .ok .rsGen ∧ c.args.a2.toNat ≤ j ∧ j ≤ c.args.a2.toNat + c.args.a1.toNat) := by
  unfold Command.abortedSym
  split
  · next henc => simp [henc]
  · next hgen => simp [hgen]
  · next henc hgen =>
    refine ⟨nofun, ?_⟩
    rintro (⟨h, -⟩ | ⟨h, -⟩)
    · exact absurd h henc
    · exact absurd h hgen

theorem softResetMem_of_idle {s : State} (h : s.pending = none) : s.softResetMem = s.mem.drop 0x10000 0x10000 := by
  simp only [State.softResetMem, h]

theorem softResetMem_of_pending {s : State} {c : Command} (h : s.pending = some c) :
    s.softResetMem = (s.mem.drop 0x10000 0x10000).drawSyms c.abortedSym s.draws Config.symDepth := by
  simp only [State.softResetMem, h]

/-- The loss of the planes' bytes leaves SYM (R222). -/
theorem byteAt_dropPlanes_sym (m : Memory) {j : Nat} (hj : j < 256) :
    (m.drop 0x10000 0x10000).byteAt (symAddr j) = m.byteAt (symAddr j) := by
  rw [byteAt_drop, if_neg (by unfold symAddr; omega)]

/-- An entry that an aborted command leaves open holds some value after a soft reset (R223). -/
theorem softResetMem_sym_of_aborted {s : State} {c : Command} {j : Nat} (hm : s.mem.wf = true) (hj : j < 256)
    (hc : s.pending = some c) (hhit : c.abortedSym j = true) : ∃ b, s.softResetMem.byteAt (symAddr j) = some b := by
  obtain ⟨-, hdrawn, -⟩ := drawSyms_spec (hit := c.abortedSym) (d := s.draws) (wf_drop hm 0x10000 0x10000) le_rfl
  rw [softResetMem_of_pending hc]
  exact ⟨_, hdrawn j hj hhit⟩

/-- Every other entry is as before a soft reset (R222). -/
theorem softResetMem_sym_of_not_aborted {s : State} {j : Nat} (hm : s.mem.wf = true) (hj : j < 256)
    (hkept : ∀ c, s.pending = some c → ¬ c.abortedSym j = true) :
    s.softResetMem.byteAt (symAddr j) = s.mem.byteAt (symAddr j) := by
  cases hp : s.pending with
  | none => rw [softResetMem_of_idle hp, byteAt_dropPlanes_sym _ hj]
  | some c =>
    obtain ⟨-, -, hother⟩ := drawSyms_spec (hit := c.abortedSym) (d := s.draws) (wf_drop hm 0x10000 0x10000) le_rfl
    rw [softResetMem_of_pending hp, ← byteAt_dropPlanes_sym s.mem hj]
    refine hother _ fun i _ hi => symAddr_injective.ne ?_
    rintro rfl
    exact hkept c hp hi

/-- Settles O54: the CTRL write is a soft reset, and SYM changes only where the aborted command's range is drawn anew. -/
theorem softResetPreservesSym : Obligations.SoftResetPreservesSym := by
  intro s v rest hrst hturn hmem hsrst hhost hit
  have hit_iff (j : Nat) : hit j ↔ ∃ c, s.pending = some c ∧ c.abortedSym j = true := by simp only [hit, abortedSym_eq_true]
  refine ⟨s.softResetMem, s.draws + Config.symDepth, ?_, fun j hj => ⟨fun h => ?_, fun h => ?_⟩⟩
  · rw [step_writeReg (r := .ctrl) hrst hturn hhost, State.writeReg, writeCtrl_of_srst_set hsrst,
      softReset_eq (s := { s with delay := s.delay - 1 }) hrst]
    rfl
  · obtain ⟨c, hc, hc'⟩ := (hit_iff j).1 h
    exact softResetMem_sym_of_aborted hmem hj hc hc'
  · exact softResetMem_sym_of_not_aborted hmem hj fun c hc hc' => h ((hit_iff j).2 ⟨c, hc, hc'⟩)

/-! ### Hardware reset -/

/-- Settles O53: the host's turn takes the assertion of `rst`, which discards the latch with the rest (R220). -/
theorem hardwareResetRestoresTheResetState : Obligations.HardwareResetRestoresTheResetState := by
  intro s rest hturn hhost
  rw [step_host hturn hhost]
  rfl

theorem unlisted_symAddr {j : Nat} (hj : j < 256) : Memory.unlisted (symAddr j) = none := by
  have hcell : isSymCell (symAddr j) = true := by
    simp only [isSymCell, Bool.and_eq_true, decide_eq_true_eq, beq_iff_eq]
    unfold symAddr
    omega
  rw [Memory.unlisted, if_pos hcell]

/-- Every word of an uninitialised plane lies outside its shape (R39, R70). -/
theorem planeWord_uninit (m : Memory) (p : PlaneId) (j : Nat) : m.planeWord Shape.none p j = 0#32 := if_neg (Nat.not_lt_zero j)

/-- Settles O52: the registers by evaluation, SYM and the planes from the empty storage of the reset state. -/
theorem resetLeavesTheResetValues : Obligations.ResetLeavesTheResetValues := by
  refine ⟨fun r k hrk => ?_, rfl, rfl, fun j => unlisted_symAddr, fun p => ?_⟩
  · refine (?_ : ∀ x ∈ _, State.reset.readReg x.1 = x.2) (r, k) hrk
    decide
  have hshape : State.reset.shape p = Shape.none := by cases p <;> rfl
  refine ⟨hshape, fun j => ?_⟩
  rw [hshape]
  exact planeWord_uninit _ p j

/-! ### Transactions while BUSY -/

/-- The offsets of the SYM window and those above the unmapped range lie in SYM or in a plane (R61). -/
theorem windowOf_storage {a : Nat} (h : (0x400 ≤ a ∧ a < 0x800) ∨ 0x10000 ≤ a) :
    (∃ j, windowOf a = .sym j) ∨ ∃ p j, windowOf a = .plane p j := by
  unfold windowOf
  split_ifs
  · omega
  · exact .inl ⟨_, rfl⟩
  · omega
  · exact .inr ⟨_, _, rfl⟩
  · exact .inr ⟨_, _, rfl⟩

theorem eq_regAddr {addr : Offset} {r : Reg} (h : addr.toNat = regOffset r) : addr = BitVec.ofNat 17 (regOffset r) :=
  BitVec.eq_of_toNat_eq (h.trans (toNat_regAddr r).symm)

/-- No register write but CMD's raises BUSYERR (R226). -/
theorem busyErr_of_writeReg {s : State} {r : Reg} {v : Word} (hr : r ≠ .cmd) (h : (s.writeReg r v).busyErr = true) :
    s.busyErr = true := by
  cases r with
  | ctrl =>
    cases hsrst : v.getLsbD 1
    · rwa [State.writeReg, writeCtrl_of_srst_clear hsrst] at h
    · rw [State.writeReg, writeCtrl_of_srst_set hsrst, softReset_busyErr] at h
      cases h
  | status =>
    rw [State.writeReg, writeStatus_busyErr, Bool.and_eq_true] at h
    exact h.1
  | cmd => exact absurd rfl hr
  | arg0 | arg1 | arg2 | arg3 => exact h
  | id | version | errcode | result | param | shape0 | shape1 => exact h

section Busy

variable {s : State} {addr : Offset}
variable (hbusy : s.pending ≠ none)
variable (hstorage : (0x400 ≤ addr.toNat ∧ addr.toNat < 0x800) ∨ 0x10000 ≤ addr.toNat) (hal : addr.toNat % 4 = 0)

include hstorage hal

theorem busLegal_storage : busLegal addr .word = true :=
  busLegal_eq_true.2 ⟨rfl, hal, by omega⟩

include hbusy

/-- A write of a SYM or plane word is dropped while a command is pending (R226). -/
theorem memWrite_storage_of_busy (v : Word) : s.memWrite addr .word v = { s with busyErr := true } := by
  have hbusy : s.busy = true := busy_eq_true.2 (Option.ne_none_iff_exists'.1 hbusy)
  rw [State.memWrite, if_pos (busLegal_storage hstorage hal)]
  obtain ⟨j, hwin⟩ | ⟨p, j, hwin⟩ := windowOf_storage hstorage <;> rw [hwin] <;> exact if_pos hbusy

/-- A read of a SYM or plane word answers a free value while a command is pending, and counts one draw (R227). -/
theorem memRead_storage_of_busy :
    s.memRead addr .word = ({ s with draws := s.draws + 1 }, Config.freeWord s.draws) := by
  have hbusy : s.busy = true := busy_eq_true.2 (Option.ne_none_iff_exists'.1 hbusy)
  rw [State.memRead, if_pos (busLegal_storage hstorage hal)]
  obtain ⟨j, hwin⟩ | ⟨p, j, hwin⟩ := windowOf_storage hstorage <;> rw [hwin] <;> exact if_pos hbusy

end Busy

/-- Settles O50: a write of CMD or of storage is dropped; the other registers take theirs, and none of these raises BUSYERR. -/
theorem writesWhileBusyAreDropped : Obligations.WritesWhileBusyAreDropped := by
  intro s addr v rest hrst hturn hbusy hhost
  refine ⟨fun haddr => ?_, fun r hr => ?_⟩
  · by_cases hcmd : addr.toNat = 0x014
    · obtain rfl := eq_regAddr (r := .cmd) hcmd
      rw [step_writeReg hrst hturn hhost, State.writeReg, writeCmd_of_busy (s := { s with delay := s.delay - 1 }) hbusy]
    · have hstorage : (0x400 ≤ addr.toNat ∧ addr.toNat < 0x800) ∨ 0x10000 ≤ addr.toNat := by omega
      have hal : addr.toNat % 4 = 0 := by omega
      rw [step_writeTransaction hrst hturn hhost, State.writeTransaction,
        memWrite_storage_of_busy (s := { s with delay := s.delay - 1 }) hbusy hstorage hal,
        busResp_legal (busLegal_storage hstorage hal)]
  · have hreg : addr.toNat = regOffset r ∧ r ≠ .cmd := by
      simp only [List.mem_cons, List.not_mem_nil, or_false, Prod.mk.injEq] at hr
      rcases hr with ⟨h, rfl⟩ | ⟨h, rfl⟩ | ⟨h, rfl⟩ | ⟨h, rfl⟩ | ⟨h, rfl⟩ | ⟨h, rfl⟩ <;> exact ⟨h, by decide⟩
    obtain ⟨haddr, hne⟩ := hreg
    obtain rfl := eq_regAddr haddr
    exact ⟨busyErr_of_writeReg hne, step_writeReg hrst hturn hhost⟩

/-- Settles O51: a read of storage is a draw; a register read does not look at the latch. -/
theorem readsWhileBusyAreOpen : Obligations.ReadsWhileBusyAreOpen := by
  intro s addr rest hrst hturn hbusy hhost hal
  refine ⟨fun hstorage => ⟨Config.freeWord s.draws, s.draws + 1, ?_⟩, fun hlt => ?_⟩
  · rw [step_readTransaction hrst hturn hhost, State.readTransaction,
      memRead_storage_of_busy (s := { s with delay := s.delay - 1 }) hbusy hstorage hal,
      busResp_legal (busLegal_storage hstorage hal)]
  · rw [step_readRegBlock hrst hturn hlt hal hhost]
    cases regAt addr.toNat <;> rfl

/-! ### Where a step stops -/

/-- A transaction while `rst` is asserted is refused (R221). -/
theorem hostEvent_refused {s : State} {e : HostEvent} (hrst : s.rst = true) (he : HostEvent.isTransaction e = true)
    (rest : List HostEvent) : s.hostEvent e rest = .refused .transactionDuringReset := by
  cases e with
  | read addr size => exact if_pos hrst
  | write addr size v => exact if_pos hrst
  | wait => exact if_pos hrst
  | assertRst | releaseRst => cases he

/-- Every other host event answers a next state. -/
theorem hostEvent_goesOn {s : State} {e : HostEvent} (h : ¬ (s.rst = true ∧ HostEvent.isTransaction e = true))
    (rest : List HostEvent) : ∃ t, s.hostEvent e rest = .next t := by
  have hrst (he : HostEvent.isTransaction e = true) : ¬ s.rst = true := fun hr => h ⟨hr, he⟩
  cases e with
  | read addr size => exact ⟨_, if_neg (hrst rfl)⟩
  | write addr size v => exact ⟨_, if_neg (hrst rfl)⟩
  | wait => exact ⟨_, if_neg (hrst rfl)⟩
  | assertRst | releaseRst => exact ⟨_, rfl⟩

theorem unitTurn_of_rst {s : State} (h : s.rst = true) : s.unitTurn = false := by simp [State.unitTurn, h]

theorem step_refused {s : State} {e : HostEvent} {rest : List HostEvent} (hrst : s.rst = true) (hhost : s.host = e :: rest)
    (he : HostEvent.isTransaction e = true) : step s = .refused .transactionDuringReset := by
  rw [step_host (unitTurn_of_rst hrst) hhost]
  exact hostEvent_refused (s := { s with delay := s.delay - 1 }) hrst he rest

/-- A step goes on, or takes a transaction while `rst` is asserted (R221). -/
theorem step_goesOn_or_refused (s : State) :
    s.goesOn ∨ ∃ e rest, s.rst = true ∧ s.host = e :: rest ∧ HostEvent.isTransaction e = true := by
  cases hturn : s.unitTurn with
  | true =>
    obtain ⟨⟨c, hc⟩, -⟩ := unitTurn_of_host hturn
    obtain ⟨t, hunit, -⟩ := unitStep_spec hc
    exact .inl ⟨t, by rw [step_unit hc hturn, hunit]⟩
  | false =>
    cases hhost : s.host with
    | nil => exact .inl ⟨s, step_idle hturn hhost⟩
    | cons e rest =>
      by_cases h : s.rst = true ∧ HostEvent.isTransaction e = true
      · exact .inr ⟨e, rest, h.1, rfl, h.2⟩
      · rw [State.goesOn, step_host hturn hhost]
        exact .inl (hostEvent_goesOn (s := { s with delay := s.delay - 1 }) h rest)

/-- Settles O55: a step that does not go on is refused, so it does not fault. -/
theorem stepStopsOnlyOnTransactionsDuringReset : Obligations.StepStopsOnlyOnTransactionsDuringReset := by
  intro s
  refine ⟨fun f hf => ?_, fun e rest => step_refused, fun hgo => ?_⟩
  · obtain ⟨t, ht⟩ | ⟨e, rest, hrst, hhost, he⟩ := step_goesOn_or_refused s
    · cases ht.symm.trans hf
    · cases (step_refused hrst hhost he).symm.trans hf
  · obtain h | ⟨e, rest, hrst, hhost, he⟩ := step_goesOn_or_refused s
    · exact h
    · rcases hgo with hlow | hnone
      · exact absurd (hlow.symm.trans hrst) Bool.false_ne_true
      · exact absurd ((hnone e rest hhost).symm.trans he) Bool.false_ne_true

/-! ### The build, RESULT and the shapes -/

/-- `t` has RESULT and the shapes of `s` (R30, R32). -/
def State.SameResults (s t : State) : Prop := t.result = s.result ∧ t.shape0 = s.shape0 ∧ t.shape1 = s.shape1

/-- RESULT, the shapes, the latch and DONE as after a reset (R220). -/
def State.ClearedResults (t : State) : Prop :=
  t.result = 0 ∧ t.shape0 = Shape.none ∧ t.shape1 = Shape.none ∧ t.pending = none ∧ t.done = false

/-- A register write keeps the build; only a CTRL write with SRST = 1 changes RESULT and the shapes, and it clears them (R27). -/
theorem writeReg_results (s : State) (r : Reg) (v : Word) :
    (s.writeReg r v).build = s.build ∧
      (s.SameResults (s.writeReg r v) ∨ (r = .ctrl ∧ v.getLsbD 1 = true) ∧ (s.writeReg r v).ClearedResults) := by
  cases r with
  | ctrl =>
    rw [State.writeReg]
    cases hsrst : v.getLsbD 1
    · rw [writeCtrl_of_srst_clear hsrst]
      exact ⟨rfl, .inl ⟨rfl, rfl, rfl⟩⟩
    · rw [writeCtrl_of_srst_set hsrst]
      exact ⟨rfl, .inr ⟨⟨rfl, rfl⟩, rfl, rfl, rfl, rfl, rfl⟩⟩
  | cmd =>
    rw [State.writeReg, State.writeCmd]
    cases s.busy <;> exact ⟨rfl, .inl ⟨rfl, rfl, rfl⟩⟩
  | status | arg0 | arg1 | arg2 | arg3 => exact ⟨rfl, .inl ⟨rfl, rfl, rfl⟩⟩
  | id | version | errcode | result | param | shape0 | shape1 => exact ⟨rfl, .inl ⟨rfl, rfl, rfl⟩⟩

/-- A register is found at its own offset alone (R22). -/
theorem regOffset_of_regAt {a : Nat} {r : Reg} (h : regAt a = some r) : regOffset r = a :=
  beq_iff_eq.1 (List.find?_some (p := (regOffset · == a)) h)

/-- The same of a write transaction: the only one that clears RESULT is at CTRL's offset, 4 bytes wide. -/
theorem memWrite_results (s : State) (addr : Offset) (size : Size) (v : Word) :
    (s.memWrite addr size v).build = s.build ∧
      (s.SameResults (s.memWrite addr size v) ∨
        (addr = 0x008 ∧ size = .word ∧ v.getLsbD 1 = true) ∧ (s.memWrite addr size v).ClearedResults) := by
  obtain ⟨r, hlegal, hreg, hwrite⟩ | ⟨busyErr, busErr, mem, hwrite⟩ := memWrite_cases s addr size v
  · rw [hwrite]
    obtain ⟨hbuild, hsame | ⟨⟨rfl, hsrst⟩, hcleared⟩⟩ := writeReg_results s r v
    · exact ⟨hbuild, .inl hsame⟩
    · have haddr : addr = 0x008 := eq_regAddr (r := .ctrl) (regOffset_of_regAt hreg).symm
      exact ⟨hbuild, .inr ⟨⟨haddr, (busLegal_eq_true.1 hlegal).1, hsrst⟩, hcleared⟩⟩
  · rw [hwrite]
    exact ⟨rfl, .inl ⟨rfl, rfl, rfl⟩⟩

theorem readTransaction_results (s : State) (addr : Offset) (size : Size) :
    (s.readTransaction addr size).build = s.build ∧ s.SameResults (s.readTransaction addr size) := by
  obtain ⟨busErr, draws, hread⟩ := memRead_state s addr size
  rw [State.readTransaction, hread]
  exact ⟨rfl, rfl, rfl, rfl⟩

/-- The host events that clear RESULT and the shapes: the assertion of `rst`, and the CTRL write of a soft reset (R220, R222). -/
def State.Resets (s : State) (e : HostEvent) : Prop :=
  e = .assertRst ∨ (s.rst = false ∧ ∃ v : Word, v.getLsbD 1 = true ∧ e = .write 0x008 .word v)

/-- A host event keeps the build, and RESULT and the shapes, or it is a reset and clears these. -/
theorem hostEvent_results {s t : State} {e : HostEvent} {rest : List HostEvent} (ht : s.hostEvent e rest = .next t) :
    t.build = s.build ∧ (s.SameResults t ∨ s.Resets e ∧ t.ClearedResults) := by
  rcases hostEvent_next ht with ⟨rfl, rfl⟩ | ⟨-, rfl⟩ | ⟨addr, size, -, -, rfl⟩ | ⟨addr, size, v, rfl, hrst, rfl⟩ | ⟨-, -, rfl⟩
  · exact ⟨rfl, .inr ⟨.inl rfl, rfl, rfl, rfl, rfl, rfl⟩⟩
  · exact ⟨rfl, .inl ⟨rfl, rfl, rfl⟩⟩
  · exact (readTransaction_results s addr size).imp id .inl
  · obtain ⟨hbuild, hsame | ⟨⟨rfl, rfl, hsrst⟩, hcleared⟩⟩ := memWrite_results s addr size v
    · exact ⟨hbuild, .inl hsame⟩
    · exact ⟨hbuild, .inr ⟨.inr ⟨hrst, v, hsrst, rfl⟩, hcleared⟩⟩
  · exact (readTransaction_results s statusAddr .word).imp id .inl

/-- A completion keeps the build (R19). -/
theorem unitStep_build {s t : State} {c : Command} (h : s.unitStep c = .next t) : t.build = s.build := by
  obtain ⟨i, -, hexec⟩ | ⟨e, -, rfl⟩ := unitStep_next h
  · obtain ⟨u, ⟨_, _, _, _, _, rfl⟩, rfl⟩ | ⟨e, rfl⟩ := exec_next hexec <;> rfl
  · rfl

/-- Settles O59: the unit's completion keeps the build, the idle step everything, and of the host's events only the resets clear. -/
theorem resultsChangeOnlyAtCompletionOrReset : Obligations.ResultsChangeOnlyAtCompletionOrReset := by
  intro s t ht
  rcases step_next ht with ⟨c, -, hturn, hunit⟩ | ⟨-, -, rfl⟩ | ⟨e, rest, -, hhost, hevent⟩
  · exact ⟨unitStep_build hunit, fun hhostTurn => absurd (hhostTurn.symm.trans hturn) Bool.false_ne_true⟩
  · exact ⟨rfl, fun _ => .inl ⟨rfl, rfl, rfl⟩⟩
  · obtain ⟨hbuild, hsame | ⟨hreset, hcleared⟩⟩ := hostEvent_results hevent
    · exact ⟨hbuild, fun _ => .inl hsame⟩
    · refine ⟨hbuild, fun _ => .inr ⟨⟨rest, ?_⟩, hcleared⟩⟩
      rw [hhost]
      obtain rfl | ⟨hrst, v, hsrst, rfl⟩ := hreset
      · exact .inl rfl
      · exact .inr ⟨hrst, v, hsrst, rfl⟩

end Sys2Proof.Machine
end
